-- ==== Sys2Proof/Word.lean ====
section
/-! DEFINITION. The widths of the block's quantities (00_scope.md R10, 10_state.md R24 to R40, 30_encoding.md R102). -/

namespace Sys2Proof

/-- A byte: 8 bits, unsigned (R10). -/
abbrev Byte := BitVec 8

/-- A word16: 16 bits, unsigned (R10). -/
abbrev Word16 := BitVec 16

/-- A pointer operand: a 32-bit field of a command packet (R102). -/
abbrev Ptr := BitVec 32

/-- The 32-bit value of a response (R104). -/
abbrev Value := BitVec 32

/-- A command packet: the bytes delivered whole to one port (R100). -/
abbrev Packet := List Byte

end Sys2Proof
end

