-- ==== Sys2Proof/Syntax.lean ====
section
/-! DEFINITION. The block's two encoded inputs as syntax: the commands of the two ports (30_encoding.md Part B) and the
wire symbols in each decoder state (30_encoding.md Part A, 43_decode.md R198 to R211). One constructor for each row of
spec/opcode_table.json. -/

namespace Sys2Proof

/-- The two command ports (R100): P the producer's, C the consumer's. -/
inductive Port where
  | p
  | c
  deriving DecidableEq, Repr

/-- DEC.state (R31): which rows of the wire table the next wire symbol selects from. -/
inductive DecState where
  | idle
  | addressExpected
  | receiving
  | escaping
  | terminated
  deriving DecidableEq, Repr

/-- The four conditions under which a FEND is read in state Receiving (R202 to R205). -/
inductive FendCase where
  /-- DEC.idx = 0 -/
  | noBody
  /-- DEC.idx = 1 -/
  | oneByte
  /-- DEC.idx >= 2 and the computed CRC equals the received one -/
  | crcGood
  /-- DEC.idx >= 2 and the computed CRC differs from the received one -/
  | crcBad
  deriving DecidableEq, Repr

/-- The readable registers (R108). -/
inductive Reg where
  | rbCount | rbIn | rbOut | rbOvf | rbInited
  | decState | decStatus | decAddr | decIdx | decCrc | decBuf | decCap | decBound
  | encStatus | encLen
  deriving DecidableEq, Repr

/-- The instructions: every row of the opcode table. A command that both ports accept carries the port it arrived on;
a wire row that stands for a class of bytes carries the byte. -/
inductive Instr where
  -- the commands (R103)
  | rbInit
  | rbCount (port : Port)
  | rbFull (port : Port)
  | rbEmpty (port : Port)
  | rbInsert (b : Byte)
  | rbRemove
  | rbPush (b : Byte)
  | crcAppend (b : Byte) (crc : Word16)
  | enc (dst : Ptr) (dcap : Word16) (addr : Byte) (pay : Ptr) (plen : Word16)
  | decInit (buf : Ptr) (cap : Word16)
  | decByte (b : Byte)
  | rd (reg : Byte)
  -- the catch-all: an unassigned opcode, a wrong port, a wrong length (R107)
  | unassigned (port : Port) (packet : Packet)
  -- wire symbols in state Idle
  | wIdleFend
  | wIdleOther (b : Byte)
  -- wire symbols in state AddressExpected
  | wAeAddr01
  | wAeAddr02
  | wAeAddr03
  | wAeAddr04
  | wAeAddr05
  | wAeAddr06
  | wAeAddr07
  | wAeAddr08
  | wAeAddr09
  | wAeAddr0A
  | wAeAddr0B
  | wAeAddr38
  | wAeAddrBad (b : Byte)
  -- wire symbols in state Receiving
  | wRcvFendResync
  | wRcvFendShort
  | wRcvFendGood
  | wRcvFendBadcrc
  | wRcvFesc
  | wRcvData (b : Byte)
  -- wire symbols in state Escaping
  | wEscTfend
  | wEscTfesc
  | wEscBad (b : Byte)
  -- wire symbols in state Terminated
  | wTermAny (b : Byte)
  deriving DecidableEq, Repr

end Sys2Proof
end

