-- ==== Sys2Proof/Decode.lean ====
section
/-! DEFINITION. From bytes to instructions and back: the command packets (30_encoding.md R100 to R109) and the wire
symbols (R90 to R99, 43_decode.md R212). Both decoders are total. -/

namespace Sys2Proof

/-! Byte order: multi-byte fields travel most significant byte first (R67, R68, R101). -/

/-- `v[15:8]` of a word16 (R10). -/
def hiByte (w : Word16) : Byte := w.extractLsb' 8 8

/-- `v[7:0]` of a word16 (R10). -/
def loByte (w : Word16) : Byte := w.extractLsb' 0 8

/-- Two bytes, the high one first, as a word16 (R67, R101). -/
def be16 (hi lo : Byte) : Word16 := hi ++ lo

/-- Four bytes, the most significant first, as a 32-bit number (R101). -/
def be32 (b3 b2 b1 b0 : Byte) : BitVec 32 := b3 ++ b2 ++ b1 ++ b0

/-- A 32-bit number as four bytes, the most significant first (R101). -/
def bytes32 (v : BitVec 32) : List Byte :=
  [v.extractLsb' 24 8, v.extractLsb' 16 8, v.extractLsb' 8 8, v.extractLsb' 0 8]

/-- A word16 as two bytes, the high one first (R101). -/
def bytes16 (w : Word16) : List Byte := [hiByte w, loByte w]

/-! The wire constants and the address set (R92, R95). -/

/-- FEND, the frame delimiter. -/
def fend : Byte := 0xC0#8

/-- FESC, the escape prefix. -/
def fesc : Byte := 0xDB#8

/-- TFEND, which after FESC stands for FEND. -/
def tfend : Byte := 0xDC#8

/-- TFESC, which after FESC stands for FESC. -/
def tfesc : Byte := 0xDD#8

/-- `valid_addr` (R11, R95): 1 to 11 and 56. -/
def validAddr (b : Byte) : Bool := (1 ≤ b.toNat && b.toNat ≤ 11) || b.toNat == 56

/-! The command packets. -/

/-- One row of the opcode map (R103): the opcode, the packet's length in bytes (R102), the ports that accept it. -/
structure CommandRow where
  opcode : Byte
  length : Nat
  onP : Bool
  onC : Bool
  deriving DecidableEq, Repr

/-- The opcode map (R102, R103). -/
def commandTable : List CommandRow :=
  [ ⟨0x01#8, 1, false, true⟩,    -- RB_INIT
    ⟨0x02#8, 1, true, true⟩,     -- RB_COUNT
    ⟨0x03#8, 1, true, true⟩,     -- RB_FULL
    ⟨0x04#8, 1, true, true⟩,     -- RB_EMPTY
    ⟨0x05#8, 2, true, false⟩,    -- RB_INSERT
    ⟨0x06#8, 1, false, true⟩,    -- RB_REMOVE
    ⟨0x07#8, 2, true, false⟩,    -- RB_PUSH
    ⟨0x10#8, 4, false, true⟩,    -- CRC_APPEND
    ⟨0x20#8, 14, false, true⟩,   -- ENC
    ⟨0x30#8, 7, false, true⟩,    -- DEC_INIT
    ⟨0x31#8, 2, false, true⟩,    -- DEC_BYTE
    ⟨0x40#8, 2, false, true⟩ ]   -- RD

/-- The row of an opcode, if it is assigned. -/
def commandRow (op : Byte) : Option CommandRow := commandTable.find? (fun r => r.opcode == op)

/-- Does a row accept a port (R106)? -/
def CommandRow.accepts (r : CommandRow) (port : Port) : Bool :=
  match port with
  | .p => r.onP
  | .c => r.onC

/-- Why a packet is no command (R107). -/
inductive Illegal where
  /-- no opcode byte at all (DESIGN CHOICE, log 17) -/
  | emptyPacket
  /-- the opcode has no row -/
  | unassignedOpcode
  /-- the command is not accepted on this port -/
  | wrongPort
  /-- the packet's length is not its format's -/
  | wrongLength
  deriving DecidableEq, Repr

/-- The reason a packet on a port is no command, by name; none when it is one (R107). -/
def illegalWhy (port : Port) : Packet → Option Illegal
  | [] => some .emptyPacket
  | op :: args =>
    match commandRow op with
    | none => some .unassignedOpcode
    | some r =>
      if r.accepts port then
        if r.length = args.length + 1 then none else some .wrongLength
      else some .wrongPort

/-- The operands of a packet whose opcode, port and length are right (R101 to R103). -/
def decodeOperands (port : Port) (op : Byte) (args : List Byte) : Instr :=
  match op.toNat, args with
  | 0x01, [] => .rbInit
  | 0x02, [] => .rbCount port
  | 0x03, [] => .rbFull port
  | 0x04, [] => .rbEmpty port
  | 0x05, [b] => .rbInsert b
  | 0x06, [] => .rbRemove
  | 0x07, [b] => .rbPush b
  | 0x10, [b, c1, c0] => .crcAppend b (be16 c1 c0)
  | 0x20, [d3, d2, d1, d0, n1, n0, a, p3, p2, p1, p0, l1, l0] =>
    .enc (be32 d3 d2 d1 d0) (be16 n1 n0) a (be32 p3 p2 p1 p0) (be16 l1 l0)
  | 0x30, [u3, u2, u1, u0, k1, k0] => .decInit (be32 u3 u2 u1 u0) (be16 k1 k0)
  | 0x31, [b] => .decByte b
  | 0x40, [r] => .rd r
  | _, _ => .unassigned port (op :: args)

/-- The command a packet is (R103, R109), total: a packet that is none is the catch-all row, answered ILLEGAL_CMD
(R107). -/
def decode (port : Port) (pkt : Packet) : Instr :=
  match illegalWhy port pkt, pkt with
  | none, op :: args => decodeOperands port op args
  | _, _ => .unassigned port pkt

/-! The wire symbols. -/

/-- The row of an address byte in state AddressExpected (R200, R201). -/
def decodeAddress (b : Byte) : Instr :=
  match b.toNat with
  | 0x01 => .wAeAddr01
  | 0x02 => .wAeAddr02
  | 0x03 => .wAeAddr03
  | 0x04 => .wAeAddr04
  | 0x05 => .wAeAddr05
  | 0x06 => .wAeAddr06
  | 0x07 => .wAeAddr07
  | 0x08 => .wAeAddr08
  | 0x09 => .wAeAddr09
  | 0x0A => .wAeAddr0A
  | 0x0B => .wAeAddr0B
  | 0x38 => .wAeAddr38
  | _ => .wAeAddrBad b

/-- The row of the wire table that a byte selects (R99, R212), total: the state, the condition under which a FEND in
Receiving is read, the byte. -/
def decodeWire (st : DecState) (fc : FendCase) (b : Byte) : Instr :=
  match st with
  | .idle => if b = fend then .wIdleFend else .wIdleOther b
  | .addressExpected => decodeAddress b
  | .receiving =>
    if b = fend then
      match fc with
      | .noBody => .wRcvFendResync
      | .oneByte => .wRcvFendShort
      | .crcGood => .wRcvFendGood
      | .crcBad => .wRcvFendBadcrc
    else if b = fesc then .wRcvFesc
    else .wRcvData b
  | .escaping => if b = tfend then .wEscTfend else if b = tfesc then .wEscTfesc else .wEscBad b
  | .terminated => .wTermAny b

/-! The register numbers of RD (R108). -/

/-- The register that a number names, if it is assigned. -/
def regOf (n : Byte) : Option Reg :=
  match n.toNat with
  | 0x00 => some .rbCount
  | 0x01 => some .rbIn
  | 0x02 => some .rbOut
  | 0x03 => some .rbOvf
  | 0x04 => some .rbInited
  | 0x10 => some .decState
  | 0x11 => some .decStatus
  | 0x12 => some .decAddr
  | 0x13 => some .decIdx
  | 0x14 => some .decCrc
  | 0x15 => some .decBuf
  | 0x16 => some .decCap
  | 0x17 => some .decBound
  | 0x20 => some .encStatus
  | 0x21 => some .encLen
  | _ => none

/-! The encoder: the bytes of an instruction, from the same tables. -/

/-- The port an instruction is issued on (R103, R106); a wire symbol is the operand of DEC_BYTE, so port C. -/
def Instr.port : Instr → Port
  | .rbCount port | .rbFull port | .rbEmpty port | .unassigned port _ => port
  | .rbInsert _ | .rbPush _ => .p
  | _ => .c

/-- The bytes of an instruction: a command's packet (R101 to R103); a wire row's one byte (R99). -/
def encode : Instr → Packet
  | .rbInit => [0x01#8]
  | .rbCount _ => [0x02#8]
  | .rbFull _ => [0x03#8]
  | .rbEmpty _ => [0x04#8]
  | .rbInsert b => [0x05#8, b]
  | .rbRemove => [0x06#8]
  | .rbPush b => [0x07#8, b]
  | .crcAppend b crc => 0x10#8 :: b :: bytes16 crc
  | .enc dst dcap addr pay plen =>
    0x20#8 :: (bytes32 dst ++ bytes16 dcap ++ [addr] ++ bytes32 pay ++ bytes16 plen)
  | .decInit buf cap => 0x30#8 :: (bytes32 buf ++ bytes16 cap)
  | .decByte b => [0x31#8, b]
  | .rd reg => [0x40#8, reg]
  | .unassigned _ pkt => pkt
  | .wIdleFend => [fend]
  | .wIdleOther b => [b]
  | .wAeAddr01 => [0x01#8]
  | .wAeAddr02 => [0x02#8]
  | .wAeAddr03 => [0x03#8]
  | .wAeAddr04 => [0x04#8]
  | .wAeAddr05 => [0x05#8]
  | .wAeAddr06 => [0x06#8]
  | .wAeAddr07 => [0x07#8]
  | .wAeAddr08 => [0x08#8]
  | .wAeAddr09 => [0x09#8]
  | .wAeAddr0A => [0x0A#8]
  | .wAeAddr0B => [0x0B#8]
  | .wAeAddr38 => [0x38#8]
  | .wAeAddrBad b => [b]
  | .wRcvFendResync => [fend]
  | .wRcvFendShort => [fend]
  | .wRcvFendGood => [fend]
  | .wRcvFendBadcrc => [fend]
  | .wRcvFesc => [fesc]
  | .wRcvData b => [b]
  | .wEscTfend => [tfend]
  | .wEscTfesc => [tfesc]
  | .wEscBad b => [b]
  | .wTermAny b => [b]

/-- The decoder state that a wire row belongs to (the table's "state" column); none for a command. -/
def Instr.wireState : Instr → Option DecState
  | .wIdleFend | .wIdleOther _ => some .idle
  | .wAeAddr01 | .wAeAddr02 | .wAeAddr03 | .wAeAddr04 | .wAeAddr05 | .wAeAddr06 | .wAeAddr07 | .wAeAddr08
  | .wAeAddr09 | .wAeAddr0A | .wAeAddr0B | .wAeAddr38 | .wAeAddrBad _ => some .addressExpected
  | .wRcvFendResync | .wRcvFendShort | .wRcvFendGood | .wRcvFendBadcrc | .wRcvFesc | .wRcvData _ => some .receiving
  | .wEscTfend | .wEscTfesc | .wEscBad _ => some .escaping
  | .wTermAny _ => some .terminated
  | _ => none

/-- The condition a wire row puts on a FEND in state Receiving (the table's "condition" column); none for a row that
puts none. -/
def Instr.fendCase : Instr → Option FendCase
  | .wRcvFendResync => some .noBody
  | .wRcvFendShort => some .oneByte
  | .wRcvFendGood => some .crcGood
  | .wRcvFendBadcrc => some .crcBad
  | _ => none

/-- Is the instruction a wire row? -/
def Instr.isWire (i : Instr) : Bool := i.wireState.isSome

/-! The opcode table's numbering of bits: a row's packet is one number, byte 0 its most significant byte. -/

/-- The `n` bytes of a number, the most significant first. -/
def beBytes : Nat → Nat → List Byte
  | 0, _ => []
  | n + 1, w => beBytes n (w / 256) ++ [BitVec.ofNat 8 (w % 256)]

/-- A packet filled up with operand bytes of zeros to its format's length. -/
def padded : Packet → Packet
  | [] => []
  | op :: args =>
    match commandRow op with
    | none => op :: args
    | some r => op :: (args ++ List.replicate (r.length - (args.length + 1)) 0#8)

/-- The port that the opcode's command is issued on: P for the two that only P accepts, else C. -/
def usualPort : Packet → Port
  | [] => .c
  | op :: _ => if op = 0x05#8 ∨ op = 0x07#8 then .p else .c

/-- A word of one byte that is a row of the wire space and no whole command packet: the row, the first in the table's
order where several share the byte (log 16). -/
def wireOnly (b : Byte) : Option Instr :=
  match b.toNat with
  | 0x05 => some .wAeAddr05
  | 0x07 => some .wAeAddr07
  | 0x08 => some .wAeAddr08
  | 0x09 => some .wAeAddr09
  | 0x0A => some .wAeAddr0A
  | 0x0B => some .wAeAddr0B
  | 0x38 => some .wAeAddr38
  | 0xC0 => some .wIdleFend
  | 0xDB => some .wRcvFesc
  | 0xDC => some .wEscTfend
  | 0xDD => some .wEscTfesc
  | _ => none

/-- How a table word reaches the block: as a packet on a port, or as a wire symbol (log 16). -/
inductive TableWord where
  | command (port : Port) (pkt : Packet)
  | wire (st : DecState) (b : Byte)
  deriving DecidableEq, Repr

/-- The packet or the wire symbol that a word of the opcode table is. -/
def tableWord (nbits w : Nat) : TableWord :=
  let pkt := beBytes (nbits / 8) w
  match pkt with
  | [b] =>
    match wireOnly b with
    | some i => .wire (i.wireState.getD .idle) b
    | none => .command (usualPort pkt) (padded pkt)
  | _ => .command (usualPort pkt) (padded pkt)

/-- The instruction of a table word, none only for a word of no bytes. -/
def decodeTableWord (nbits w : Nat) : Option Instr :=
  match tableWord nbits w with
  | .wire st b => some (decodeWire st .noBody b)
  | .command _ [] => none
  | .command port pkt => some (decode port pkt)

end Sys2Proof
end

