-- ==== Sys2Proof/Config.lean ====
section
/-! DEFINITION. The block's parameters (00_scope.md R8) and the values that the spec leaves open. Each opaque constant
here is a FREE VALUE: nothing can be proved of what it is, so a statement about it holds whatever it is. -/

namespace Sys2Proof

/-- Which one-byte CRC update the block has. `peer` is the open parameter CRC_STEP of R8 and R161; `reference` is
REF_CRC of R165, the stand-in that the spec's printed vectors use. (DESIGN CHOICE, log 2.) -/
inductive CrcChoice where
  | peer
  | reference
  deriving DecidableEq, Repr

/-- The parameters of one instance (R8): N, AW, CTR_W and CRC_STEP. They are constants of the instance: no step
changes them. (DESIGN CHOICE, log 1.) -/
structure Params where
  /-- N, the ring buffer's capacity in bytes. -/
  ringSize : Nat
  /-- AW, the width of a buffer pointer. -/
  addrWidth : Nat
  /-- CTR_W, the width of the overflow counter. -/
  ctrWidth : Nat
  /-- CRC_STEP. -/
  crc : CrcChoice
  deriving DecidableEq, Repr

/-- The constraints that R8 puts on the parameters. -/
abbrev Params.Legal (q : Params) : Prop :=
  (1 ≤ q.ringSize ∧ q.ringSize ≤ 65535) ∧ (8 ≤ q.addrWidth ∧ q.addrWidth ≤ 32) ∧ 1 ≤ q.ctrWidth

/-- N less one, open in the spec (R8: 1 <= N <= 65535, no value given). Free value, log 1. -/
opaque Config.ringSizeLessOne : Fin 65535

/-- N of the instance after reset. -/
def Config.ringSize : Nat := Config.ringSizeLessOne.val + 1

/-- CRC_STEP (R161): "an uninterpreted total function" of the byte and the accumulator. Free value, log 2. -/
opaque Config.crcStep : Byte → Word16 → Word16

/-- The draws for values the spec calls unspecified: a register that nothing has written (93 U12), the destination
region after an OVERFLOW of ENC (93 U13), the ring's count and results after a RingOverrun (93 U3). Applied to the
counter `State.draws`. Free value, logs 4, 12 and 14. -/
opaque Config.freeWord : Nat → BitVec 32

/-- Which port moves when both have work and the schedule names none: true for P (R73). Applied to the counter
`State.draws`. Free value, log 11. -/
opaque Config.freePick : Nat → Bool

/-- What the host left in buffer memory before reset, for each address (R60, R281). Free value, log 6. -/
opaque Config.bmInitial : Nat → Byte

/-- What a ring cell that nothing has written holds (R23, 93 U16). Free value, log 7. -/
opaque Config.ringInitial : Nat → Byte

/-- The instance after reset: N open, AW and CTR_W at the defaults of R8, CRC_STEP the open one. -/
def Config.params : Params :=
  { ringSize := Config.ringSize, addrWidth := 16, ctrWidth := 32, crc := .peer }

end Sys2Proof
end

