-- ==== Sys2Proof/Machine/State.lean ====
section
/-! DEFINITION. The state of one instance (10_state.md R21, R44), its environment, and the reasons a step can stop. -/

namespace Sys2Proof.Machine

/-- Why the machine stops with a fault. -/
inductive Fault where
  /-- RB_REMOVE while RB.count = 0 (40_ring_buffer.md R143, 93 U4, log 26). Raised by
   remove micro-step r1 (and r3, in states no run reaches).
  Safe: the hardware goes on, everything unspecified. -/
  | ringUnderrun
  /-- An access to a BM address that does not exist or lies outside the bound buffer (R60, R65). Raised by a host write
  at or above 2^AW, and by a closing FEND with DEC.idx above DEC.cap, which no run reaches. Safe. -/
  | outsideMemory
  /-- An access to a ring cell that does not exist, index N or more (R23). Raised by i1 and r1 in states no run reaches.
  Safe. -/
  | outsideRing
  deriving DecidableEq, Repr

/-- Why the model gives a step no meaning: the spec's `refuse` (00_scope.md R11). -/
inductive Refusal where
  /-- Raised by exec's arm of an instruction that has no meaning yet. Safe. -/
  | notModelled (mnemonic : String)
  /-- A ring command other than RB_INIT while RB.inited = 0 (R28, 93 U1). Safe. -/
  | ringNotInitialised
  /-- DEC_BYTE, or a wire row, while DEC.bound = 0 (R30, R195, 93 U2). Safe. -/
  | decoderUnbound
  /-- A region that is not legal given to ENC, DEC_INIT or DEC_BYTE (R64, 93 U5). Safe. -/
  | illegalRegion
  /-- ENC whose two regions intersect (R64, 93 U6). Safe. -/
  | overlappingRegions
  /-- A host write inside the region bound to the decoder (R79, 93 U7). Safe. -/
  | hostWriteInBoundRegion
  /-- A command on a port whose previous command has not answered (R100, R144, 93 U8). Safe: step never issues one. -/
  | portBusy
  /-- RB_INIT while a P command is in progress, or a ring command on P while RB_INIT is (R149, 93 U9). Safe. -/
  | initOverlap
  /-- ENC whose two CRC bytes fall in the decoder's live buffer (93 U10). Safe. -/
  | tailInLiveBuffer
  /-- A wire row whose state, condition or class of byte does not hold: no byte selects it then (R99, R212). Raised by
  the wire rows alone, never by DEC_BYTE. Safe. -/
  | wireRowNotSelected
  deriving DecidableEq, Repr

/-- Status codes (30_encoding.md R105). -/
inductive Status where
  | ok
  | nullBuffer
  | overflow
  | invalidAddress
  | escapeSequence
  | crcMismatch
  | illegalCmd
  deriving DecidableEq, Repr

/-- What a response packet carries (R104). -/
structure Response where
  status : Status
  value : Value
  deriving DecidableEq, Repr

/-- A memory of bytes: cells in strictly rising order of address. An address that no cell lists has never been written;
it reads as the free value that its reader names (Config.bmInitial, Config.ringInitial; logs 6 and 7). -/
abbrev Memory := List Host.Cell

/-- A P command in progress (R44): its next micro-step and the latched byte (R131, R145). -/
inductive PStage where
  | i1 (b : Byte)
  | i2 (b : Byte)
  | i3 (b : Byte)
  | p1 (b : Byte)
  deriving DecidableEq, Repr

/-- A C command in progress (R44): RB_REMOVE's next micro-step and the byte read (R131), or RB_INIT's next write
(R133: out, count, inited). -/
inductive CStage where
  | r2 (v : Byte)
  | r3 (v : Byte)
  | n2
  | n3
  | n4
  deriving DecidableEq, Repr

/-- What the consumer's context does next: issue a command (R100), or write a byte of BM between commands (R78). -/
inductive HostAct where
  | command (pkt : Packet)
  | write (addr : Nat) (b : Byte)
  deriving DecidableEq, Repr

/-- The next move of the execution order: a micro-step of a port (R73), or a hardware reset (R280). -/
inductive Turn where
  | port (who : Port)
  | reset
  deriving DecidableEq, Repr

/-- The ring buffer unit RB (R23 to R28). `overrun` records the fault RingOverrun (40_ring_buffer.md R140, 93 U3): an
RB_INSERT found the ring full, and until the next RB_INIT the count and every result of the ring are unspecified (log
12). -/
structure Ring where
  mem : Memory
  inCur : Word16
  outCur : Word16
  count : Word16
  ovf : Nat
  inited : Bool
  overrun : Bool
  deriving DecidableEq, Repr

/-- The decoder unit DEC (R30 to R37). The last three fields are the model's own (log 4): has a DEC_INIT with a pointer
written state, buf, cap, idx and crc since reset; has status been written; has addr. -/
structure Decoder where
  bound : Bool
  state : DecState
  addr : Byte
  buf : Ptr
  cap : Word16
  idx : Word16
  crc : Word16
  status : Status
  armed : Bool
  statusSet : Bool
  addrSet : Bool
  deriving DecidableEq, Repr

/-- The encoder unit ENC (R39, R40). -/
structure Encoder where
  status : Status
  len : Word16
  deriving DecidableEq, Repr

/-- The state of one instance with its environment. -/
structure State where
  /-- The parameters of R8, constant (log 1). -/
  par : Params
  ring : Ring
  dec : Decoder
  enc : Encoder
  /-- Buffer memory BM (R60). -/
  bm : Memory
  /-- The command in progress on port P (R44). -/
  pBusy : Option PStage
  /-- The command in progress on port C (R44). -/
  cBusy : Option CStage
  /-- What the producer still has to issue (R233). -/
  pQueue : List Packet
  /-- What the consumer still has to do (R233). -/
  cQueue : List HostAct
  /-- The moves of the execution order that are given (R73); where none is given the choice is free. -/
  sched : List Turn
  /-- The responses given on port P, newest first (R104). -/
  pAnswers : List Response
  /-- The responses given on port C, newest first (R104). -/
  cAnswers : List Response
  /-- How many free values have been taken (log 4). -/
  draws : Nat
  /-- Has a fault been recorded in this run (R233)? Set with every RingOverrun, cleared only by the hardware reset that
  begins the next run (log 12). -/
  runFaulted : Bool
  deriving DecidableEq, Repr

/-- What a step, or a meaning, answers. -/
abbrev Result := Host.Outcome State Fault Refusal

/-- RB after hardware reset (R281): ovf and inited as the spec says, the cursors and the count unspecified (log 3), no
fault recorded. -/
def Ring.reset : Ring :=
  { mem := [], inCur := 0#16, outCur := 0#16, count := 0#16, ovf := 0, inited := false, overrun := false }

/-- DEC after hardware reset (R281): bound as the spec says, the other registers unspecified (log 3). -/
def Decoder.reset : Decoder :=
  { bound := false, state := .idle, addr := 0#8, buf := 0#32, cap := 0#16, idx := 0#16, crc := 0#16, status := .ok,
    armed := false, statusSet := false, addrSet := false }

/-- ENC after hardware reset (R281). -/
def Encoder.reset : Encoder := { status := .ok, len := 0#16 }

/-- The machine right after hardware reset (R281, R282): both ports idle, nothing issued. -/
def State.reset : State :=
  { par := Config.params, ring := Ring.reset, dec := Decoder.reset, enc := Encoder.reset, bm := [],
    pBusy := none, cBusy := none, pQueue := [], cQueue := [], sched := [], pAnswers := [], cAnswers := [], draws := 0
    runFaulted := false }

end Sys2Proof.Machine
end

