-- ==== Sys2Proof/Machine/Ops.lean ====
section
/-! DEFINITION. The operations that the meanings share: memories, updates of one part of the state, answering a command,
accepting one, the decoder's two ways to end a byte, hardware reset. The block takes no exception and returns from
none (60_exceptions.md R246, R252): its errors are answers, delivered by `State.answer`, `State.decRaise` and
`State.encFail`. -/

namespace Sys2Proof.Machine

/-! Memories: one byte an access (R66). -/

/-- The byte a memory holds at an address; none where nothing has been written. -/
def Memory.get : Memory → Nat → Option Byte
  | [], _ => none
  | (k, v) :: m, a => if k = a then some v else Memory.get m a

/-- Write one byte, keeping the cells in rising order of address. -/
def Memory.set : Memory → Nat → Byte → Memory
  | [], a, v => [(a, v)]
  | (k, w) :: m, a, v =>
    if a < k then (a, v) :: (k, w) :: m
    else if a = k then (a, v) :: m
    else (k, w) :: Memory.set m a v

/-- Are all of a memory's addresses above `lo`, strictly rising? -/
def Memory.risesFrom : Nat → Memory → Bool
  | _, [] => true
  | lo, (k, _) :: m => lo ≤ k && Memory.risesFrom (k + 1) m

/-- The canonical form: strictly rising addresses. (A listed byte is never what an unlisted address gives, which is no
byte at all: `Memory.get` answers none.) -/
def Memory.wf (m : Memory) : Bool := Memory.risesFrom 0 m

/-- Do all of a memory's addresses lie below a bound? -/
def Memory.below (bound : Nat) (m : Memory) : Bool := m.all (fun cell => cell.1 < bound)

/-! Status codes and responses. -/

/-- The code of a status (R105). -/
def Status.code : Status → Byte
  | .ok => 0x00#8
  | .nullBuffer => 0x01#8
  | .overflow => 0x02#8
  | .invalidAddress => 0x03#8
  | .escapeSequence => 0x04#8
  | .crcMismatch => 0x05#8
  | .illegalCmd => 0xFF#8

/-- The five bytes of a response packet (R104). -/
def Response.bytes (r : Response) : List Byte := r.status.code :: bytes32 r.value

/-- The code of DEC.state (R31). -/
def stateCode : DecState → BitVec 3
  | .idle => 0#3
  | .addressExpected => 1#3
  | .receiving => 2#3
  | .escaping => 3#3
  | .terminated => 4#3

/-! Updates of one part of the state. -/

/-- Replace the ring buffer unit. -/
def State.withRing (s : State) (r : Ring) : State := { s with ring := r }

/-- Replace the decoder unit. -/
def State.withDec (s : State) (d : Decoder) : State := { s with dec := d }

/-- Replace the encoder unit. -/
def State.withEnc (s : State) (e : Encoder) : State := { s with enc := e }

/-- Replace buffer memory. -/
def State.withBm (s : State) (m : Memory) : State := { s with bm := m }

/-- Set port P's command in progress. -/
def State.holdP (s : State) (g : PStage) : State := { s with pBusy := some g }

/-- Set port C's command in progress. -/
def State.holdC (s : State) (g : CStage) : State := { s with cBusy := some g }

/-- Take `n` free values. -/
def State.drew (s : State) (n : Nat) : State := { s with draws := s.draws + n }

/-- Answer the command in progress on a port (R100, R104): the response is given and the port is idle. -/
def State.answer (s : State) (port : Port) (st : Status) (v : Value) : State :=
  match port with
  | .p => { s with pBusy := none, pAnswers := ⟨st, v⟩ :: s.pAnswers }
  | .c => { s with cBusy := none, cAnswers := ⟨st, v⟩ :: s.cAnswers }

/-- Record a RingOverrun where one happens: until RB_INIT in the ring (R140), and for the whole run (R233). -/
def State.noteOverrun (s : State) (happens : Bool) : State :=
  { s with
    ring := { s.ring with overrun := s.ring.overrun || happens }
    runFaulted := s.runFaulted || happens }

/-! Accepting a command. -/

/-- Is a command in progress on a port (R44)? -/
def State.busy (s : State) (port : Port) : Bool :=
  match port with
  | .p => s.pBusy.isSome
  | .c => s.cBusy.isSome

/-- Is an RB_INIT in progress (R133)? -/
def State.initRunning (s : State) : Bool :=
  match s.cBusy with
  | some .n2 | some .n3 | some .n4 => true
  | _ => false

/-- Accept a command on a port: "A port accepts the next command only after it has answered the previous one" (R100);
a second one at once is refused (93 U8). -/
def accept (port : Port) (s : State) (k : Result) : Result :=
  if s.busy port then .refused .portBusy else k

/-- Accept a ring command other than RB_INIT: not on P while RB_INIT is in progress (R149, 93 U9), and only after the
first RB_INIT (R28, 93 U1). -/
def acceptRing (port : Port) (s : State) (k : Result) : Result :=
  accept port s
    (if port = .p ∧ s.initRunning then .refused .initOverlap
     else if s.ring.inited then k
     else .refused .ringNotInitialised)

/-! Buffer memory as the block reads it. -/

/-- `MemRead(a, 1)` (R11): the byte of BM, the host's own where the model has seen no write (log 6). -/
def State.bmRead (s : State) (a : Nat) : Byte := (Memory.get s.bm a).getD (Config.bmInitial a)

/-- The `n` bytes of BM from an address on. -/
def State.bmReads (s : State) : Nat → Nat → List Byte
  | _, 0 => []
  | a, n + 1 => s.bmRead a :: s.bmReads (a + 1) n

/-- The byte of a ring cell (R23); a free value where nothing has been written (log 7). -/
def Ring.cell (r : Ring) (i : Nat) : Byte := (Memory.get r.mem i).getD (Config.ringInitial i)

/-! Free values. -/

/-- The free byte of a draw. -/
def freeByte (n : Nat) : Byte := (Config.freeWord n).setWidth 8

/-- The free value of a draw, of a register `width` bits wide (93 U12). -/
def freeValue (n width : Nat) : Value := BitVec.ofNat 32 ((Config.freeWord n).toNat % 2 ^ width)

/-- The free 16-bit number of a draw. -/
def freeWord16 (n : Nat) : Word16 := (Config.freeWord n).setWidth 16

/-- The free cursor of a draw: in 0 to N-1, the legal values of R24 and R25. -/
def freeCursor (q : Params) (n : Nat) : Word16 := BitVec.ofNat 16 ((Config.freeWord n).toNat % q.ringSize)

/-- The free yes or no of a draw. -/
def freeBit (n : Nat) : Bool := (Config.freeWord n).getLsbD 0

/-- Answer a ring command with a result `width` bits wide: the value, or a draw where a RingOverrun has made every
later result unspecified (R140, 93 U3, log 12). -/
def State.answerRing (s : State) (port : Port) (width : Nat) (v : Value) : State :=
  if s.ring.overrun then (s.drew 1).answer port .ok (freeValue s.draws width) else s.answer port .ok v

/-- Put free bytes into the `n` addresses from `a` on, the first from draw `d` (93 U13). -/
def Memory.setFree : Memory → Nat → Nat → Nat → Memory
  | m, _, 0, _ => m
  | m, a, n + 1, d => Memory.setFree (Memory.set m a (freeByte d)) (a + 1) n (d + 1)

/-! How a decoder byte and an encode end. -/

/-- A byte accepted without error: the unit's new registers, status OK, answered OK (R195). -/
def State.decOk (s : State) (d : Decoder) : State :=
  (s.withDec { d with status := .ok, statusSet := true }).answer .c .ok 0#32

/-- `raise E` (R196): Idle, index 0, the error as status and answer; address, CRC and binding kept. -/
def State.decRaise (s : State) (e : Status) : State :=
  (s.withDec { s.dec with state := .idle, idx := 0#16, status := e, statusSet := true }).answer .c e 0#32

/-- `fail(s)` of ENC (R171): the error as ENC.status and answer, length 0. -/
def State.encFail (s : State) (e : Status) : State :=
  (s.withEnc { status := e, len := 0#16 }).answer .c e 0#32

/-! Hardware reset. -/

/-- Hardware reset from any state (R280, R281): the units and the commands in progress; a new run begins, no fault
recorded in it (R233); BM "not touched". What the host
has issued, the schedule and the answers given are the environment's (log 19). -/
def State.hardReset (s : State) : State :=
  { s with ring := Ring.reset, dec := Decoder.reset, enc := Encoder.reset, pBusy := none, cBusy := none
           runFaulted := false }

end Sys2Proof.Machine
end

