-- ==== Sys2Proof/Machine/Flags.lean ====
section
/-! DEFINITION. The conditions of 10_state.md R42: the block has no flag register, each condition is a function of its
registers. -/

namespace Sys2Proof.Machine

/-- `full`: RB.count >= N (R42, R135). -/
def State.full (s : State) : Bool := s.par.ringSize ≤ s.ring.count.toNat

/-- `empty`: RB.count = 0 (R42, R136). -/
def State.empty (s : State) : Bool := s.ring.count == 0#16

/-- `frame_complete`: DEC.state = Terminated (R42). (DESIGN CHOICE, log 27: it follows the state, also through a DEC_INIT
with a null pointer.) -/
def State.frameComplete (s : State) : Bool := s.dec.state == .terminated

/-- 1 if true, 0 if false, as a response value (R104). -/
def boolValue (b : Bool) : Value := if b then 1#32 else 0#32

/-- Is the bound payload buffer in use by the decoder (R79)? From DEC_INIT to the frame's terminal outcome: not in
Terminated, and not in the Idle that an error leaves until the next byte arrives (log 8). -/
def Decoder.live (d : Decoder) : Bool :=
  d.bound && d.state != .terminated && !(d.state == .idle && d.status != .ok)

end Sys2Proof.Machine
end

