-- ==== Sys2Proof/Machine/Operands.lean ====
section
/-! DEFINITION. The operand forms: buffer regions (20_memory.md R64), escaped bytes and frames (30_encoding.md R91, R93),
register numbers (R108). -/

namespace Sys2Proof.Machine

/-! Regions. -/

/-- Is the region `(p, n)` legal (R64)? Not null, the pointer an address of BM, no wrap past the top. -/
def regionLegal (aw p n : Nat) : Bool := p != 0 && p < 2 ^ aw && p + n ≤ 2 ^ aw

/-- Do two regions share an address (R64)? -/
def regionsMeet (p n q m : Nat) : Bool := p < q + m && q < p + n && n != 0 && m != 0

/-! Wire forms. -/

/-- `esc(b)` (R93). -/
def esc (b : Byte) : List Byte :=
  if b = fend then [fesc, tfend] else if b = fesc then [fesc, tfesc] else [b]

/-- `esc(l)` (R93). -/
def escAll : List Byte → List Byte
  | [] => []
  | b :: bs => esc b ++ escAll bs

/-- The wire frame of an address and a body, the body being payload and CRC (R91, R176). -/
def frameOf (addr : Byte) (body : List Byte) : List Byte := [fend, addr] ++ escAll body ++ [fend]

/-! Registers. -/

/-- The width of a register in bits (R108). -/
def regWidth (q : Params) : Reg → Nat
  | .rbCount | .rbIn | .rbOut | .decIdx | .decCrc | .decCap | .encLen => 16
  | .rbOvf => q.ctrWidth
  | .rbInited | .decBound => 1
  | .decState => 3
  | .decStatus | .decAddr | .encStatus => 8
  | .decBuf => q.addrWidth

/-- What a register holds, zero-extended to the response value, the low 32 bits of a wider counter (R104, R108). -/
def regValue (s : State) : Reg → Value
  | .rbCount => s.ring.count.setWidth 32
  | .rbIn => s.ring.inCur.setWidth 32
  | .rbOut => s.ring.outCur.setWidth 32
  | .rbOvf => BitVec.ofNat 32 s.ring.ovf
  | .rbInited => boolValue s.ring.inited
  | .decState => (stateCode s.dec.state).setWidth 32
  | .decStatus => s.dec.status.code.setWidth 32
  | .decAddr => s.dec.addr.setWidth 32
  | .decIdx => s.dec.idx.setWidth 32
  | .decCrc => s.dec.crc.setWidth 32
  | .decBuf => s.dec.buf
  | .decCap => s.dec.cap.setWidth 32
  | .decBound => boolValue s.dec.bound
  | .encStatus => s.enc.status.code.setWidth 32
  | .encLen => s.enc.len.setWidth 32

/-- Has the register a specified value: a reset value of R281, or one written since reset (93 U12, log 4)? What is read
from the ring after a RingOverrun has none until the next RB_INIT (93 U3, log 12). -/
def regWritten (s : State) : Reg → Bool
  | .rbCount | .rbIn | .rbOut => s.ring.inited && !s.ring.overrun
  | .rbOvf => !s.ring.overrun
  | .decState | .decIdx | .decBuf | .decCap | .decCrc => s.dec.armed
  | .decStatus => s.dec.statusSet
  | .decAddr => s.dec.addrSet
  | .rbInited | .decBound | .encStatus | .encLen => true

end Sys2Proof.Machine
end

