-- ==== Sys2Proof/Machine/Crc.lean ====
section
/-! DEFINITION. The CRC engine (41_crc.md). -/

namespace Sys2Proof.Machine

/-- The shift of REF_CRC, repeated (R165). -/
def refCrcShift : Nat → Word16 → Word16
  | 0, c => c
  | n + 1, c => refCrcShift n (if c.msb then (c <<< 1) ^^^ 0x1021#16 else c <<< 1)

/-- REF_CRC (R165): polynomial 0x1021, most significant bit first. -/
def refCrc (b : Byte) (c : Word16) : Word16 := refCrcShift 8 (c ^^^ (b.setWidth 16 <<< 8))

/-- CRC_STEP (R161): the open parameter, or REF_CRC where the instance is given it (log 2). -/
def crcStep (q : Params) (b : Byte) (c : Word16) : Word16 :=
  match q.crc with
  | .peer => Config.crcStep b c
  | .reference => refCrc b c

/-- `CrcFoldFrom(c, l)` (R162). -/
def crcFoldFrom (q : Params) : Word16 → List Byte → Word16
  | c, [] => c
  | c, b :: l => crcFoldFrom q (crcStep q b c) l

/-- `CrcFold(l)` (R162): from zero, CRC_ZERO_START (R164). -/
def crcFold (q : Params) (l : List Byte) : Word16 := crcFoldFrom q 0#16 l

/-- CRC_APPEND (R163). -/
def execCrcAppend (b : Byte) (crc : Word16) (s : State) : Result :=
  accept .c s (.next (s.answer .c .ok ((crcStep s.par b crc).setWidth 32)))

end Sys2Proof.Machine
end

