-- ==== Sys2Proof/Machine/Decoder.lean ====
section
/-! DEFINITION. The frame decoder (43_decode.md): DEC_INIT, the rows of the state machine, DEC_BYTE. -/

namespace Sys2Proof.Machine

/-- DEC_INIT with a null pointer (R192): unbound, NULL_BUFFER; the other registers kept (R251). DESIGN CHOICE, log 27:
DEC.state is kept too, as the pseudocode and R251 have it, so that issued in Terminated it leaves `frame_complete` true,
where R192's Flags line and R42 have it cleared by DEC_INIT. -/
def State.decUnbind (s : State) : State :=
  (s.withDec { s.dec with bound := false, status := .nullBuffer, statusSet := true }).answer .c .nullBuffer 0#32

/-- DEC_INIT with a legal region (R192): bound, Idle, index, CRC and status reset; DEC.addr not written. -/
def State.decBind (s : State) (buf : Ptr) (cap : Word16) : State :=
  s.decOk { s.dec with bound := true, state := .idle, buf := buf, cap := cap, idx := 0#16, crc := 0#16, armed := true }

/-- DEC_INIT (R192). -/
def execDecInit (buf : Ptr) (cap : Word16) (s : State) : Result :=
  accept .c s
    (if buf = 0#32 then .next s.decUnbind
     else if regionLegal s.par.addrWidth buf.toNat cap.toNat = false then .refused .illegalRegion
     else .next (s.decBind buf cap))

/-! What the rows share. -/

/-- The number of payload bytes buffered when the body ends in a CRC: `DEC.idx - 2` (R204). -/
def State.payloadLen (s : State) : Nat := s.dec.idx.toNat - 2

/-- The received CRC: the last two buffered bytes, high byte first (R204). -/
def State.rxCrc (s : State) : Word16 :=
  be16 (s.bmRead (s.dec.buf.toNat + s.payloadLen)) (s.bmRead (s.dec.buf.toNat + s.payloadLen + 1))

/-- The computed CRC: over the address and the payload, from zero (R204). -/
def State.bodyCrc (s : State) : Word16 :=
  crcFold s.par (s.dec.addr :: s.bmReads s.dec.buf.toNat s.payloadLen)

/-- Which of the four rows a FEND in state Receiving selects (R202 to R205, R212). -/
def State.fendCase (s : State) : FendCase :=
  if s.dec.idx = 0#16 then .noBody
  else if s.dec.idx = 1#16 then .oneByte
  else if s.bodyCrc = s.rxCrc then .crcGood
  else .crcBad

/-- `append(x)` (R197): OVERFLOW at the capacity, else the byte is stored and the state is Receiving. -/
def State.decAppend (s : State) (x : Byte) : State :=
  if s.dec.cap.toNat ≤ s.dec.idx.toNat then s.decRaise .overflow
  else
    (s.withBm (Memory.set s.bm (s.dec.buf.toNat + s.dec.idx.toNat) x)).decOk
      { s.dec with idx := s.dec.idx + 1#16, state := .receiving }

/-- Run a row of the wire table: the decoder bound (R195) to a legal region (R64), the row's state and byte the ones
that select it (R99). -/
def onRow (st : DecState) (sel : Bool) (s : State) (k : Result) : Result :=
  accept .c s
    (if s.dec.bound = false then .refused .decoderUnbound
     else if regionLegal s.par.addrWidth s.dec.buf.toNat s.dec.cap.toNat = false then .refused .illegalRegion
     else if s.dec.state = st ∧ sel then k
     else .refused .wireRowNotSelected)

/-- Run a row that reads the buffered body: only bytes of `(DEC.buf, DEC.cap)` are read (R65). -/
def readingBody (s : State) (k : Result) : Result :=
  if s.dec.cap.toNat < s.dec.idx.toNat then .fault .outsideMemory else k

/-- Store a valid address (R200). -/
def storeAddress (b : Byte) (s : State) : Result :=
  onRow .addressExpected true s
    (.next (s.decOk { s.dec with addr := b, addrSet := true, state := .receiving }))

/-! State Idle. -/

/-- W_IDLE_FEND (R198). -/
def execWIdleFend (s : State) : Result :=
  onRow .idle true s (.next (s.decOk { s.dec with state := .addressExpected }))

/-- W_IDLE_OTHER (R199): ignored. -/
def execWIdleOther (b : Byte) (s : State) : Result :=
  onRow .idle (b != fend) s (.next (s.decOk s.dec))

/-! State AddressExpected: the twelve valid addresses (R200), any other byte (R201). -/

/-- W_AE_ADDR_01 (R200). -/
def execWAeAddr01 (s : State) : Result := storeAddress 0x01#8 s

/-- W_AE_ADDR_02 (R200). -/
def execWAeAddr02 (s : State) : Result := storeAddress 0x02#8 s

/-- W_AE_ADDR_03 (R200). -/
def execWAeAddr03 (s : State) : Result := storeAddress 0x03#8 s

/-- W_AE_ADDR_04 (R200). -/
def execWAeAddr04 (s : State) : Result := storeAddress 0x04#8 s

/-- W_AE_ADDR_05 (R200). -/
def execWAeAddr05 (s : State) : Result := storeAddress 0x05#8 s

/-- W_AE_ADDR_06 (R200). -/
def execWAeAddr06 (s : State) : Result := storeAddress 0x06#8 s

/-- W_AE_ADDR_07 (R200). -/
def execWAeAddr07 (s : State) : Result := storeAddress 0x07#8 s

/-- W_AE_ADDR_08 (R200). -/
def execWAeAddr08 (s : State) : Result := storeAddress 0x08#8 s

/-- W_AE_ADDR_09 (R200). -/
def execWAeAddr09 (s : State) : Result := storeAddress 0x09#8 s

/-- W_AE_ADDR_0A (R200). -/
def execWAeAddr0A (s : State) : Result := storeAddress 0x0A#8 s

/-- W_AE_ADDR_0B (R200). -/
def execWAeAddr0B (s : State) : Result := storeAddress 0x0B#8 s

/-- W_AE_ADDR_38 (R200). -/
def execWAeAddr38 (s : State) : Result := storeAddress 0x38#8 s

/-- W_AE_ADDR_BAD (R201): INVALID_ADDRESS; a FEND is a bad address like any other. -/
def execWAeAddrBad (b : Byte) (s : State) : Result :=
  onRow .addressExpected (!validAddr b) s (.next (s.decRaise .invalidAddress))

/-! State Receiving. -/

/-- W_RCV_FEND_RESYNC (R202): no body yet, a new start. -/
def execWRcvFendResync (s : State) : Result :=
  onRow .receiving (s.fendCase == .noBody) s (.next (s.decOk { s.dec with state := .addressExpected }))

/-- W_RCV_FEND_SHORT (R203): one body byte, no CRC to verify; DEC.crc not written. -/
def execWRcvFendShort (s : State) : Result :=
  onRow .receiving (s.fendCase == .oneByte) s (.next (s.decRaise .crcMismatch))

/-- W_RCV_FEND_GOOD (R204): the frame is complete, the CRC dropped from the length. -/
def execWRcvFendGood (s : State) : Result :=
  onRow .receiving (s.fendCase == .crcGood) s
    (readingBody s
      (.next (s.decOk { s.dec with crc := s.bodyCrc, idx := BitVec.ofNat 16 s.payloadLen, state := .terminated })))

/-- W_RCV_FEND_BADCRC (R205): CRC_MISMATCH; DEC.crc holds the computed value. -/
def execWRcvFendBadcrc (s : State) : Result :=
  onRow .receiving (s.fendCase == .crcBad) s
    (readingBody s (.next ((s.withDec { s.dec with crc := s.bodyCrc }).decRaise .crcMismatch)))

/-- W_RCV_FESC (R206). -/
def execWRcvFesc (s : State) : Result :=
  onRow .receiving true s (.next (s.decOk { s.dec with state := .escaping }))

/-- W_RCV_DATA (R207). -/
def execWRcvData (b : Byte) (s : State) : Result :=
  onRow .receiving (b != fend && b != fesc) s (.next (s.decAppend b))

/-! State Escaping. -/

/-- W_ESC_TFEND (R209): append the literal FEND. -/
def execWEscTfend (s : State) : Result := onRow .escaping true s (.next (s.decAppend fend))

/-- W_ESC_TFESC (R210): append the literal FESC. -/
def execWEscTfesc (s : State) : Result := onRow .escaping true s (.next (s.decAppend fesc))

/-- W_ESC_BAD (R211): ESCAPE_SEQUENCE. -/
def execWEscBad (b : Byte) (s : State) : Result :=
  onRow .escaping (b != tfend && b != tfesc) s (.next (s.decRaise .escapeSequence))

/-! State Terminated. -/

/-- W_TERM_ANY (R208): the byte `_b` is ignored, no register changes, the answer is DEC.status. -/
def execWTermAny (_b : Byte) (s : State) : Result :=
  onRow .terminated true s (.next (s.answer .c s.dec.status 0#32))

/-! DEC_BYTE. -/

/-- A byte in state AddressExpected (R99): one of the twelve addresses, or a bad one. -/
def addressRow (b : Byte) (s : State) : Result :=
  match b.toNat with
  | 0x01 => execWAeAddr01 s
  | 0x02 => execWAeAddr02 s
  | 0x03 => execWAeAddr03 s
  | 0x04 => execWAeAddr04 s
  | 0x05 => execWAeAddr05 s
  | 0x06 => execWAeAddr06 s
  | 0x07 => execWAeAddr07 s
  | 0x08 => execWAeAddr08 s
  | 0x09 => execWAeAddr09 s
  | 0x0A => execWAeAddr0A s
  | 0x0B => execWAeAddr0B s
  | 0x38 => execWAeAddr38 s
  | _ => execWAeAddrBad b s

/-- A FEND in state Receiving (R99, R212): one of four rows. -/
def fendRow (s : State) : Result :=
  match s.fendCase with
  | .noBody => execWRcvFendResync s
  | .oneByte => execWRcvFendShort s
  | .crcGood => execWRcvFendGood s
  | .crcBad => execWRcvFendBadcrc s

/-- DEC_BYTE (R195): "performs exactly one row of the table of rule R212, selected by DEC.state and the class of b". -/
def execDecByte (b : Byte) (s : State) : Result :=
  match s.dec.state with
  | .idle => if b = fend then execWIdleFend s else execWIdleOther b s
  | .addressExpected => addressRow b s
  | .receiving => if b = fend then fendRow s else if b = fesc then execWRcvFesc s else execWRcvData b s
  | .escaping => if b = tfend then execWEscTfend s else if b = tfesc then execWEscTfesc s else execWEscBad b s
  | .terminated => execWTermAny b s

end Sys2Proof.Machine
end

