-- ==== Sys2Proof/Machine/Encoder.lean ====
section
/-! DEFINITION. The frame encoder (42_encode.md). -/

namespace Sys2Proof.Machine

/-- The emissions of steps 4 and 5 (R171, `emit`): each byte is written while the count is below the capacity, counted,
and ends the command when the count passes the capacity. Answers the memory and the count of a whole frame, or no count
where the capacity was exceeded. -/
def emitAll : Memory → Nat → Nat → Nat → List Byte → Memory × Option Nat
  | m, _, _, k, [] => (m, some k)
  | m, dst, dcap, k, x :: xs =>
    let m' := if k < dcap then Memory.set m (dst + k) x else m
    if dcap < k + 1 then (m', none) else emitAll m' dst dcap (k + 1) xs

/-- Step 3 (R174): the CRC of the address and the payload, appended to the payload storage high byte first. -/
def State.appendCrc (s : State) (addr : Byte) (pay plen : Nat) : State :=
  let c := crcFold s.par (addr :: s.bmReads pay plen)
  s.withBm (Memory.set (Memory.set s.bm (pay + plen) (hiByte c)) (pay + plen + 1) (loByte c))

/-- Steps 3 to 5 (R171). After an OVERFLOW every byte of the destination region is a free value (R177, 93 U13). -/
def State.encFrame (s : State) (dst dcap : Nat) (addr : Byte) (pay plen : Nat) : State :=
  let s1 := s.appendCrc addr pay plen
  match emitAll s1.bm dst dcap 0 (frameOf addr (s1.bmReads pay (plen + 2))) with
  | (m, some k) =>
    ((s1.withBm m).withEnc { status := .ok, len := BitVec.ofNat 16 k }).answer .c .ok (BitVec.ofNat 32 k)
  | (m, none) => ((s1.withBm (Memory.setFree m dst dcap s1.draws)).drew dcap).encFail .overflow

/-- ENC (R171): steps 1 and 2, the guard of R64 (and of 93 U10), then steps 3 to 5. -/
def execEnc (dst : Ptr) (dcap : Word16) (addr : Byte) (pay : Ptr) (plen : Word16) (s : State) : Result :=
  accept .c s
    (if dst = 0#32 ∨ pay = 0#32 then .next (s.encFail .nullBuffer)
     else if validAddr addr = false then .next (s.encFail .invalidAddress)
     else if regionLegal s.par.addrWidth dst.toNat dcap.toNat = false
         ∨ regionLegal s.par.addrWidth pay.toNat (plen.toNat + 2) = false then .refused .illegalRegion
     else if regionsMeet dst.toNat dcap.toNat pay.toNat (plen.toNat + 2) then .refused .overlappingRegions
     else if s.dec.live ∧ regionsMeet s.dec.buf.toNat s.dec.cap.toNat (pay.toNat + plen.toNat) 2 then
       .refused .tailInLiveBuffer
     else .next (s.encFrame dst.toNat dcap.toNat addr pay.toNat plen.toNat))

end Sys2Proof.Machine
end

