-- ==== Sys2Proof/Machine/RingBuffer.lean ====
section
/-! DEFINITION. The ring buffer commands (40_ring_buffer.md). RB_INSERT, RB_REMOVE, RB_PUSH and RB_INIT are sequences of
micro-steps (R131, R133, R145) which those of the other port may come between (R73): the meaning of the command accepts
it and runs its first micro-step, and `microP` and `microC` run the later ones. Each other command is one micro-step. -/

namespace Sys2Proof.Machine

/-- Cursor advance: `(c + 1) mod N` (R132). -/
def nextCursor (q : Params) (c : Word16) : Word16 := BitVec.ofNat 16 ((c.toNat + 1) % q.ringSize)

/-! The micro-steps of an insert. -/

/-- i1: `RB.mem[RB.in] <- b` (R131). On a full buffer this overwrites the oldest byte, and RingOverrun is recorded
(R140). -/
def insertStore (b : Byte) (s : State) : Result :=
  if s.par.ringSize ≤ s.ring.inCur.toNat then .fault .outsideRing
  else .next (((s.withRing { s.ring with mem := Memory.set s.ring.mem s.ring.inCur.toNat b }).noteOverrun s.full).holdP
    (.i2 b))

/-- i2: `RB.in <- (RB.in + 1) mod N` (R131). -/
def insertAdvance (b : Byte) (s : State) : Result :=
  .next ((s.withRing { s.ring with inCur := nextCursor s.par s.ring.inCur }).holdP (.i3 b))

/-- i3: `RB.count <- RB.count + 1` (R131), and the answer OK (R139). After a RingOverrun the count is a free value
(R140). -/
def insertCount (s : State) : Result :=
  if s.ring.overrun then
    .next (((s.withRing { s.ring with count := freeWord16 s.draws }).drew 1).answer .p .ok 0#32)
  else .next ((s.withRing { s.ring with count := s.ring.count + 1#16 }).answer .p .ok 0#32)

/-- p1 of RB_PUSH on a full buffer: `RB.ovf <- (RB.ovf + 1) mod 2^CTR_W`, and the answer OVERFLOW (R145, R146). -/
def pushDrop (s : State) : Result :=
  .next ((s.withRing { s.ring with ovf := (s.ring.ovf + 1) % 2 ^ s.par.ctrWidth }).answer .p .overflow 0#32)

/-- The next micro-step of the P command in progress. -/
def microP (g : PStage) (s : State) : Result :=
  match g with
  | .i1 b => insertStore b s
  | .i2 b => insertAdvance b s
  | .i3 _ => insertCount s
  | .p1 _ => pushDrop s

/-! The micro-steps of a remove and of RB_INIT. -/

/-- r1: `v <- RB.mem[RB.out]` (R131), a fault on an empty buffer (R143). After a RingOverrun whether the buffer is empty
is unspecified, and so is the byte (R140). -/
def removeLoad (s : State) : Result :=
  if s.ring.overrun then .next ((s.drew 1).holdC (.r2 (freeByte s.draws)))
  else if s.empty then .fault .ringUnderrun
  else if s.par.ringSize ≤ s.ring.outCur.toNat then .fault .outsideRing
  else .next (s.holdC (.r2 (s.ring.cell s.ring.outCur.toNat)))

/-- r2: `RB.out <- (RB.out + 1) mod N` (R131). After a RingOverrun the remove may be one from an empty buffer, whose
cursors are unspecified (93 U4): a free cursor. -/
def removeAdvance (v : Byte) (s : State) : Result :=
  if s.ring.overrun then
    .next (((s.withRing { s.ring with outCur := freeCursor s.par s.draws }).drew 1).holdC (.r3 v))
  else .next ((s.withRing { s.ring with outCur := nextCursor s.par s.ring.outCur }).holdC (.r3 v))

/-- r3: `RB.count <- RB.count - 1` (R131), and the answer carrying the byte (R142). After a RingOverrun both are free
values (R140). -/
def removeCount (v : Byte) (s : State) : Result :=
  if s.ring.overrun then
    .next (((s.withRing { s.ring with count := freeWord16 s.draws }).drew 1).answerRing .c 8 (v.setWidth 32))
  else if s.empty then .fault .ringUnderrun
  else .next ((s.withRing { s.ring with count := s.ring.count - 1#16 }).answer .c .ok (v.setWidth 32))

/-- RB_INIT's first write: `RB.in <- 0` (R133). -/
def initIn (s : State) : Result := .next ((s.withRing { s.ring with inCur := 0#16 }).holdC .n2)

/-- RB_INIT's second write: `RB.out <- 0` (R133). -/
def initOut (s : State) : Result := .next ((s.withRing { s.ring with outCur := 0#16 }).holdC .n3)

/-- RB_INIT's third write: `RB.count <- 0` (R133). -/
def initCount (s : State) : Result := .next ((s.withRing { s.ring with count := 0#16 }).holdC .n4)

/-- RB_INIT's last write: `RB.inited <- 1`, and the answer OK (R133). From here on the ring's results are specified
again (R140, "until the next `RB_INIT`"). -/
def initDone (s : State) : Result :=
  .next ((s.withRing { s.ring with inited := true, overrun := false }).answer .c .ok 0#32)

/-- The next micro-step of the C command in progress. -/
def microC (g : CStage) (s : State) : Result :=
  match g with
  | .r2 v => removeAdvance v s
  | .r3 v => removeCount v s
  | .n2 => initOut s
  | .n3 => initCount s
  | .n4 => initDone s

/-! The commands. -/

/-- RB_INIT (R133), not while a P command is in progress (R149). -/
def execRbInit (s : State) : Result :=
  accept .c s (if s.pBusy.isSome then .refused .initOverlap else initIn s)

/-- RB_COUNT (R134). -/
def execRbCount (port : Port) (s : State) : Result :=
  acceptRing port s (.next (s.answerRing port 16 (s.ring.count.setWidth 32)))

/-- RB_FULL (R135). -/
def execRbFull (port : Port) (s : State) : Result :=
  acceptRing port s (.next (s.answerRing port 1 (boolValue s.full)))

/-- RB_EMPTY (R136). -/
def execRbEmpty (port : Port) (s : State) : Result :=
  acceptRing port s (.next (s.answerRing port 1 (boolValue s.empty)))

/-- RB_INSERT (R139; R140 on a full buffer): accepted, and i1. -/
def execRbInsert (b : Byte) (s : State) : Result := acceptRing .p s (insertStore b s)

/-- RB_REMOVE (R142, R143): accepted, and r1. -/
def execRbRemove (s : State) : Result := acceptRing .c s (removeLoad s)

/-- RB_PUSH (R145): accepted, and p0, which reads the count and chooses what follows. After a RingOverrun the count is
unspecified, and the choice free (R140). -/
def execRbPush (b : Byte) (s : State) : Result :=
  acceptRing .p s
    (if s.ring.overrun then .next ((s.drew 1).holdP (if freeBit s.draws then .p1 b else .i1 b))
     else .next (s.holdP (if s.full then .p1 b else .i1 b)))

end Sys2Proof.Machine
end

