-- ==== Sys2Proof/Machine/System.lean ====
section
/-! DEFINITION. RD (44_system.md R230) and the packets that are no command (30_encoding.md R107). -/

namespace Sys2Proof.Machine

/-- RD (R230): the register, zero-extended; ILLEGAL_CMD for an unassigned number; a draw of the register's width for a
register without a specified value (93 U12). -/
def execRd (reg : Byte) (s : State) : Result :=
  accept .c s
    (match regOf reg with
     | none => .next (s.answer .c .illegalCmd 0#32)
     | some r =>
       if regWritten s r then .next (s.answer .c .ok (regValue s r))
       else .next ((s.drew 1).answer .c .ok (freeValue s.draws (regWidth s.par r))))

/-- An unassigned opcode, a wrong port, a wrong length (R107): ILLEGAL_CMD, no state changes, whatever the packet
`_pkt` holds. -/
def execUnassigned (port : Port) (_pkt : Packet) (s : State) : Result :=
  accept port s (.next (s.answer port .illegalCmd 0#32))

end Sys2Proof.Machine
end

