-- ==== Sys2Proof/Machine/Dispatch.lean ====
section
/-! DEFINITION. The dispatch: one arm for each instruction, one direct call of its meaning. -/

namespace Sys2Proof.Machine

def exec (i : Instr) (s : State) : Host.Outcome State Fault Refusal :=
  match i with
  | .rbInit => Sys2Proof.Machine.execRbInit s
  | .rbCount port => Sys2Proof.Machine.execRbCount port s
  | .rbFull port => Sys2Proof.Machine.execRbFull port s
  | .rbEmpty port => Sys2Proof.Machine.execRbEmpty port s
  | .rbInsert b => Sys2Proof.Machine.execRbInsert b s
  | .rbRemove => Sys2Proof.Machine.execRbRemove s
  | .rbPush b => Sys2Proof.Machine.execRbPush b s
  | .crcAppend b crc => Sys2Proof.Machine.execCrcAppend b crc s
  | .enc dst dcap addr pay plen => Sys2Proof.Machine.execEnc dst dcap addr pay plen s
  | .decInit buf cap => Sys2Proof.Machine.execDecInit buf cap s
  | .decByte b => Sys2Proof.Machine.execDecByte b s
  | .rd reg => Sys2Proof.Machine.execRd reg s
  | .unassigned port packet => Sys2Proof.Machine.execUnassigned port packet s
  | .wIdleFend => Sys2Proof.Machine.execWIdleFend s
  | .wIdleOther b => Sys2Proof.Machine.execWIdleOther b s
  | .wAeAddr01 => Sys2Proof.Machine.execWAeAddr01 s
  | .wAeAddr02 => Sys2Proof.Machine.execWAeAddr02 s
  | .wAeAddr03 => Sys2Proof.Machine.execWAeAddr03 s
  | .wAeAddr04 => Sys2Proof.Machine.execWAeAddr04 s
  | .wAeAddr05 => Sys2Proof.Machine.execWAeAddr05 s
  | .wAeAddr06 => Sys2Proof.Machine.execWAeAddr06 s
  | .wAeAddr07 => Sys2Proof.Machine.execWAeAddr07 s
  | .wAeAddr08 => Sys2Proof.Machine.execWAeAddr08 s
  | .wAeAddr09 => Sys2Proof.Machine.execWAeAddr09 s
  | .wAeAddr0A => Sys2Proof.Machine.execWAeAddr0A s
  | .wAeAddr0B => Sys2Proof.Machine.execWAeAddr0B s
  | .wAeAddr38 => Sys2Proof.Machine.execWAeAddr38 s
  | .wAeAddrBad b => Sys2Proof.Machine.execWAeAddrBad b s
  | .wRcvFendResync => Sys2Proof.Machine.execWRcvFendResync s
  | .wRcvFendShort => Sys2Proof.Machine.execWRcvFendShort s
  | .wRcvFendGood => Sys2Proof.Machine.execWRcvFendGood s
  | .wRcvFendBadcrc => Sys2Proof.Machine.execWRcvFendBadcrc s
  | .wRcvFesc => Sys2Proof.Machine.execWRcvFesc s
  | .wRcvData b => Sys2Proof.Machine.execWRcvData b s
  | .wEscTfend => Sys2Proof.Machine.execWEscTfend s
  | .wEscTfesc => Sys2Proof.Machine.execWEscTfesc s
  | .wEscBad b => Sys2Proof.Machine.execWEscBad b s
  | .wTermAny b => Sys2Proof.Machine.execWTermAny b s

end Sys2Proof.Machine
end

