-- ==== Sys2Proof/Machine/Schedule.lean ====
section
/-! DEFINITION. What the machine does next: the order of the moves (20_memory.md R73), the next packet of a port (R100),
a host write (R78, R79), a hardware reset (R280). -/

namespace Sys2Proof.Machine

/-- Has a port a move to make: a command in progress, or something still to issue (R233)? -/
def State.hasWork (s : State) (port : Port) : Bool :=
  match port with
  | .p => s.pBusy.isSome || !s.pQueue.isEmpty
  | .c => s.cBusy.isSome || !s.cQueue.isEmpty

/-- Has the run ended (R233): nothing left to issue on either port, and every command answered? -/
def State.runEnded (s : State) : Bool := !s.hasWork .p && !s.hasWork .c

/-- Is this a good end state (R233)? The run has ended, and no fault was recorded in it. (A run that meets a refusal, or
RingUnderrun, has no end state at all.) -/
def State.goodEnd (s : State) : Bool := s.runEnded && !s.runFaulted

/-- Do both ports have a move to make, and the schedule names none: the choice is free (R73)? -/
def State.choiceIsFree (s : State) : Bool := s.sched.isEmpty && s.hasWork .p && s.hasWork .c

/-- The port that moves: the one the schedule names if it has work, else the other; the free choice where both have work
and nothing is named (R73, log 11). None when the run has ended (R233). -/
def State.mover (s : State) : Option Port :=
  match s.hasWork .p, s.hasWork .c with
  | false, false => none
  | true, false => some .p
  | false, true => some .c
  | true, true =>
    match s.sched with
    | .port port :: _ => some port
    | _ => some (if Config.freePick s.draws then .p else .c)

/-- The state once the move has been chosen: the schedule's entry used, a free choice counted. -/
def State.moved (s : State) : State :=
  { s with sched := s.sched.tail, draws := if s.choiceIsFree then s.draws + 1 else s.draws }

/-- The host writes a byte of BM between two C commands (R78): not outside BM, and not in the region bound to the
decoder while it is in use (R79, 93 U7). -/
def hostWrite (a : Nat) (b : Byte) (s : State) : Result :=
  if 2 ^ s.par.addrWidth ≤ a then .fault .outsideMemory
  else if s.dec.live ∧ regionsMeet s.dec.buf.toNat s.dec.cap.toNat a 1 then .refused .hostWriteInBoundRegion
  else .next (s.withBm (Memory.set s.bm a b))

/-- What a step does: something already settled, or the command of a packet to be run. -/
inductive Action where
  | settled (r : Result)
  | run (i : Instr) (s : State)

/-- A port's move: the next micro-step of its command in progress, else its next packet or host write. -/
def portAction (port : Port) (s : State) : Action :=
  match port with
  | .p =>
    match s.pBusy, s.pQueue with
    | some g, _ => .settled (microP g s)
    | none, pkt :: rest => .run (decode .p pkt) { s with pQueue := rest }
    | none, [] => .settled (.next s)
  | .c =>
    match s.cBusy, s.cQueue with
    | some g, _ => .settled (microC g s)
    | none, .command pkt :: rest => .run (decode .c pkt) { s with cQueue := rest }
    | none, .write a b :: rest => .settled (hostWrite a b { s with cQueue := rest })
    | none, [] => .settled (.next s)

/-- The machine's next move: a hardware reset where the schedule has one, else the moving port's; nothing when the run
has ended (R233). -/
def nextAction (s : State) : Action :=
  match s.sched with
  | .reset :: rest => .settled (.next (State.hardReset { s with sched := rest }))
  | _ =>
    match s.mover with
    | none => .settled (.next s.moved)
    | some port => portAction port s.moved

/-- A packet issued next on a port, the port idle, the next move that port's. -/
def State.issue (s : State) (port : Port) (pkt : Packet) : State :=
  match port with
  | .p => { s with pBusy := none, pQueue := pkt :: s.pQueue, sched := .port .p :: s.sched }
  | .c => { s with cBusy := none, cQueue := .command pkt :: s.cQueue, sched := .port .c :: s.sched }

/-- The decoder ready to read a symbol in a state: bound, to the byte at address 1 where it had no buffer. -/
def Decoder.readyIn (d : Decoder) (st : DecState) : Decoder :=
  { d with bound := true, state := st, buf := if d.buf = 0#32 then 1#32 else d.buf }

/-- A table word (log 16) placed so that the next step runs it: a command's packet issued on its port; a wire symbol
issued as DEC_BYTE, the decoder in the symbol's state. -/
def State.place (s : State) (w : TableWord) : State :=
  match w with
  | .command port pkt => s.issue port pkt
  | .wire st b => (s.withDec (s.dec.readyIn st)).issue .c [0x31#8, b]

end Sys2Proof.Machine
end

