-- ==== Sys2Proof/Machine/Step.lean ====
section
/-! DEFINITION. One step of the machine, and how the host places an instruction where the next step runs it. -/

namespace Sys2Proof.Machine

/-- One step: one move of the execution order (20_memory.md R73). -/
def step (s : State) : Host.Outcome State Fault Refusal :=
  match nextAction s with
  | .settled r => r
  | .run i t => exec i t

/-- The state in which the next step runs the instruction of a table word (log 16). -/
def State.withFetchWord (s : State) (nbits w : Nat) : State := s.place (tableWord nbits w)

end Sys2Proof.Machine
end

