-- ==== Sys2Proof/Safety.lean ====
section
/-! DEFINITION. The terms that claims use: the invariants of the spec (10_state.md R29, R38), the ring's logical content
(R29), a command driven to its answer, bytes fed to the decoder, the named assumption CRC_SINGLE_BIT (41_crc.md R164). -/

namespace Sys2Proof.Machine

/-! Memories. -/

/-- BM and the ring storage are canonical and list only addresses that exist (20_memory.md R60, R61). -/
abbrev State.MemoriesCanonical (s : State) : Prop :=
  (Memory.wf s.bm = true ∧ Memory.below (2 ^ s.par.addrWidth) s.bm = true)
    ∧ (Memory.wf s.ring.mem = true ∧ Memory.below s.par.ringSize s.ring.mem = true)

/-! The ring (R29, R44). -/

/-- Is an insert (or a push that found room) between its acceptance and i3? -/
def State.inserting (s : State) : Bool :=
  match s.pBusy with
  | some (.i1 _) | some (.i2 _) | some (.i3 _) => true
  | _ => false

/-- Is a remove between r1 and r3? -/
def State.removing (s : State) : Bool :=
  match s.cBusy with
  | some (.r2 _) | some (.r3 _) => true
  | _ => false

/-- 1 while RB.in has moved and RB.count not yet (between i2 and i3). -/
def State.inAhead (s : State) : Nat :=
  match s.pBusy with
  | some (.i3 _) => 1
  | _ => 0

/-- 1 while RB.out has moved and RB.count not yet (between r2 and r3). -/
def State.outAhead (s : State) : Nat :=
  match s.cBusy with
  | some (.r3 _) => 1
  | _ => 0

/-- The cursors keep to their legal values (R24, R25). -/
abbrev State.CursorsInRange (s : State) : Prop :=
  s.ring.inCur.toNat < s.par.ringSize ∧ s.ring.outCur.toNat < s.par.ringSize

/-- R29's equation `RB.in = (RB.out + RB.count) mod N`, extended to the windows of R44. -/
abbrev State.RingBalanced (s : State) : Prop :=
  (s.ring.inCur.toNat + s.outAhead) % s.par.ringSize
    = (s.ring.outCur.toNat + s.ring.count.toNat + s.inAhead) % s.par.ringSize

/-- The cell before a cursor. -/
def State.cellBefore (s : State) (c : Word16) : Byte :=
  s.ring.cell ((c.toNat + s.par.ringSize - 1) % s.par.ringSize)

/-- The byte latched by a command in progress is the byte of its cell (R44, R131). -/
def State.latchesAgree (s : State) : Bool :=
  (match s.pBusy with
   | some (.i2 b) => s.ring.cell s.ring.inCur.toNat == b
   | some (.i3 b) => s.cellBefore s.ring.inCur == b
   | _ => true)
  && (match s.cBusy with
      | some (.r2 v) => s.ring.cell s.ring.outCur.toNat == v
      | some (.r3 v) => s.cellBefore s.ring.outCur == v
      | _ => true)

/-- What RB_INIT has written so far (R133). -/
def State.initAgrees (s : State) : Bool :=
  match s.cBusy with
  | some .n2 => s.ring.inCur == 0#16
  | some .n3 => s.ring.inCur == 0#16 && s.ring.outCur == 0#16
  | some .n4 => s.ring.inCur == 0#16 && s.ring.outCur == 0#16 && s.ring.count == 0#16
  | _ => true

/-- What R29 and R44 say of the ring while no insert has found it full: the count in range, the cursor equation, room
for the insert and a byte for the remove in progress, the latches. -/
abbrev State.RingSound (s : State) : Prop :=
  s.ring.count.toNat ≤ s.par.ringSize
    ∧ (s.ring.inited = true → s.initRunning = false → s.RingBalanced)
    ∧ (s.inserting = true → s.ring.count.toNat < s.par.ringSize)
    ∧ (s.removing = true → 0 < s.ring.count.toNat)
    ∧ s.latchesAgree = true

/-- The ring invariant (R29), with what holds while commands are in progress (R44): always of the cursors and of who runs
what; the rest unless a violated precondition is recorded (R29, R140), as it then is for the run too (R233). -/
abbrev State.RingInvariant (s : State) : Prop :=
  s.par.Legal ∧ s.CursorsInRange
    ∧ (s.pBusy.isSome = true → s.ring.inited = true ∧ s.initRunning = false)
    ∧ (s.removing = true → s.ring.inited = true)
    ∧ s.initAgrees = true
    ∧ (s.ring.overrun = false → s.RingSound)
    ∧ (s.ring.overrun = true → s.runFaulted = true)

/-- The index of the oldest unread byte. -/
def State.front (s : State) : Nat :=
  (s.ring.outCur.toNat + s.par.ringSize - s.outAhead) % s.par.ringSize

/-- The logical content of the ring, oldest first (R29): `RB.count` cells from the oldest on. -/
def State.content (s : State) : List Byte :=
  (List.range s.ring.count.toNat).map (fun k => s.ring.cell ((s.front + k) % s.par.ringSize))

/-- RB.ovf fits its CTR_W bits (R27). -/
abbrev State.CounterFits (s : State) : Prop := s.ring.ovf < 2 ^ s.par.ctrWidth

/-! The decoder and the encoder (R38 to R40). -/

/-- The decoder bound, its region legal, port C idle: what DEC_BYTE needs (43_decode.md R195, R64, R100). -/
abbrev State.DecReady (s : State) : Prop :=
  s.cBusy = none ∧ s.dec.bound = true ∧ regionLegal s.par.addrWidth s.dec.buf.toNat s.dec.cap.toNat = true

/-- The decoder invariant (R38, R35, R37), of the registers. -/
abbrev State.DecoderInvariant (s : State) : Prop :=
  (s.dec.addrSet = true → validAddr s.dec.addr = true) ∧ s.dec.status ≠ .illegalCmd
    ∧ (s.dec.bound = true →
        (regionLegal s.par.addrWidth s.dec.buf.toNat s.dec.cap.toNat = true ∧ s.dec.idx.toNat ≤ s.dec.cap.toNat)
        ∧ (s.dec.armed = true ∧ s.dec.statusSet = true ∧ s.dec.status ≠ .nullBuffer)
        ∧ (s.dec.state = .idle ∨ s.dec.state = .addressExpected → s.dec.idx = 0#16)
        ∧ (s.dec.state = .receiving ∨ s.dec.state = .escaping ∨ s.dec.state = .terminated → s.dec.addrSet = true)
        ∧ (s.dec.state = .terminated → s.dec.status = .ok ∧ s.dec.idx.toNat + 2 ≤ s.dec.cap.toNat))

/-- The encoder's result registers (R39, R40): a legal status, and a length only on success. -/
abbrev State.EncoderInvariant (s : State) : Prop :=
  (s.enc.status = .ok ∨ s.enc.status = .nullBuffer ∨ s.enc.status = .overflow ∨ s.enc.status = .invalidAddress)
    ∧ (s.enc.status ≠ .ok → s.enc.len = 0#16)

/-! Commands driven to their answers. -/

/-- Go on with a next state; a fault or a refusal stops. -/
def thenDo (r : Result) (f : State → Result) : Result :=
  match r with
  | .next s => f s
  | .fault x => .fault x
  | .refused x => .refused x

/-- Up to `n` further micro-steps of the P command in progress, none of port C's between them. -/
def driveP : Nat → State → Result
  | 0, s => .next s
  | n + 1, s =>
    match s.pBusy with
    | none => .next s
    | some g => thenDo (microP g s) (driveP n)

/-- Up to `n` further micro-steps of the C command in progress, none of port P's between them. -/
def driveC : Nat → State → Result
  | 0, s => .next s
  | n + 1, s =>
    match s.cBusy with
    | none => .next s
    | some g => thenDo (microC g s) (driveC n)

/-- RB_INSERT for each byte, each driven to its answer. -/
def insertAll : List Byte → State → Result
  | [], s => .next s
  | b :: bs, s => thenDo (thenDo (exec (.rbInsert b) s) (driveP 2)) (insertAll bs)

/-- `n` times RB_REMOVE, each driven to its answer. -/
def removeAll : Nat → State → Result
  | 0, s => .next s
  | n + 1, s => thenDo (thenDo (exec .rbRemove s) (driveC 2)) (removeAll n)

/-- DEC_BYTE for each byte in turn. -/
def feedBytes : List Byte → State → Result
  | [], s => .next s
  | b :: bs, s => thenDo (exec (.decByte b) s) (feedBytes bs)

/-- CRC_APPEND for each byte in turn, each answer the next accumulator (41_crc.md R163). -/
def appendEach : List Byte → Word16 → State → Result
  | [], _, s => .next s
  | b :: bs, c, s =>
    thenDo (exec (.crcAppend b c) s) (fun t =>
      match t.cAnswers with
      | r :: _ => appendEach bs (r.value.setWidth 16) t
      | [] => .next t)

/-! Frames and bodies. -/

/-- The body that the encoder sends for an address and a payload: the payload and its CRC, high byte first (30 R91,
R96). -/
def bodyOf (q : Params) (addr : Byte) (payload : List Byte) : List Byte :=
  payload ++ bytes16 (crcFold q (addr :: payload))

/-- Two byte lists of one length that differ in exactly one bit. -/
def OneBitApart (m m' : List Byte) : Prop :=
  ∃ pre x post k, k < 8 ∧ m = pre ++ x :: post ∧ m' = pre ++ (x ^^^ (1#8 <<< k)) :: post

/-- CRC_SINGLE_BIT (R9, R164), a named assumption on CRC_STEP. -/
def CrcSingleBit (q : Params) : Prop := ∀ m m' : List Byte, OneBitApart m m' → crcFold q m ≠ crcFold q m'

end Sys2Proof.Machine
end

