-- ==== Sys2Proof/WellFormed.lean ====
section
/-! DEFINITION. Which terms of Instr are instructions: the ones that some input of the block is. -/

namespace Sys2Proof

/-- A row that stands for a class of inputs holds a member of its class: the catch-all command row a packet that is no
command (R107), a wire row of a class its byte (R99). Every other field may hold any value (R101: no operand has a
reserved value; an unassigned register number of RD is a legal packet, answered ILLEGAL_CMD, R230). -/
def Instr.WellFormed : Instr → Bool
  | .unassigned port pkt => (illegalWhy port pkt).isSome
  | .wIdleOther b => b != fend
  | .wAeAddrBad b => !validAddr b
  | .wRcvData b => b != fend && b != fesc
  | .wEscBad b => b != tfend && b != tfesc
  | _ => true

end Sys2Proof
end

