-- ==== Sys2Proof/Certificates/Slice0/Obligations.lean ====
section
/-! DEFINITION. The statements about the model, each a proposition named for what it says. They are proved elsewhere. -/

open Sys2Proof Sys2Proof.Machine

/-! ## Encodings -/

/-- Every well-formed command, every operand at every value, is what its own packet decodes to on its port (formats and
opcodes of R101 to R103, catch-all R107). -/
def Obligations.CommandsDecodeFromTheirPackets : Prop :=
  ∀ i : Instr, i.WellFormed = true → i.isWire = false → decode i.port (encode i) = i

/-- Every packet on every port has exactly one reading: what it decodes to is a well-formed command of that port and
encodes to the same packet, so no bit is dropped (R100, R109; the catch-all makes decoding total, R107). -/
def Obligations.PacketsEncodeBack : Prop :=
  ∀ (port : Port) (pkt : Packet),
    encode (decode port pkt) = pkt ∧ (decode port pkt).port = port
      ∧ (decode port pkt).WellFormed = true ∧ (decode port pkt).isWire = false

/-- The wire table is total and unambiguous (R99, R212): a byte in a state, under a FEND condition, selects a
well-formed row of that state whose byte it is and whose condition it is; and every well-formed row is selected by its
byte in its state under its condition. -/
def Obligations.WireTableIsExact : Prop :=
  (∀ (st : DecState) (fc : FendCase) (b : Byte),
      (decodeWire st fc b).WellFormed = true ∧ (decodeWire st fc b).wireState = some st
        ∧ encode (decodeWire st fc b) = [b]
        ∧ ((decodeWire st fc b).fendCase = none ∨ (decodeWire st fc b).fendCase = some fc))
  ∧ (∀ (i : Instr) (st : DecState) (fc : FendCase),
      i.WellFormed = true → i.wireState = some st → (i.fendCase = none ∨ i.fendCase = some fc) →
      ∃ b, encode i = [b] ∧ decodeWire st fc b = i)

/-- Packets and wire symbols written out from the spec's tables (R102, R103, R92, R95) decode to the instructions they
stand for. -/
def Obligations.SpecWordsDecode : Prop :=
  decode .c [0x01#8] = .rbInit
  ∧ decode .p [0x05#8, 0x5A#8] = .rbInsert 0x5A#8
  ∧ decode .c [0x10#8, 0x68#8, 0x20#8, 0x42#8] = .crcAppend 0x68#8 0x2042#16
  ∧ decode .c [0x20#8, 0x00#8, 0x00#8, 0x02#8, 0x00#8, 0x00#8, 0x20#8, 0x01#8, 0x00#8, 0x00#8, 0x01#8, 0x00#8,
      0x00#8, 0x02#8] = .enc 0x200#32 32#16 0x01#8 0x100#32 2#16
  ∧ decode .c [0x30#8, 0x00#8, 0x00#8, 0x03#8, 0x00#8, 0x00#8, 0x20#8] = .decInit 0x300#32 32#16
  ∧ decode .c [0x40#8, 0x13#8] = .rd 0x13#8
  ∧ decode .c [0x05#8, 0x11#8] = .unassigned .c [0x05#8, 0x11#8]
  ∧ decodeWire .receiving .crcGood 0xC0#8 = .wRcvFendGood
  ∧ decodeWire .addressExpected .noBody 0x38#8 = .wAeAddr38
  ∧ decodeWire .escaping .noBody 0xDC#8 = .wEscTfend

/-- Exactly the packets R107 names are the catch-all: a packet is read as a command precisely when its opcode is
assigned, the port accepts it and its length is its format's. The opcodes, lengths and ports of the premise are R102's
and R103's. (That a packet of no bytes is one of them is the model's choice, log 17.) -/
def Obligations.IllegalPacketsAreTheCatchAll : Prop :=
  ∀ (port : Port) (pkt : Packet),
    (decode port pkt ≠ .unassigned port pkt) ↔
      ∃ op args, pkt = op :: args ∧
        ((port = .c ∧ (op, args.length) ∈ [(0x01#8, 0), (0x06#8, 0), (0x10#8, 3), (0x20#8, 13), (0x30#8, 6), (0x31#8, 1),
            (0x40#8, 1)])
         ∨ (port = .p ∧ (op, args.length) ∈ [(0x05#8, 1), (0x07#8, 1)])
         ∨ (op, args.length) ∈ [(0x02#8, 0), (0x03#8, 0), (0x04#8, 0)])

/-! ## The interface and reset -/

/-- A packet that is no command is answered ILLEGAL_CMD, value 0, on its port, and changes no state at all (R107). -/
def Obligations.UnassignedChangesNothing : Prop :=
  (∀ (s : State) (pkt : Packet), s.pBusy = none →
    exec (.unassigned .p pkt) s = .next { s with pAnswers := ⟨.illegalCmd, 0#32⟩ :: s.pAnswers })
  ∧ (∀ (s : State) (pkt : Packet), s.cBusy = none →
    exec (.unassigned .c pkt) s = .next { s with cAnswers := ⟨.illegalCmd, 0#32⟩ :: s.cAnswers })

/-- The values that the spec gives for hardware reset (R281): RB.ovf, RB.inited, DEC.bound, ENC.status, ENC.len, no
command in progress. -/
def Obligations.ResetValues : Prop :=
  State.reset.ring.ovf = 0 ∧ State.reset.ring.inited = false ∧ State.reset.dec.bound = false
    ∧ State.reset.enc.status = .ok ∧ State.reset.enc.len = 0#16
    ∧ State.reset.pBusy = none ∧ State.reset.cBusy = none

/-- Hardware reset at any point of a run (the spec's event, R280; its values, R281): the same values, no fault recorded in
the run that begins (R233), and every byte of BM, the parameters, what the host has still to issue and the answers given stay. (That what the host has issued stays
is the model's choice, log 19.) -/
def Obligations.HardwareResetAnytime : Prop :=
  ∀ (s : State) (rest : List Turn), s.sched = .reset :: rest →
    ∃ t, step s = .next t
      ∧ t.ring.ovf = 0 ∧ t.ring.inited = false ∧ t.dec.bound = false ∧ t.enc = ⟨.ok, 0#16⟩
      ∧ t.pBusy = none ∧ t.cBusy = none ∧ t.sched = rest ∧ t.ring.overrun = false ∧ t.runFaulted = false
      ∧ (∀ a, t.bmRead a = s.bmRead a) ∧ t.par = s.par
      ∧ t.pQueue = s.pQueue ∧ t.cQueue = s.cQueue ∧ t.pAnswers = s.pAnswers ∧ t.cAnswers = s.cAnswers

/-- RD of each assigned register number answers OK with that register, zero-extended to 32 bits, where the register has a
specified value; RD of any other number is answered ILLEGAL_CMD, value 0; neither has a side effect (R107, R108, R230,
R104). Each entry: the number, when its register has a specified value, the value. Always: RB.inited, DEC.bound,
ENC.status, ENC.len. RB.ovf unless a RingOverrun is recorded; the cursors and the count once RB_INIT has run and none is
(93 U3, log 12). The decoder's registers once written, which the model's fields armed, statusSet and addrSet record (log
4); that DEC.crc counts as written from DEC_INIT on is the model's reading of R36 and R192 against 93 U12 (log 5). -/
def Obligations.RdAnswersByNumber : Prop :=
  (∀ s : State, s.cBusy = none →
    ∀ q ∈ [(0x00#8, s.ring.inited && !s.ring.overrun, s.ring.count.setWidth 32),
        (0x01#8, s.ring.inited && !s.ring.overrun, s.ring.inCur.setWidth 32),
        (0x02#8, s.ring.inited && !s.ring.overrun, s.ring.outCur.setWidth 32),
        (0x03#8, !s.ring.overrun, BitVec.ofNat 32 s.ring.ovf),
        (0x04#8, true, if s.ring.inited then 1#32 else 0#32),
        (0x10#8, s.dec.armed, (stateCode s.dec.state).setWidth 32),
        (0x11#8, s.dec.statusSet, s.dec.status.code.setWidth 32),
        (0x12#8, s.dec.addrSet, s.dec.addr.setWidth 32),
        (0x13#8, s.dec.armed, s.dec.idx.setWidth 32),
        (0x14#8, s.dec.armed, s.dec.crc.setWidth 32),
        (0x15#8, s.dec.armed, s.dec.buf),
        (0x16#8, s.dec.armed, s.dec.cap.setWidth 32),
        (0x17#8, true, if s.dec.bound then 1#32 else 0#32),
        (0x20#8, true, s.enc.status.code.setWidth 32),
        (0x21#8, true, s.enc.len.setWidth 32)],
      q.2.1 = true → exec (.rd q.1) s = .next { s with cAnswers := ⟨.ok, q.2.2⟩ :: s.cAnswers })
  ∧ (∀ (s : State) (n : Byte), s.cBusy = none →
    n ∉ [0x00#8, 0x01#8, 0x02#8, 0x03#8, 0x04#8, 0x10#8, 0x11#8, 0x12#8, 0x13#8, 0x14#8, 0x15#8, 0x16#8, 0x17#8, 0x20#8,
      0x21#8] →
    exec (.rd n) s = .next { s with cAnswers := ⟨.illegalCmd, 0#32⟩ :: s.cAnswers })

/-- RD of a register that has no specified value (93 U12; after a RingOverrun, 93 U3) is legal, answers OK with some value
of the register's width, and changes no register. The value is a free one (logs 4 and 12): the statement holds whatever it is, and the count of
draws taken is the model's own field. -/
def Obligations.RdUnwrittenIsADraw : Prop :=
  ∀ (s : State) (n : Byte) (r : Reg), s.cBusy = none → regOf n = some r → regWritten s r = false →
    ∃ v : Value, v.toNat < 2 ^ regWidth s.par r
      ∧ exec (.rd n) s = .next { s with draws := s.draws + 1, cAnswers := ⟨.ok, v⟩ :: s.cAnswers }

/-! ## The ring buffer -/

/-- RB_INIT, the one-byte packet 0x01 on port C, driven to its answer: cursors and count 0, inited 1, RB.mem and RB.ovf
kept, answered OK, nothing else changed; afterwards the ring is empty and, N being 1 or more, not full (R133). This from
any state in which no command is in progress, one with a RingOverrun recorded too: RB_INIT ends it (R140; the field
overrun is the model's record of that fault, log 12). -/
def Obligations.InitResetsTheRing : Prop :=
  decode .c [0x01#8] = .rbInit ∧
  ∀ s : State, s.cBusy = none → s.pBusy = none →
    ∃ t u, exec .rbInit s = .next t ∧ driveC 3 t = .next u
      ∧ u = { s with
          ring := { s.ring with inCur := 0#16, outCur := 0#16, count := 0#16, inited := true, overrun := false }
          cAnswers := ⟨.ok, 0#32⟩ :: s.cAnswers }
      ∧ u.empty = true ∧ (1 ≤ s.par.ringSize → u.full = false)

/-- RB_COUNT, RB_FULL and RB_EMPTY, the one-byte packets 0x02, 0x03 and 0x04 on either port, answer the count, whether it
is N or more, whether it is 0; OK always, and nothing else changes (R134 to R136). This once RB_INIT has run (R28), on P
while none is in progress (R149), and while no RingOverrun is recorded (R140). -/
def Obligations.CountQueriesAnswer : Prop :=
  (∀ port, decode port [0x02#8] = .rbCount port ∧ decode port [0x03#8] = .rbFull port
    ∧ decode port [0x04#8] = .rbEmpty port) ∧
  ∀ s : State, s.ring.inited = true → s.ring.overrun = false →
    (s.pBusy = none → s.initRunning = false →
      exec (.rbCount .p) s = .next { s with pAnswers := ⟨.ok, s.ring.count.setWidth 32⟩ :: s.pAnswers }
      ∧ exec (.rbFull .p) s = .next { s with
          pAnswers := ⟨.ok, if s.par.ringSize ≤ s.ring.count.toNat then 1#32 else 0#32⟩ :: s.pAnswers }
      ∧ exec (.rbEmpty .p) s = .next { s with
          pAnswers := ⟨.ok, if s.ring.count = 0#16 then 1#32 else 0#32⟩ :: s.pAnswers })
    ∧ (s.cBusy = none →
      exec (.rbCount .c) s = .next { s with cAnswers := ⟨.ok, s.ring.count.setWidth 32⟩ :: s.cAnswers }
      ∧ exec (.rbFull .c) s = .next { s with
          cAnswers := ⟨.ok, if s.par.ringSize ≤ s.ring.count.toNat then 1#32 else 0#32⟩ :: s.cAnswers }
      ∧ exec (.rbEmpty .c) s = .next { s with
          cAnswers := ⟨.ok, if s.ring.count = 0#16 then 1#32 else 0#32⟩ :: s.cAnswers })

/-- RB_INSERT on a buffer that is not full, no RingOverrun recorded: i1 stores the byte in the cell at RB.in and leaves every other cell, i2
advances RB.in modulo N, i3 raises the count by one; then it is answered OK (R131, R132, R139). Each micro-step changes
nothing else. -/
def Obligations.InsertRunsItsMicroSteps : Prop :=
  ∀ (s : State) (b : Byte), s.pBusy = none → s.initRunning = false → s.ring.inited = true → s.ring.overrun = false →
    s.ring.count.toNat < s.par.ringSize → s.ring.inCur.toNat < s.par.ringSize →
    ∃ m : Memory,
      (∀ k, Memory.get m k = if k = s.ring.inCur.toNat then some b else Memory.get s.ring.mem k)
      ∧ (let r1 := { s.ring with mem := m }
         let r2 := { r1 with inCur := BitVec.ofNat 16 ((s.ring.inCur.toNat + 1) % s.par.ringSize) }
         let r3 := { r2 with count := BitVec.ofNat 16 (s.ring.count.toNat + 1) }
         exec (.rbInsert b) s = .next { s with ring := r1, pBusy := some (.i2 b) }
         ∧ microP (.i2 b) { s with ring := r1, pBusy := some (.i2 b) } = .next { s with ring := r2, pBusy := some (.i3 b) }
         ∧ microP (.i3 b) { s with ring := r2, pBusy := some (.i3 b) }
            = .next { s with ring := r3, pAnswers := ⟨.ok, 0#32⟩ :: s.pAnswers })

/-- RB_REMOVE on a buffer that is not empty, no RingOverrun recorded: r1 reads the cell at RB.out, r2 advances RB.out modulo N, r3 lowers the
count by one; then it is answered OK with the byte (R131, R132, R142). Each micro-step changes nothing else; the cell
keeps its byte. -/
def Obligations.RemoveRunsItsMicroSteps : Prop :=
  ∀ s : State, s.cBusy = none → s.ring.inited = true → s.ring.overrun = false → 0 < s.ring.count.toNat →
    s.ring.outCur.toNat < s.par.ringSize →
    let v := s.ring.cell s.ring.outCur.toNat
    let r2 := { s.ring with outCur := BitVec.ofNat 16 ((s.ring.outCur.toNat + 1) % s.par.ringSize) }
    let r3 := { r2 with count := BitVec.ofNat 16 (s.ring.count.toNat - 1) }
    exec .rbRemove s = .next { s with cBusy := some (.r2 v) }
      ∧ microC (.r2 v) { s with cBusy := some (.r2 v) } = .next { s with ring := r2, cBusy := some (.r3 v) }
      ∧ microC (.r3 v) { s with ring := r2, cBusy := some (.r3 v) }
          = .next { s with ring := r3, cAnswers := ⟨.ok, v.setWidth 32⟩ :: s.cAnswers }

/-- RB_PUSH that finds room at p0 does exactly what RB_INSERT of the same byte does (R145; the command is the spec's
decision D17). -/
def Obligations.PushWithRoomIsAnInsert : Prop :=
  ∀ (s : State) (b : Byte), s.pBusy = none → s.initRunning = false → s.ring.inited = true → s.ring.overrun = false →
    s.ring.count.toNat < s.par.ringSize → s.ring.inCur.toNat < s.par.ringSize →
    exec (.rbPush b) s = .next { s with pBusy := some (.i1 b) }
      ∧ ∃ t, driveP 3 { s with pBusy := some (.i1 b) } = .next t
          ∧ thenDo (exec (.rbInsert b) s) (driveP 2) = .next t
          ∧ t.pBusy = none ∧ t.pAnswers = ⟨.ok, 0#32⟩ :: s.pAnswers

/-- RB_PUSH that finds the buffer full at p0 drops the byte and counts it, modulo 2^CTR_W; answered OVERFLOW; nothing
else changes (R145, R146; the command and the counter are the spec's decision D17). -/
def Obligations.PushWithoutRoomDrops : Prop :=
  ∀ (s : State) (b : Byte), s.pBusy = none → s.initRunning = false → s.ring.inited = true → s.ring.overrun = false →
    s.par.ringSize ≤ s.ring.count.toNat →
    exec (.rbPush b) s = .next { s with pBusy := some (.p1 b) }
      ∧ microP (.p1 b) { s with pBusy := some (.p1 b) } = .next { s with
          ring := { s.ring with ovf := (s.ring.ovf + 1) % 2 ^ s.par.ctrWidth }
          pAnswers := ⟨.overflow, 0#32⟩ :: s.pAnswers }

/-- The two violated preconditions (R140, R143, 93 U3, U4; decision D16). RB_INSERT on a full ring: the byte overwrites
the cell at RB.in and no other, RB.in advances, the fault RingOverrun is recorded, in the ring until the next RB_INIT and
for the whole run (R233), and the count is then some value c,
which the statement leaves open. Until the next RB_INIT every result is left open in the same way: the queries, RB_REMOVE
and RB_PUSH run, and what they answer, the cursor of the remove and the branch of the push are some value (free values,
log 12). RB_REMOVE on an empty ring is the fault RingUnderrun, with no state after it (log 26). The fields overrun,
runFaulted and draws are the model's own. -/
def Obligations.ViolatedPreconditionsFault : Prop :=
  ∀ (s : State) (b : Byte), s.ring.inited = true →
    (s.pBusy = none → s.initRunning = false → s.par.ringSize ≤ s.ring.count.toNat →
      s.ring.inCur.toNat < s.par.ringSize →
      ∃ (m : Memory) (c : Word16),
        (∀ k, Memory.get m k = if k = s.ring.inCur.toNat then some b else Memory.get s.ring.mem k)
        ∧ (let r1 := { s.ring with mem := m, overrun := true }
           let r2 := { r1 with inCur := BitVec.ofNat 16 ((s.ring.inCur.toNat + 1) % s.par.ringSize) }
           let s1 := { s with ring := r1, pBusy := some (.i2 b), runFaulted := true }
           let s2 := { s with ring := r2, pBusy := some (.i3 b), runFaulted := true }
           exec (.rbInsert b) s = .next s1 ∧ microP (.i2 b) s1 = .next s2
           ∧ microP (.i3 b) s2 = .next { s with
               ring := { r2 with count := c }, runFaulted := true, draws := s.draws + 1
               pAnswers := ⟨.ok, 0#32⟩ :: s.pAnswers }))
    ∧ (s.ring.overrun = true → s.pBusy = none → s.initRunning = false →
      (∀ q ∈ [(Instr.rbCount .p, 16), (.rbFull .p, 1), (.rbEmpty .p, 1)], ∃ v : Value, v.toNat < 2 ^ q.2
        ∧ exec q.1 s = .next { s with draws := s.draws + 1, pAnswers := ⟨.ok, v⟩ :: s.pAnswers })
      ∧ (exec (.rbPush b) s = .next { s with draws := s.draws + 1, pBusy := some (.p1 b) }
        ∨ exec (.rbPush b) s = .next { s with draws := s.draws + 1, pBusy := some (.i1 b) }))
    ∧ (s.ring.overrun = true → s.cBusy = none →
      (∀ q ∈ [(Instr.rbCount .c, 16), (.rbFull .c, 1), (.rbEmpty .c, 1)], ∃ v : Value, v.toNat < 2 ^ q.2
        ∧ exec q.1 s = .next { s with draws := s.draws + 1, cAnswers := ⟨.ok, v⟩ :: s.cAnswers })
      ∧ ∃ t o c v, thenDo (exec .rbRemove s) (driveC 2) = .next t ∧ v.toNat < 2 ^ 8
          ∧ t = { s with ring := { s.ring with outCur := o, count := c }, draws := s.draws + 4
                         cAnswers := ⟨.ok, v⟩ :: s.cAnswers })
    ∧ (s.ring.overrun = false → s.cBusy = none → s.ring.count = 0#16 → exec .rbRemove s = .fault .ringUnderrun)

/-- The ring's refusals: every ring command other than RB_INIT before the first RB_INIT (R28, 93 U1; decision D14);
RB_INIT while a P command is in progress, and a ring command on P while RB_INIT is (R149, 93 U9; decision D30). -/
def Obligations.RingCommandsRefusedOutOfOrder : Prop :=
  ∀ (s : State) (b : Byte),
    (s.ring.inited = false → s.initRunning = false → s.pBusy = none →
      ∀ i ∈ [Instr.rbCount .p, .rbFull .p, .rbEmpty .p, .rbInsert b, .rbPush b], exec i s = .refused .ringNotInitialised)
    ∧ (s.ring.inited = false → s.cBusy = none →
      ∀ i ∈ [Instr.rbCount .c, .rbFull .c, .rbEmpty .c, .rbRemove], exec i s = .refused .ringNotInitialised)
    ∧ (s.cBusy = none → s.pBusy.isSome = true → exec .rbInit s = .refused .initOverlap)
    ∧ (s.pBusy = none → s.initRunning = true →
      ∀ i ∈ [Instr.rbCount .p, .rbFull .p, .rbEmpty .p, .rbInsert b, .rbPush b], exec i s = .refused .initOverlap)

/-- A port takes no command while its previous one is unanswered (R100, R144): an instruction of that port is then
refused (93 U8). Steps of the machine never issue one. -/
def Obligations.BusyPortTakesNoCommand : Prop :=
  ∀ (i : Instr) (s : State), s.busy i.port = true → exec i s = .refused .portBusy

/-- The ring invariant of R29, with the windows of R44, is kept by every step of the machine, whatever the order of the
micro-steps. As in R29 the cursor equation and the range of the count are claimed only while no violated precondition is
recorded (R140). -/
def Obligations.RingInvariantKept : Prop :=
  ∀ s t : State, s.RingInvariant → step s = .next t → t.RingInvariant

/-- First in, first out, and linearisation (R147, R148): in any interleaving, a step that answers an insert or a push at
i3 appends its byte to the ring's logical content, a step that answers a remove at r3 takes the oldest byte off and
answers with it, and a step that leaves the count as it was leaves the content as it was. (Between RB_INIT's writes,
across a hardware reset, and once an insert has found the ring full, R140, the ring has no logical content.) -/
def Obligations.StepsRefineAQueue : Prop :=
  ∀ s t : State, s.RingInvariant → s.ring.inited = true → s.initRunning = false → s.sched.head? ≠ some .reset →
    step s = .next t → t.ring.overrun = false →
    (∀ b, s.pBusy = some (.i3 b) → t.pBusy = none →
        t.content = s.content ++ [b] ∧ t.pAnswers = ⟨.ok, 0#32⟩ :: s.pAnswers)
    ∧ (∀ v, s.cBusy = some (.r3 v) → t.cBusy = none →
        s.content = v :: t.content ∧ t.cAnswers = ⟨.ok, v.setWidth 32⟩ :: s.cAnswers)
    ∧ (t.ring.count = s.ring.count → t.content = s.content)

/-- The spec's FIFO property (R147): on an empty initialised ring, inserting up to N bytes and then removing as many
answers exactly those bytes in the order of insertion. -/
def Obligations.InsertsThenRemovesReturnInOrder : Prop :=
  ∀ (s : State) (bs : List Byte), s.RingInvariant → s.ring.inited = true → s.ring.overrun = false → s.pBusy = none → s.cBusy = none →
    s.ring.count = 0#16 → bs.length ≤ s.par.ringSize →
    ∃ t u, insertAll bs s = .next t ∧ removeAll bs.length t = .next u
      ∧ u.cAnswers = (bs.map (fun b => (⟨.ok, b.setWidth 32⟩ : Response))).reverse ++ s.cAnswers
      ∧ u.ring.count = 0#16

/-- A command that has been accepted always completes: no later micro-step of it faults, whatever the other port did in
between; and none of them violates a precondition: an insert in progress, and so an RB_PUSH that found room, never
overruns (R145). -/
def Obligations.AcceptedCommandsComplete : Prop :=
  ∀ s : State, s.RingInvariant →
    (∀ g, s.pBusy = some g → ∃ t, microP g s = .next t ∧ t.ring.overrun = s.ring.overrun)
    ∧ (∀ g, s.cBusy = some g → ∃ t, microC g s = .next t)

/-- A concurrent insert and remove do not disturb each other (R139, R142, R132): the next micro-steps of an insert and of
a remove in progress give the same state in either order. (No RingOverrun being recorded: else both draw free values.) -/
def Obligations.InsertAndRemoveCommute : Prop :=
  ∀ (s : State) (g : PStage) (h : CStage), s.RingInvariant → s.ring.overrun = false → s.pBusy = some g → s.cBusy = some h →
    s.inserting = true → s.removing = true →
    ∃ t, thenDo (microP g s) (microC h) = .next t ∧ thenDo (microC h s) (microP g) = .next t

/-- Who writes the ring's registers (R23 to R28): apart from a hardware reset, a step changes RB.mem only at i1, RB.in only
at i2 or RB_INIT, RB.out only at r2 or RB_INIT, RB.count only at i3 (+1), r3 (-1) or RB_INIT's write (0), RB.ovf only at
p1, RB.inited only, to 1, at RB_INIT's last write; no step clears RB.inited. The record of RingOverrun (R140, log 12) is
set only at an i1 that finds the ring full, and cleared only by RB_INIT; while it stands, what i3 and r3 leave in the
count is open. The record for the run (R233) is set with it, and no step clears it: whatever follows, RB_INIT included,
the run comes to no good end. -/
def Obligations.RingRegisterWriters : Prop :=
  ∀ s t : State, s.sched.head? ≠ some .reset → step s = .next t →
    (t.ring.mem = s.ring.mem ∨ (∃ b, t.pBusy = some (.i2 b)))
    ∧ (t.ring.count = s.ring.count
      ∨ (∃ b, s.pBusy = some (.i3 b) ∧ (t.ring.count = s.ring.count + 1#16 ∨ s.ring.overrun = true))
      ∨ (∃ v, s.cBusy = some (.r3 v) ∧ (t.ring.count = s.ring.count - 1#16 ∨ s.ring.overrun = true))
      ∨ (s.cBusy = some .n3 ∧ t.ring.count = 0#16))
    ∧ (t.ring.inCur = s.ring.inCur ∨ (∃ b, s.pBusy = some (.i2 b)) ∨ (t.cBusy = some .n2 ∧ t.ring.inCur = 0#16))
    ∧ (t.ring.outCur = s.ring.outCur ∨ (∃ v, s.cBusy = some (.r2 v)) ∨ (s.cBusy = some .n2 ∧ t.ring.outCur = 0#16))
    ∧ (t.ring.ovf = s.ring.ovf ∨
        (∃ b, s.pBusy = some (.p1 b) ∧ t.ring.ovf = (s.ring.ovf + 1) % 2 ^ s.par.ctrWidth))
    ∧ (t.ring.inited = s.ring.inited ∨ (s.cBusy = some .n4 ∧ t.ring.inited = true))
    ∧ (t.ring.overrun = s.ring.overrun
      ∨ (s.par.ringSize ≤ s.ring.count.toNat ∧ (∃ b, t.pBusy = some (.i2 b)) ∧ t.ring.overrun = true)
      ∨ (s.cBusy = some .n4 ∧ t.ring.overrun = false))
    ∧ (t.runFaulted = s.runFaulted
      ∨ (s.par.ringSize ≤ s.ring.count.toNat ∧ (∃ b, t.pBusy = some (.i2 b)) ∧ t.runFaulted = true))
    ∧ (s.runFaulted = true → t.runFaulted = true ∧ t.goodEnd = false)

/-- The producer's rights (R255): no command and no micro-step of port P touches the decoder, the encoder, BM, RB.out,
RB.inited, the other port, or what the consumer was answered. -/
def Obligations.ProducerTouchesOnlyItsOwn : Prop :=
  ∀ s t : State,
    ((∃ i : Instr, i.port = .p ∧ exec i s = .next t) ∨ (∃ g : PStage, microP g s = .next t)) →
    t.dec = s.dec ∧ t.enc = s.enc ∧ (∀ a, t.bmRead a = s.bmRead a) ∧ t.ring.outCur = s.ring.outCur
      ∧ t.ring.inited = s.ring.inited ∧ t.cBusy = s.cBusy ∧ t.cAnswers = s.cAnswers

/-- The consumer's rights (R255): no command and no micro-step of port C touches RB.mem, RB.ovf, the P command in
progress or what the producer was answered; RB.in and the raising of RB.count are the producer's except for RB_INIT
(and while a RingOverrun is recorded, when the count is open, R140). -/
def Obligations.ConsumerTouchesOnlyItsOwn : Prop :=
  ∀ s t : State,
    ((∃ i : Instr, i.port = .c ∧ exec i s = .next t) ∨ (∃ g : CStage, microC g s = .next t)) →
    t.ring.mem = s.ring.mem ∧ t.ring.ovf = s.ring.ovf ∧ t.pBusy = s.pBusy ∧ t.pAnswers = s.pAnswers
      ∧ (t.ring.inCur = s.ring.inCur ∨ t.ring.inCur = 0#16)
      ∧ (s.ring.overrun = false → t.ring.count.toNat ≤ s.ring.count.toNat)

/-! ## The CRC -/

/-- CRC_APPEND, the packet 0x10, b, crc (high byte first) on port C, answers CRC_STEP of its operands, zero-extended, and
writes no state (R163), for the open CRC_STEP and for REF_CRC; the rule's example under REF_CRC. -/
def Obligations.CrcAppendAnswersOneStep : Prop :=
  (∀ b c1 c0 : Byte, decode .c [0x10#8, b, c1, c0] = .crcAppend b (be16 c1 c0)) ∧ refCrc 0x02#8 0#16 = 0x2042#16 ∧
  ∀ (s : State) (b : Byte) (c : Word16), s.cBusy = none →
    exec (.crcAppend b c) s = .next { s with
      cAnswers := ⟨.ok, (match s.par.crc with
        | .peer => Config.crcStep b c
        | .reference => refCrc b c).setWidth 32⟩ :: s.cAnswers }

/-- The equations of CrcFold and CrcFoldFrom (R162): the empty list, one more byte, incrementality; and the CRC of a frame
is the fold of its address and payload. -/
def Obligations.CrcFoldIsIncremental : Prop :=
  ∀ (q : Params) (l1 l2 : List Byte) (b : Byte) (c : Word16),
    crcFold q [] = 0#16 ∧ crcFold q (l1 ++ [b]) = crcStep q b (crcFold q l1)
      ∧ crcFoldFrom q c [] = c ∧ crcFoldFrom q c ([b] ++ l1) = crcFoldFrom q (crcStep q b c) l1
      ∧ crcFold q l1 = crcFoldFrom q 0#16 l1 ∧ crcFold q (l1 ++ l2) = crcFoldFrom q (crcFold q l1) l2
      ∧ bodyOf q b l1 = l1 ++ [hiByte (crcFold q ([b] ++ l1)), loByte (crcFold q ([b] ++ l1))]

/-- The host's own CRC is the encoder's (R162, R163, R174): CRC_APPEND for each byte of a list, from 0, each answer passed
on, ends in an answer that is CrcFold of the list, and nothing but the answers changes. -/
def Obligations.ChainedAppendsGiveTheFold : Prop :=
  ∀ (s : State) (bs : List Byte), s.cBusy = none → bs ≠ [] →
    ∃ t rest, appendEach bs 0#16 s = .next t ∧ t = { s with cAnswers := t.cAnswers }
      ∧ t.cAnswers = ⟨.ok, (crcFold s.par bs).setWidth 32⟩ :: rest

/-! ## The encoder -/

/-- Steps 1 and 2 of ENC (R172, R173, R250): a null buffer is NULL_BUFFER whatever else is wrong, then a bad address is
INVALID_ADDRESS; ENC.status and the answer say so, ENC.len is 0, and no other state, BM included, changes. -/
def Obligations.EncRejectsNullThenBadAddress : Prop :=
  ∀ (s : State) (dst : Ptr) (dcap : Word16) (addr : Byte) (pay : Ptr) (plen : Word16), s.cBusy = none →
    (dst = 0#32 ∨ pay = 0#32 →
      exec (.enc dst dcap addr pay plen) s = .next { s with
        enc := ⟨.nullBuffer, 0#16⟩, cAnswers := ⟨.nullBuffer, 0#32⟩ :: s.cAnswers })
    ∧ (dst ≠ 0#32 ∧ pay ≠ 0#32 → ¬((1 ≤ addr.toNat ∧ addr.toNat ≤ 11) ∨ addr.toNat = 56) →
      exec (.enc dst dcap addr pay plen) s = .next { s with
        enc := ⟨.invalidAddress, 0#16⟩, cAnswers := ⟨.invalidAddress, 0#32⟩ :: s.cAnswers })

/-- ENC on legal, disjoint regions whose frame fits (R171, R174 to R176): the two CRC bytes stand after the payload, high
byte first; the destination starts with exactly the frame, 5 + plen + e bytes; every other byte of BM is as before;
ENC.status OK, ENC.len and the answer the frame's length, which 16 bits hold; nothing else changes. -/
def Obligations.EncWritesTheFrame : Prop :=
  ∀ (s : State) (dst : Ptr) (dcap : Word16) (addr : Byte) (pay : Ptr) (plen : Word16),
    s.cBusy = none → validAddr addr = true →
    regionLegal s.par.addrWidth dst.toNat dcap.toNat = true →
    regionLegal s.par.addrWidth pay.toNat (plen.toNat + 2) = true →
    regionsMeet dst.toNat dcap.toNat pay.toNat (plen.toNat + 2) = false →
    ¬(s.dec.live = true ∧ regionsMeet s.dec.buf.toNat s.dec.cap.toNat (pay.toNat + plen.toNat) 2 = true) →
    let P := s.bmReads pay.toNat plen.toNat
    let c := crcFold s.par (addr :: P)
    let F := frameOf addr (P ++ [hiByte c, loByte c])
    F.length ≤ dcap.toNat →
    ∃ t, exec (.enc dst dcap addr pay plen) s = .next t ∧ F.length < 2 ^ 16
      ∧ F.length = 5 + plen.toNat + ((P ++ [hiByte c, loByte c]).count 0xC0#8 + (P ++ [hiByte c, loByte c]).count 0xDB#8)
      ∧ t = { s with bm := t.bm, enc := ⟨.ok, BitVec.ofNat 16 F.length⟩
                     cAnswers := ⟨.ok, BitVec.ofNat 32 F.length⟩ :: s.cAnswers }
      ∧ t.bmReads dst.toNat F.length = F
      ∧ t.bmRead (pay.toNat + plen.toNat) = hiByte c ∧ t.bmRead (pay.toNat + plen.toNat + 1) = loByte c
      ∧ (∀ a, ¬(dst.toNat ≤ a ∧ a < dst.toNat + F.length) → a ≠ pay.toNat + plen.toNat →
          a ≠ pay.toNat + plen.toNat + 1 → t.bmRead a = s.bmRead a)

/-- ENC whose frame is longer than the capacity (R177, R174, R251): OVERFLOW, ENC.len and the answer's value 0, the CRC
bytes appended all the same, and nothing of BM outside those two bytes and the destination region changes. What the
destination region then holds is free (93 U13, log 14): the statement says nothing of it. The comparison is the spec's
decision D19. -/
def Obligations.EncOverflowsPastTheCapacity : Prop :=
  ∀ (s : State) (dst : Ptr) (dcap : Word16) (addr : Byte) (pay : Ptr) (plen : Word16),
    s.cBusy = none → validAddr addr = true →
    regionLegal s.par.addrWidth dst.toNat dcap.toNat = true →
    regionLegal s.par.addrWidth pay.toNat (plen.toNat + 2) = true →
    regionsMeet dst.toNat dcap.toNat pay.toNat (plen.toNat + 2) = false →
    ¬(s.dec.live = true ∧ regionsMeet s.dec.buf.toNat s.dec.cap.toNat (pay.toNat + plen.toNat) 2 = true) →
    let P := s.bmReads pay.toNat plen.toNat
    let c := crcFold s.par (addr :: P)
    let F := frameOf addr (P ++ [hiByte c, loByte c])
    dcap.toNat < F.length →
    ∃ t, exec (.enc dst dcap addr pay plen) s = .next t
      ∧ t = { s with bm := t.bm, draws := t.draws, enc := ⟨.overflow, 0#16⟩
                     cAnswers := ⟨.overflow, 0#32⟩ :: s.cAnswers }
      ∧ t.bmRead (pay.toNat + plen.toNat) = hiByte c ∧ t.bmRead (pay.toNat + plen.toNat + 1) = loByte c
      ∧ (∀ a, ¬(dst.toNat ≤ a ∧ a < dst.toNat + dcap.toNat) → a ≠ pay.toNat + plen.toNat →
          a ≠ pay.toNat + plen.toNat + 1 → t.bmRead a = s.bmRead a)

/-- ENC is refused on a region that is not legal, on regions that intersect (R64, 93 U5, U6; decision D7), and where its
two CRC bytes would fall in another live buffer (93 U10). The live buffer that the block knows is the decoder's, and when
it is live is the model's reading of R79 (logs 8 and 15). -/
def Obligations.EncRefusesBadRegions : Prop :=
  ∀ (s : State) (dst : Ptr) (dcap : Word16) (addr : Byte) (pay : Ptr) (plen : Word16),
    s.cBusy = none → dst ≠ 0#32 → pay ≠ 0#32 → validAddr addr = true →
    (2 ^ s.par.addrWidth ≤ dst.toNat ∨ 2 ^ s.par.addrWidth < dst.toNat + dcap.toNat
        ∨ 2 ^ s.par.addrWidth < pay.toNat + (plen.toNat + 2) →
      exec (.enc dst dcap addr pay plen) s = .refused .illegalRegion)
    ∧ (dst.toNat < 2 ^ s.par.addrWidth → dst.toNat + dcap.toNat ≤ 2 ^ s.par.addrWidth →
        pay.toNat + (plen.toNat + 2) ≤ 2 ^ s.par.addrWidth →
        ((∃ a, (dst.toNat ≤ a ∧ a < dst.toNat + dcap.toNat) ∧ (pay.toNat ≤ a ∧ a < pay.toNat + (plen.toNat + 2))) →
          exec (.enc dst dcap addr pay plen) s = .refused .overlappingRegions)
        ∧ ((∀ a, ¬((dst.toNat ≤ a ∧ a < dst.toNat + dcap.toNat) ∧ (pay.toNat ≤ a ∧ a < pay.toNat + (plen.toNat + 2)))) →
          s.dec.live = true →
          (∃ a, (s.dec.buf.toNat ≤ a ∧ a < s.dec.buf.toNat + s.dec.cap.toNat)
            ∧ (a = pay.toNat + plen.toNat ∨ a = pay.toNat + plen.toNat + 1)) →
          exec (.enc dst dcap addr pay plen) s = .refused .tailInLiveBuffer))

/-- In a frame of a valid address 0xC0 stands exactly twice, first and last, and every 0xDB is followed by 0xDC or 0xDD
(R180). -/
def Obligations.FramesAreDelimited : Prop :=
  ∀ (addr : Byte) (body : List Byte), validAddr addr = true →
    (frameOf addr body).count 0xC0#8 = 2
      ∧ (frameOf addr body).head? = some 0xC0#8 ∧ (frameOf addr body).getLast? = some 0xC0#8
      ∧ ∀ i, (frameOf addr body)[i]? = some 0xDB#8 →
          (frameOf addr body)[i + 1]? = some 0xDC#8 ∨ (frameOf addr body)[i + 1]? = some 0xDD#8

/-- The length of a frame (R97): three bytes more than the body, and one more for each body byte that is 0xC0 or 0xDB; so
from 5 + plen to 9 + 2 * plen for a payload of plen bytes and its CRC. -/
def Obligations.FrameLengthCountsEscapes : Prop :=
  ∀ (q : Params) (addr : Byte) (P : List Byte),
    let body := bodyOf q addr P
    (frameOf addr body).length = 5 + P.length + (body.count 0xC0#8 + body.count 0xDB#8)
      ∧ 5 + P.length ≤ (frameOf addr body).length ∧ (frameOf addr body).length ≤ 9 + 2 * P.length

/-! ## The decoder -/

/-- DEC_INIT with a legal region (R192, R283): bound to it, Idle, index and CRC 0, status OK, DEC.addr kept, answered OK,
and nothing else changed. The fields armed and statusSet are the model's own record that the registers now have a value
(log 4). -/
def Obligations.DecInitBinds : Prop :=
  ∀ (s : State) (buf : Ptr) (cap : Word16), s.cBusy = none → buf ≠ 0#32 →
    buf.toNat < 2 ^ s.par.addrWidth → buf.toNat + cap.toNat ≤ 2 ^ s.par.addrWidth →
    exec (.decInit buf cap) s = .next { s with
      dec := { s.dec with bound := true, state := .idle, buf := buf, cap := cap, idx := 0#16, crc := 0#16, status := .ok
                          armed := true, statusSet := true }
      cAnswers := ⟨.ok, 0#32⟩ :: s.cAnswers }

/-- The decoder's buffer must be there and legal: DEC_INIT with a null pointer answers NULL_BUFFER and leaves the decoder
unbound, the other registers kept (R192, R251; decision D15; that DEC.state is kept in Terminated, and with it
frame_complete, is the model's choice between R251 and R192's Flags line, log 27); with a pointer whose region is not legal it is refused
(R64, 93 U5; decision D7); DEC_BYTE to an unbound decoder is refused (R30, R195, 93 U2; decision D14). -/
def Obligations.DecoderNeedsALegalBuffer : Prop :=
  ∀ s : State, s.cBusy = none →
    (∀ cap, exec (.decInit 0#32 cap) s = .next { s with
      dec := { s.dec with bound := false, status := .nullBuffer, statusSet := true }
      cAnswers := ⟨.nullBuffer, 0#32⟩ :: s.cAnswers })
    ∧ (∀ (buf : Ptr) (cap : Word16), buf ≠ 0#32 →
      2 ^ s.par.addrWidth ≤ buf.toNat ∨ 2 ^ s.par.addrWidth < buf.toNat + cap.toNat →
      exec (.decInit buf cap) s = .refused .illegalRegion)
    ∧ (∀ b, s.dec.bound = false → exec (.decByte b) s = .refused .decoderUnbound)

/-- The rows that only move the state (R198, R199, R202, R206): Idle and FEND to AddressExpected, Idle and any other byte
ignored, Receiving and FEND with no body back to AddressExpected, Receiving and FESC to Escaping; status and answer OK,
nothing else changed. Each as the row and as the DEC_BYTE that selects it. -/
def Obligations.RowsThatMoveTheState : Prop :=
  ∀ (s : State) (b : Byte), s.DecReady →
    (s.dec.state = .idle → exec (.decByte 0xC0#8) s = exec .wIdleFend s ∧ exec .wIdleFend s = .next { s with
      dec := { s.dec with state := .addressExpected, status := .ok, statusSet := true }
      cAnswers := ⟨.ok, 0#32⟩ :: s.cAnswers })
    ∧ (s.dec.state = .idle → b ≠ 0xC0#8 → exec (.decByte b) s = exec (.wIdleOther b) s ∧
      exec (.wIdleOther b) s = .next { s with
      dec := { s.dec with status := .ok, statusSet := true }
      cAnswers := ⟨.ok, 0#32⟩ :: s.cAnswers })
    ∧ (s.dec.state = .receiving → s.dec.idx = 0#16 → exec (.decByte 0xC0#8) s = exec .wRcvFendResync s ∧
      exec .wRcvFendResync s = .next { s with
      dec := { s.dec with state := .addressExpected, status := .ok, statusSet := true }
      cAnswers := ⟨.ok, 0#32⟩ :: s.cAnswers })
    ∧ (s.dec.state = .receiving → exec (.decByte 0xDB#8) s = exec .wRcvFesc s ∧
      exec .wRcvFesc s = .next { s with
      dec := { s.dec with state := .escaping, status := .ok, statusSet := true }
      cAnswers := ⟨.ok, 0#32⟩ :: s.cAnswers })

/-- The twelve valid addresses in AddressExpected (R200, R95): DEC.addr takes the byte, the state is Receiving, status and
answer OK, nothing else changed; as the row and as the DEC_BYTE that selects it. The field addrSet is the model's own
(log 4). -/
def Obligations.ValidAddressesAreStored : Prop :=
  ∀ s : State, s.DecReady → s.dec.state = .addressExpected →
    ∀ q ∈ [(Instr.wAeAddr01, 0x01#8), (.wAeAddr02, 0x02#8), (.wAeAddr03, 0x03#8), (.wAeAddr04, 0x04#8),
        (.wAeAddr05, 0x05#8), (.wAeAddr06, 0x06#8), (.wAeAddr07, 0x07#8), (.wAeAddr08, 0x08#8), (.wAeAddr09, 0x09#8),
        (.wAeAddr0A, 0x0A#8), (.wAeAddr0B, 0x0B#8), (.wAeAddr38, 0x38#8)],
      exec (.decByte q.2) s = exec q.1 s ∧ exec q.1 s = .next { s with
        dec := { s.dec with addr := q.2, state := .receiving, status := .ok, statusSet := true, addrSet := true }
        cAnswers := ⟨.ok, 0#32⟩ :: s.cAnswers }

/-- The error rows that read no body (R201, R203, R211): a bad address, a closing FEND after one body byte, a bad escape.
Each leaves Idle, index 0, the error as status and answer; nothing else changed. That every error leaves Idle and index
0 is the spec's decision D12, and the short frame's status its decision D10. -/
def Obligations.ErrorRowsReturnToIdle : Prop :=
  ∀ (s : State) (b : Byte), s.DecReady →
    (s.dec.state = .addressExpected → ¬((1 ≤ b.toNat ∧ b.toNat ≤ 11) ∨ b.toNat = 56) →
      exec (.wAeAddrBad b) s = .next { s with
        dec := { s.dec with state := .idle, idx := 0#16, status := .invalidAddress, statusSet := true }
        cAnswers := ⟨.invalidAddress, 0#32⟩ :: s.cAnswers })
    ∧ (s.dec.state = .receiving → s.dec.idx = 1#16 → exec .wRcvFendShort s = .next { s with
        dec := { s.dec with state := .idle, idx := 0#16, status := .crcMismatch, statusSet := true }
        cAnswers := ⟨.crcMismatch, 0#32⟩ :: s.cAnswers })
    ∧ (s.dec.state = .escaping → b ≠ 0xDC#8 → b ≠ 0xDD#8 → exec (.wEscBad b) s = .next { s with
        dec := { s.dec with state := .idle, idx := 0#16, status := .escapeSequence, statusSet := true }
        cAnswers := ⟨.escapeSequence, 0#32⟩ :: s.cAnswers })

/-- A closing FEND after two or more body bytes (R204, R205): with n the index less 2, the received CRC the last two
bytes, high byte first, and c the CRC of the address and the first n bytes: equal, the frame is complete; different,
CRC_MISMATCH, Idle, index 0. DEC.crc takes c in both. Nothing else changes, no byte of BM. -/
def Obligations.ClosingFendChecksTheCrc : Prop :=
  ∀ s : State, s.DecReady → s.dec.state = .receiving → 2 ≤ s.dec.idx.toNat → s.dec.idx.toNat ≤ s.dec.cap.toNat →
    let n := s.dec.idx.toNat - 2
    let rx := be16 (s.bmRead (s.dec.buf.toNat + n)) (s.bmRead (s.dec.buf.toNat + n + 1))
    let c := crcFold s.par (s.dec.addr :: s.bmReads s.dec.buf.toNat n)
    (c = rx → exec .wRcvFendGood s = .next { s with
      dec := { s.dec with crc := c, idx := BitVec.ofNat 16 n, state := .terminated, status := .ok, statusSet := true }
      cAnswers := ⟨.ok, 0#32⟩ :: s.cAnswers })
    ∧ (c ≠ rx → exec .wRcvFendBadcrc s = .next { s with
      dec := { s.dec with crc := c, idx := 0#16, state := .idle, status := .crcMismatch, statusSet := true }
      cAnswers := ⟨.crcMismatch, 0#32⟩ :: s.cAnswers })

/-- The three appending rows (R197, R207, R209, R210): below the capacity the byte (for an escaped one the literal it
stands for) is stored at `DEC.buf + DEC.idx`, every other byte of BM is as before, the index goes up by one and the
state is Receiving, status and answer OK; at the capacity nothing is stored and it is OVERFLOW, Idle, index 0. Nothing
else changes. -/
def Obligations.AppendingRowsStoreOneByte : Prop :=
  ∀ (s : State) (i : Instr) (x : Byte), s.DecReady →
    (s.dec.state = .receiving ∧ i = .wRcvData x ∧ x ≠ 0xC0#8 ∧ x ≠ 0xDB#8)
      ∨ (s.dec.state = .escaping ∧ i = .wEscTfend ∧ x = 0xC0#8)
      ∨ (s.dec.state = .escaping ∧ i = .wEscTfesc ∧ x = 0xDB#8) →
    (s.dec.idx.toNat < s.dec.cap.toNat →
      ∃ t, exec i s = .next t
        ∧ t = { s with
            bm := t.bm
            dec := { s.dec with idx := BitVec.ofNat 16 (s.dec.idx.toNat + 1), state := .receiving, status := .ok
                                statusSet := true }
            cAnswers := ⟨.ok, 0#32⟩ :: s.cAnswers }
        ∧ t.bmRead (s.dec.buf.toNat + s.dec.idx.toNat) = x
        ∧ (∀ a, a ≠ s.dec.buf.toNat + s.dec.idx.toNat → t.bmRead a = s.bmRead a))
    ∧ (s.dec.cap.toNat ≤ s.dec.idx.toNat →
      exec i s = .next { s with
        dec := { s.dec with state := .idle, idx := 0#16, status := .overflow, statusSet := true }
        cAnswers := ⟨.overflow, 0#32⟩ :: s.cAnswers })

/-- A byte in Terminated is ignored: no register changes, the answer is DEC.status (R208; decision D11). -/
def Obligations.TerminatedIgnoresBytes : Prop :=
  ∀ (s : State) (b : Byte), s.DecReady → s.dec.state = .terminated →
    exec (.wTermAny b) s = .next { s with cAnswers := ⟨s.dec.status, 0#32⟩ :: s.cAnswers }

/-- DEC_BYTE performs exactly the row that DEC.state and the byte select (R195, R99, R212). That a wire row, taken as an
instruction of its own, is refused where no byte selects it is the model's choice (log 16). -/
def Obligations.DecByteRunsItsRow : Prop :=
  (∀ (s : State) (b : Byte), exec (.decByte b) s = exec (decodeWire s.dec.state s.fendCase b) s)
  ∧ (∀ (s : State) (i : Instr), s.DecReady → i.isWire = true → i.WellFormed = true →
      (∀ b, decodeWire s.dec.state s.fendCase b ≠ i) → exec i s = .refused .wireRowNotSelected)

/-- DEC_BYTE to a bound decoder always completes (R195, R212 "The table is total"): it is answered with one status, value
0, left also in DEC.status, and BM changes at most at `DEC.buf + DEC.idx`; the ring, the encoder and port P are not
touched. -/
def Obligations.DecByteAlwaysAnswers : Prop :=
  ∀ (s : State) (b : Byte), s.DecReady → s.DecoderInvariant →
    ∃ t, exec (.decByte b) s = .next t
      ∧ exec (decodeWire s.dec.state s.fendCase b) s = .next t
      ∧ t = { s with dec := t.dec, bm := t.bm, cAnswers := ⟨t.dec.status, 0#32⟩ :: s.cAnswers }
      ∧ t.dec.bound = true ∧ t.dec.buf = s.dec.buf ∧ t.dec.cap = s.dec.cap
      ∧ (∀ a, a ≠ s.dec.buf.toNat + s.dec.idx.toNat → t.bmRead a = s.bmRead a)

/-- Every decode error leaves Idle and index 0 and is what the answer says; address, buffer, capacity and binding are kept
(R196; the spec's decision D12). -/
def Obligations.EveryDecodeErrorResets : Prop :=
  ∀ (s t : State) (b : Byte), s.DecoderInvariant → exec (.decByte b) s = .next t → t.dec.status ≠ .ok →
    t.dec.state = .idle ∧ t.dec.idx = 0#16 ∧ t.dec.addr = s.dec.addr ∧ t.dec.buf = s.dec.buf ∧ t.dec.cap = s.dec.cap
      ∧ t.dec.bound = s.dec.bound ∧ t.cAnswers = ⟨t.dec.status, 0#32⟩ :: s.cAnswers

/-- The decoder leaves Terminated, and its registers change there, only through DEC_INIT (R208, R216; decision D11). -/
def Obligations.OnlyDecInitLeavesTerminated : Prop :=
  ∀ (s t : State) (i : Instr), s.dec.state = .terminated → (∀ buf cap, i ≠ .decInit buf cap) →
    exec i s = .next t → t.dec = s.dec

/-- Round trip (R213): a freshly initialised decoder whose buffer holds two bytes more than the payload is fed the frame
of a valid address and a payload, one byte each; every byte is answered OK, and it ends in Terminated with that address,
that length and those bytes, for every CRC_STEP. -/
def Obligations.FramesDecodeToTheirPayload : Prop :=
  ∀ (s : State) (a : Byte) (P : List Byte), s.DecReady → s.dec.state = .idle → s.dec.idx = 0#16 →
    validAddr a = true → P.length + 2 ≤ s.dec.cap.toNat →
    let F := frameOf a (bodyOf s.par a P)
    ∃ t, feedBytes F s = .next t
      ∧ t.dec.state = .terminated ∧ t.dec.status = .ok ∧ t.dec.addr = a ∧ t.dec.idx.toNat = P.length
      ∧ t.bmReads t.dec.buf.toNat P.length = P ∧ t.dec.buf = s.dec.buf
      ∧ t.cAnswers = List.replicate F.length ⟨.ok, 0#32⟩ ++ s.cAnswers

/-- The other half of R213: with a smaller buffer some byte of the frame is answered OVERFLOW instead. -/
def Obligations.SmallBuffersOverflow : Prop :=
  ∀ (s : State) (a : Byte) (P : List Byte), s.DecReady → s.dec.state = .idle → s.dec.idx = 0#16 →
    validAddr a = true → s.dec.cap.toNat < P.length + 2 →
    ∃ pre b post t, frameOf a (bodyOf s.par a P) = pre ++ b :: post ∧ feedBytes (pre ++ [b]) s = .next t
      ∧ t.cAnswers.head? = some ⟨.overflow, 0#32⟩ ∧ t.dec.state = .idle ∧ t.dec.idx = 0#16

/-- CRC detection in the form R214 (a) gives it, under the named assumption CRC_SINGLE_BIT (R164): where the buffered
body is a good body with exactly one bit flipped, payload or CRC, the closing FEND is answered CRC_MISMATCH and the
frame is not delivered. -/
def Obligations.OneFlippedBitIsDetected : Prop :=
  ∀ (s : State) (P body : List Byte), s.DecReady → CrcSingleBit s.par → s.dec.state = .receiving →
    s.dec.idx.toNat ≤ s.dec.cap.toNat → s.dec.idx.toNat = P.length + 2 →
    OneBitApart (bodyOf s.par s.dec.addr P) body → s.bmReads s.dec.buf.toNat s.dec.idx.toNat = body →
    ∃ t, exec (.decByte 0xC0#8) s = .next t ∧ t.dec.state = .idle ∧ t.dec.idx = 0#16
      ∧ t.cAnswers = ⟨.crcMismatch, 0#32⟩ :: s.cAnswers

/-- Loss of synchronisation (R215): a decoder that a stray closing FEND has put into AddressExpected, fed a whole frame,
reports one INVALID_ADDRESS, delivers nothing, stores nothing, and is in AddressExpected again. -/
def Obligations.OutOfStepDecoderLosesTheFrame : Prop :=
  ∀ (s : State) (a : Byte) (body : List Byte), s.DecReady → s.dec.state = .addressExpected → validAddr a = true →
    let F := frameOf a body
    ∃ t, feedBytes F s = .next t ∧ t.dec.state = .addressExpected
      ∧ t = { s with dec := t.dec, cAnswers := t.cAnswers }
      ∧ t.cAnswers = List.replicate (F.length - 1) ⟨.ok, 0#32⟩ ++ ⟨.invalidAddress, 0#32⟩ :: s.cAnswers

/-! ## Invariants of the machine -/

/-- The decoder invariant of R38 (its registers) and the legal values of R32, R35 and R37 are kept by every step. -/
def Obligations.DecoderInvariantKept : Prop :=
  ∀ s t : State, s.DecoderInvariant → step s = .next t → t.DecoderInvariant

/-- The encoder's result registers keep to the legal values of R39 and R40, and RB.ovf to its width (R27, R146), in every
step. -/
def Obligations.EncoderAndCounterKept : Prop :=
  ∀ s t : State, s.EncoderInvariant → s.CounterFits → step s = .next t → t.EncoderInvariant ∧ t.CounterFits

/-- BM and the ring storage stay canonical, with only addresses that exist (R60, R61, R64), in every step. -/
def Obligations.MemoriesStayCanonical : Prop :=
  ∀ s t : State, s.MemoriesCanonical → step s = .next t → t.MemoriesCanonical

/-- The parameters are not state (R21, R8): no step changes them. -/
def Obligations.ParametersAreConstant : Prop := ∀ s t : State, step s = .next t → t.par = s.par

/-- The state after reset meets the invariants. (The values of the registers whose reset value the spec leaves
unspecified are the model's choice, log 3; N is free, log 1.) -/
def Obligations.InvariantsHoldAtReset : Prop :=
  State.reset.RingInvariant ∧ State.reset.DecoderInvariant ∧ State.reset.EncoderInvariant ∧ State.reset.CounterFits
    ∧ State.reset.MemoriesCanonical

/-! ## One step -/

/-- A step runs the decoded instruction: where a port has the move, no command of it is in progress, and the packet it
issues next decodes to i, the step is i's meaning in the state with that packet taken and the move used up. -/
def Obligations.StepRunsTheDecodedCommand : Prop :=
  ∀ (s : State) (i : Instr) (pkt : Packet), s.sched.head? ≠ some .reset →
    (∀ rest, s.mover = some .p → s.pBusy = none → s.pQueue = pkt :: rest → decode .p pkt = i →
      step s = exec i { s.moved with pQueue := rest })
    ∧ (∀ rest, s.mover = some .c → s.cBusy = none → s.cQueue = .command pkt :: rest → decode .c pkt = i →
      step s = exec i { s.moved with cQueue := rest })

/-- The step's other moves: the next micro-step of the command in progress on the port that moves (R73, R131); a host
write of a byte of BM (R78, R79), which happens outside the decoder's live buffer, is refused inside it (93 U7), and is a
fault at an address that BM does not have (R60, log 13); and nothing, where no port has anything left, but the schedule's
entry used up. That is when the run has ended (R233), and it has a good end if no fault was recorded in it. When the decoder's buffer is live is the model's reading of R79 (log 8): from DEC_INIT to
Terminated or an error, after which a write inside it happens. -/
def Obligations.StepRunsTheOtherMoves : Prop :=
  ∀ s : State, s.sched.head? ≠ some .reset →
    (∀ g, s.mover = some .p → s.pBusy = some g → step s = microP g s.moved)
    ∧ (∀ g, s.mover = some .c → s.cBusy = some g → step s = microC g s.moved)
    ∧ (∀ a b rest, s.mover = some .c → s.cBusy = none → s.cQueue = .write a b :: rest →
        (a < 2 ^ s.par.addrWidth →
          s.dec.live = false ∨ ¬(s.dec.buf.toNat ≤ a ∧ a < s.dec.buf.toNat + s.dec.cap.toNat) →
          ∃ t, step s = .next t ∧ t = { s.moved with cQueue := rest, bm := t.bm }
            ∧ ∀ x, t.bmRead x = if x = a then b else s.bmRead x)
        ∧ (a < 2 ^ s.par.addrWidth → s.dec.live = true →
          s.dec.buf.toNat ≤ a ∧ a < s.dec.buf.toNat + s.dec.cap.toNat → step s = .refused .hostWriteInBoundRegion)
        ∧ (2 ^ s.par.addrWidth ≤ a → step s = .fault .outsideMemory))
    ∧ (s.pBusy = none → s.cBusy = none → s.pQueue = [] → s.cQueue = [] →
        step s = .next { s with sched := s.sched.tail })
    ∧ (s.runEnded = true ↔ s.pBusy = none ∧ s.cBusy = none ∧ s.pQueue = [] ∧ s.cQueue = [])
    ∧ (s.goodEnd = true ↔ s.runEnded = true ∧ s.runFaulted = false)

/-- Any interleaving is admitted (R73). The schedule is the model's way to say which (log 11): where it names a port that
has a move to make, that port moves and the entry is used up; where only one port has a move, that port moves, whatever
the schedule names; where both have and the schedule is empty, one of them does, and which is open. -/
def Obligations.ScheduleNamesTheMover : Prop :=
  (∀ (s : State) (port : Port) (rest : List Turn), s.sched = .port port :: rest → s.hasWork port = true →
    s.mover = some port ∧ s.moved.sched = rest)
  ∧ (∀ s : State, s.hasWork .p = true → s.hasWork .c = false → s.mover = some .p)
  ∧ (∀ s : State, s.hasWork .p = false → s.hasWork .c = true → s.mover = some .c)
  ∧ (∀ s : State, s.hasWork .p = true → s.hasWork .c = true → s.sched = [] → ∃ port, s.mover = some port)
end

