-- ==== Sys2Proof/Laws/State.lean ====
section
/-! SUPPORT. For each named update of the state, what each field then is. -/

namespace Sys2Proof.Machine

variable (s : State)

@[simp] theorem State.withRing_par (r : Ring) : (s.withRing r).par = s.par := rfl
@[simp] theorem State.withRing_ring (r : Ring) : (s.withRing r).ring = r := rfl
@[simp] theorem State.withRing_dec (r : Ring) : (s.withRing r).dec = s.dec := rfl
@[simp] theorem State.withRing_enc (r : Ring) : (s.withRing r).enc = s.enc := rfl
@[simp] theorem State.withRing_bm (r : Ring) : (s.withRing r).bm = s.bm := rfl
@[simp] theorem State.withRing_pBusy (r : Ring) : (s.withRing r).pBusy = s.pBusy := rfl
@[simp] theorem State.withRing_cBusy (r : Ring) : (s.withRing r).cBusy = s.cBusy := rfl
@[simp] theorem State.withRing_pQueue (r : Ring) : (s.withRing r).pQueue = s.pQueue := rfl
@[simp] theorem State.withRing_cQueue (r : Ring) : (s.withRing r).cQueue = s.cQueue := rfl
@[simp] theorem State.withRing_sched (r : Ring) : (s.withRing r).sched = s.sched := rfl
@[simp] theorem State.withRing_pAnswers (r : Ring) : (s.withRing r).pAnswers = s.pAnswers := rfl
@[simp] theorem State.withRing_cAnswers (r : Ring) : (s.withRing r).cAnswers = s.cAnswers := rfl
@[simp] theorem State.withRing_draws (r : Ring) : (s.withRing r).draws = s.draws := rfl
@[simp] theorem State.withRing_runFaulted (r : Ring) : (s.withRing r).runFaulted = s.runFaulted := rfl

@[simp] theorem State.withDec_par (d : Decoder) : (s.withDec d).par = s.par := rfl
@[simp] theorem State.withDec_ring (d : Decoder) : (s.withDec d).ring = s.ring := rfl
@[simp] theorem State.withDec_dec (d : Decoder) : (s.withDec d).dec = d := rfl
@[simp] theorem State.withDec_enc (d : Decoder) : (s.withDec d).enc = s.enc := rfl
@[simp] theorem State.withDec_bm (d : Decoder) : (s.withDec d).bm = s.bm := rfl
@[simp] theorem State.withDec_pBusy (d : Decoder) : (s.withDec d).pBusy = s.pBusy := rfl
@[simp] theorem State.withDec_cBusy (d : Decoder) : (s.withDec d).cBusy = s.cBusy := rfl
@[simp] theorem State.withDec_pQueue (d : Decoder) : (s.withDec d).pQueue = s.pQueue := rfl
@[simp] theorem State.withDec_cQueue (d : Decoder) : (s.withDec d).cQueue = s.cQueue := rfl
@[simp] theorem State.withDec_sched (d : Decoder) : (s.withDec d).sched = s.sched := rfl
@[simp] theorem State.withDec_pAnswers (d : Decoder) : (s.withDec d).pAnswers = s.pAnswers := rfl
@[simp] theorem State.withDec_cAnswers (d : Decoder) : (s.withDec d).cAnswers = s.cAnswers := rfl
@[simp] theorem State.withDec_draws (d : Decoder) : (s.withDec d).draws = s.draws := rfl
@[simp] theorem State.withDec_runFaulted (d : Decoder) : (s.withDec d).runFaulted = s.runFaulted := rfl

@[simp] theorem State.withEnc_par (e : Encoder) : (s.withEnc e).par = s.par := rfl
@[simp] theorem State.withEnc_ring (e : Encoder) : (s.withEnc e).ring = s.ring := rfl
@[simp] theorem State.withEnc_dec (e : Encoder) : (s.withEnc e).dec = s.dec := rfl
@[simp] theorem State.withEnc_enc (e : Encoder) : (s.withEnc e).enc = e := rfl
@[simp] theorem State.withEnc_bm (e : Encoder) : (s.withEnc e).bm = s.bm := rfl
@[simp] theorem State.withEnc_pBusy (e : Encoder) : (s.withEnc e).pBusy = s.pBusy := rfl
@[simp] theorem State.withEnc_cBusy (e : Encoder) : (s.withEnc e).cBusy = s.cBusy := rfl
@[simp] theorem State.withEnc_pQueue (e : Encoder) : (s.withEnc e).pQueue = s.pQueue := rfl
@[simp] theorem State.withEnc_cQueue (e : Encoder) : (s.withEnc e).cQueue = s.cQueue := rfl
@[simp] theorem State.withEnc_sched (e : Encoder) : (s.withEnc e).sched = s.sched := rfl
@[simp] theorem State.withEnc_pAnswers (e : Encoder) : (s.withEnc e).pAnswers = s.pAnswers := rfl
@[simp] theorem State.withEnc_cAnswers (e : Encoder) : (s.withEnc e).cAnswers = s.cAnswers := rfl
@[simp] theorem State.withEnc_draws (e : Encoder) : (s.withEnc e).draws = s.draws := rfl
@[simp] theorem State.withEnc_runFaulted (e : Encoder) : (s.withEnc e).runFaulted = s.runFaulted := rfl

@[simp] theorem State.withBm_par (m : Memory) : (s.withBm m).par = s.par := rfl
@[simp] theorem State.withBm_ring (m : Memory) : (s.withBm m).ring = s.ring := rfl
@[simp] theorem State.withBm_dec (m : Memory) : (s.withBm m).dec = s.dec := rfl
@[simp] theorem State.withBm_enc (m : Memory) : (s.withBm m).enc = s.enc := rfl
@[simp] theorem State.withBm_bm (m : Memory) : (s.withBm m).bm = m := rfl
@[simp] theorem State.withBm_pBusy (m : Memory) : (s.withBm m).pBusy = s.pBusy := rfl
@[simp] theorem State.withBm_cBusy (m : Memory) : (s.withBm m).cBusy = s.cBusy := rfl
@[simp] theorem State.withBm_pQueue (m : Memory) : (s.withBm m).pQueue = s.pQueue := rfl
@[simp] theorem State.withBm_cQueue (m : Memory) : (s.withBm m).cQueue = s.cQueue := rfl
@[simp] theorem State.withBm_sched (m : Memory) : (s.withBm m).sched = s.sched := rfl
@[simp] theorem State.withBm_pAnswers (m : Memory) : (s.withBm m).pAnswers = s.pAnswers := rfl
@[simp] theorem State.withBm_cAnswers (m : Memory) : (s.withBm m).cAnswers = s.cAnswers := rfl
@[simp] theorem State.withBm_draws (m : Memory) : (s.withBm m).draws = s.draws := rfl
@[simp] theorem State.withBm_runFaulted (m : Memory) : (s.withBm m).runFaulted = s.runFaulted := rfl

@[simp] theorem State.holdP_par (g : PStage) : (s.holdP g).par = s.par := rfl
@[simp] theorem State.holdP_ring (g : PStage) : (s.holdP g).ring = s.ring := rfl
@[simp] theorem State.holdP_dec (g : PStage) : (s.holdP g).dec = s.dec := rfl
@[simp] theorem State.holdP_enc (g : PStage) : (s.holdP g).enc = s.enc := rfl
@[simp] theorem State.holdP_bm (g : PStage) : (s.holdP g).bm = s.bm := rfl
@[simp] theorem State.holdP_pBusy (g : PStage) : (s.holdP g).pBusy = some g := rfl
@[simp] theorem State.holdP_cBusy (g : PStage) : (s.holdP g).cBusy = s.cBusy := rfl
@[simp] theorem State.holdP_pQueue (g : PStage) : (s.holdP g).pQueue = s.pQueue := rfl
@[simp] theorem State.holdP_cQueue (g : PStage) : (s.holdP g).cQueue = s.cQueue := rfl
@[simp] theorem State.holdP_sched (g : PStage) : (s.holdP g).sched = s.sched := rfl
@[simp] theorem State.holdP_pAnswers (g : PStage) : (s.holdP g).pAnswers = s.pAnswers := rfl
@[simp] theorem State.holdP_cAnswers (g : PStage) : (s.holdP g).cAnswers = s.cAnswers := rfl
@[simp] theorem State.holdP_draws (g : PStage) : (s.holdP g).draws = s.draws := rfl
@[simp] theorem State.holdP_runFaulted (g : PStage) : (s.holdP g).runFaulted = s.runFaulted := rfl

@[simp] theorem State.holdC_par (g : CStage) : (s.holdC g).par = s.par := rfl
@[simp] theorem State.holdC_ring (g : CStage) : (s.holdC g).ring = s.ring := rfl
@[simp] theorem State.holdC_dec (g : CStage) : (s.holdC g).dec = s.dec := rfl
@[simp] theorem State.holdC_enc (g : CStage) : (s.holdC g).enc = s.enc := rfl
@[simp] theorem State.holdC_bm (g : CStage) : (s.holdC g).bm = s.bm := rfl
@[simp] theorem State.holdC_pBusy (g : CStage) : (s.holdC g).pBusy = s.pBusy := rfl
@[simp] theorem State.holdC_cBusy (g : CStage) : (s.holdC g).cBusy = some g := rfl
@[simp] theorem State.holdC_pQueue (g : CStage) : (s.holdC g).pQueue = s.pQueue := rfl
@[simp] theorem State.holdC_cQueue (g : CStage) : (s.holdC g).cQueue = s.cQueue := rfl
@[simp] theorem State.holdC_sched (g : CStage) : (s.holdC g).sched = s.sched := rfl
@[simp] theorem State.holdC_pAnswers (g : CStage) : (s.holdC g).pAnswers = s.pAnswers := rfl
@[simp] theorem State.holdC_cAnswers (g : CStage) : (s.holdC g).cAnswers = s.cAnswers := rfl
@[simp] theorem State.holdC_draws (g : CStage) : (s.holdC g).draws = s.draws := rfl
@[simp] theorem State.holdC_runFaulted (g : CStage) : (s.holdC g).runFaulted = s.runFaulted := rfl

@[simp] theorem State.drew_par (n : Nat) : (s.drew n).par = s.par := rfl
@[simp] theorem State.drew_ring (n : Nat) : (s.drew n).ring = s.ring := rfl
@[simp] theorem State.drew_dec (n : Nat) : (s.drew n).dec = s.dec := rfl
@[simp] theorem State.drew_enc (n : Nat) : (s.drew n).enc = s.enc := rfl
@[simp] theorem State.drew_bm (n : Nat) : (s.drew n).bm = s.bm := rfl
@[simp] theorem State.drew_pBusy (n : Nat) : (s.drew n).pBusy = s.pBusy := rfl
@[simp] theorem State.drew_cBusy (n : Nat) : (s.drew n).cBusy = s.cBusy := rfl
@[simp] theorem State.drew_pQueue (n : Nat) : (s.drew n).pQueue = s.pQueue := rfl
@[simp] theorem State.drew_cQueue (n : Nat) : (s.drew n).cQueue = s.cQueue := rfl
@[simp] theorem State.drew_sched (n : Nat) : (s.drew n).sched = s.sched := rfl
@[simp] theorem State.drew_pAnswers (n : Nat) : (s.drew n).pAnswers = s.pAnswers := rfl
@[simp] theorem State.drew_cAnswers (n : Nat) : (s.drew n).cAnswers = s.cAnswers := rfl
@[simp] theorem State.drew_draws (n : Nat) : (s.drew n).draws = s.draws + n := rfl
@[simp] theorem State.drew_runFaulted (n : Nat) : (s.drew n).runFaulted = s.runFaulted := rfl

@[simp] theorem State.noteOverrun_par (x : Bool) : (s.noteOverrun x).par = s.par := rfl
@[simp] theorem State.noteOverrun_ring (x : Bool) : (s.noteOverrun x).ring = { s.ring with overrun := s.ring.overrun || x } := rfl
@[simp] theorem State.noteOverrun_dec (x : Bool) : (s.noteOverrun x).dec = s.dec := rfl
@[simp] theorem State.noteOverrun_enc (x : Bool) : (s.noteOverrun x).enc = s.enc := rfl
@[simp] theorem State.noteOverrun_bm (x : Bool) : (s.noteOverrun x).bm = s.bm := rfl
@[simp] theorem State.noteOverrun_pBusy (x : Bool) : (s.noteOverrun x).pBusy = s.pBusy := rfl
@[simp] theorem State.noteOverrun_cBusy (x : Bool) : (s.noteOverrun x).cBusy = s.cBusy := rfl
@[simp] theorem State.noteOverrun_pQueue (x : Bool) : (s.noteOverrun x).pQueue = s.pQueue := rfl
@[simp] theorem State.noteOverrun_cQueue (x : Bool) : (s.noteOverrun x).cQueue = s.cQueue := rfl
@[simp] theorem State.noteOverrun_sched (x : Bool) : (s.noteOverrun x).sched = s.sched := rfl
@[simp] theorem State.noteOverrun_pAnswers (x : Bool) : (s.noteOverrun x).pAnswers = s.pAnswers := rfl
@[simp] theorem State.noteOverrun_cAnswers (x : Bool) : (s.noteOverrun x).cAnswers = s.cAnswers := rfl
@[simp] theorem State.noteOverrun_draws (x : Bool) : (s.noteOverrun x).draws = s.draws := rfl
@[simp] theorem State.noteOverrun_runFaulted (x : Bool) : (s.noteOverrun x).runFaulted = (s.runFaulted || x) := rfl

/-- Nothing to record, nothing changed. -/
@[simp] theorem State.noteOverrun_false : s.noteOverrun false = s := by simp [State.noteOverrun]

@[simp] theorem State.answer_p_par (st : Status) (v : Value) : (s.answer .p st v).par = s.par := rfl
@[simp] theorem State.answer_p_ring (st : Status) (v : Value) : (s.answer .p st v).ring = s.ring := rfl
@[simp] theorem State.answer_p_dec (st : Status) (v : Value) : (s.answer .p st v).dec = s.dec := rfl
@[simp] theorem State.answer_p_enc (st : Status) (v : Value) : (s.answer .p st v).enc = s.enc := rfl
@[simp] theorem State.answer_p_bm (st : Status) (v : Value) : (s.answer .p st v).bm = s.bm := rfl
@[simp] theorem State.answer_p_pBusy (st : Status) (v : Value) : (s.answer .p st v).pBusy = none := rfl
@[simp] theorem State.answer_p_cBusy (st : Status) (v : Value) : (s.answer .p st v).cBusy = s.cBusy := rfl
@[simp] theorem State.answer_p_pQueue (st : Status) (v : Value) : (s.answer .p st v).pQueue = s.pQueue := rfl
@[simp] theorem State.answer_p_cQueue (st : Status) (v : Value) : (s.answer .p st v).cQueue = s.cQueue := rfl
@[simp] theorem State.answer_p_sched (st : Status) (v : Value) : (s.answer .p st v).sched = s.sched := rfl
@[simp] theorem State.answer_p_pAnswers (st : Status) (v : Value) : (s.answer .p st v).pAnswers = ⟨st, v⟩ :: s.pAnswers := rfl
@[simp] theorem State.answer_p_cAnswers (st : Status) (v : Value) : (s.answer .p st v).cAnswers = s.cAnswers := rfl
@[simp] theorem State.answer_p_draws (st : Status) (v : Value) : (s.answer .p st v).draws = s.draws := rfl
@[simp] theorem State.answer_p_runFaulted (st : Status) (v : Value) : (s.answer .p st v).runFaulted = s.runFaulted := rfl

@[simp] theorem State.answer_c_par (st : Status) (v : Value) : (s.answer .c st v).par = s.par := rfl
@[simp] theorem State.answer_c_ring (st : Status) (v : Value) : (s.answer .c st v).ring = s.ring := rfl
@[simp] theorem State.answer_c_dec (st : Status) (v : Value) : (s.answer .c st v).dec = s.dec := rfl
@[simp] theorem State.answer_c_enc (st : Status) (v : Value) : (s.answer .c st v).enc = s.enc := rfl
@[simp] theorem State.answer_c_bm (st : Status) (v : Value) : (s.answer .c st v).bm = s.bm := rfl
@[simp] theorem State.answer_c_pBusy (st : Status) (v : Value) : (s.answer .c st v).pBusy = s.pBusy := rfl
@[simp] theorem State.answer_c_cBusy (st : Status) (v : Value) : (s.answer .c st v).cBusy = none := rfl
@[simp] theorem State.answer_c_pQueue (st : Status) (v : Value) : (s.answer .c st v).pQueue = s.pQueue := rfl
@[simp] theorem State.answer_c_cQueue (st : Status) (v : Value) : (s.answer .c st v).cQueue = s.cQueue := rfl
@[simp] theorem State.answer_c_sched (st : Status) (v : Value) : (s.answer .c st v).sched = s.sched := rfl
@[simp] theorem State.answer_c_pAnswers (st : Status) (v : Value) : (s.answer .c st v).pAnswers = s.pAnswers := rfl
@[simp] theorem State.answer_c_cAnswers (st : Status) (v : Value) : (s.answer .c st v).cAnswers = ⟨st, v⟩ :: s.cAnswers := rfl
@[simp] theorem State.answer_c_draws (st : Status) (v : Value) : (s.answer .c st v).draws = s.draws := rfl
@[simp] theorem State.answer_c_runFaulted (st : Status) (v : Value) : (s.answer .c st v).runFaulted = s.runFaulted := rfl

@[simp] theorem State.answer_par (port : Port) (st : Status) (v : Value) : (s.answer port st v).par = s.par := by
  cases port <;> rfl
@[simp] theorem State.answer_ring (port : Port) (st : Status) (v : Value) : (s.answer port st v).ring = s.ring := by
  cases port <;> rfl
@[simp] theorem State.answer_dec (port : Port) (st : Status) (v : Value) : (s.answer port st v).dec = s.dec := by
  cases port <;> rfl
@[simp] theorem State.answer_enc (port : Port) (st : Status) (v : Value) : (s.answer port st v).enc = s.enc := by
  cases port <;> rfl
@[simp] theorem State.answer_bm (port : Port) (st : Status) (v : Value) : (s.answer port st v).bm = s.bm := by
  cases port <;> rfl
@[simp] theorem State.answer_pQueue (port : Port) (st : Status) (v : Value) : (s.answer port st v).pQueue = s.pQueue := by
  cases port <;> rfl
@[simp] theorem State.answer_cQueue (port : Port) (st : Status) (v : Value) : (s.answer port st v).cQueue = s.cQueue := by
  cases port <;> rfl
@[simp] theorem State.answer_sched (port : Port) (st : Status) (v : Value) : (s.answer port st v).sched = s.sched := by
  cases port <;> rfl
@[simp] theorem State.answer_draws (port : Port) (st : Status) (v : Value) : (s.answer port st v).draws = s.draws := by
  cases port <;> rfl
@[simp] theorem State.answer_runFaulted (port : Port) (st : Status) (v : Value) : (s.answer port st v).runFaulted = s.runFaulted := by
  cases port <;> rfl

/-! The answer of a ring command: the value while no RingOverrun is recorded, else a draw of its width. -/

theorem State.answerRing_sound {s : State} (port : Port) (w : Nat) (v : Value) (h : s.ring.overrun = false) :
    s.answerRing port w v = s.answer port .ok v := by
  simp [State.answerRing, h]

theorem State.answerRing_overrun {s : State} (port : Port) (w : Nat) (v : Value) (h : s.ring.overrun = true) :
    s.answerRing port w v = (s.drew 1).answer port .ok (freeValue s.draws w) := by
  simp [State.answerRing, h]

@[simp] theorem State.answerRing_par (port : Port) (w : Nat) (v : Value) : (s.answerRing port w v).par = s.par := by
  unfold State.answerRing; split <;> simp
@[simp] theorem State.answerRing_ring (port : Port) (w : Nat) (v : Value) : (s.answerRing port w v).ring = s.ring := by
  unfold State.answerRing; split <;> simp
@[simp] theorem State.answerRing_dec (port : Port) (w : Nat) (v : Value) : (s.answerRing port w v).dec = s.dec := by
  unfold State.answerRing; split <;> simp
@[simp] theorem State.answerRing_enc (port : Port) (w : Nat) (v : Value) : (s.answerRing port w v).enc = s.enc := by
  unfold State.answerRing; split <;> simp
@[simp] theorem State.answerRing_bm (port : Port) (w : Nat) (v : Value) : (s.answerRing port w v).bm = s.bm := by
  unfold State.answerRing; split <;> simp
@[simp] theorem State.answerRing_pQueue (port : Port) (w : Nat) (v : Value) : (s.answerRing port w v).pQueue = s.pQueue := by
  unfold State.answerRing; split <;> simp
@[simp] theorem State.answerRing_cQueue (port : Port) (w : Nat) (v : Value) : (s.answerRing port w v).cQueue = s.cQueue := by
  unfold State.answerRing; split <;> simp
@[simp] theorem State.answerRing_runFaulted (port : Port) (w : Nat) (v : Value) :
    (s.answerRing port w v).runFaulted = s.runFaulted := by
  unfold State.answerRing; split <;> simp
@[simp] theorem State.answerRing_sched (port : Port) (w : Nat) (v : Value) : (s.answerRing port w v).sched = s.sched := by
  unfold State.answerRing; split <;> simp
@[simp] theorem State.answerRing_p_pBusy (w : Nat) (v : Value) : (s.answerRing .p w v).pBusy = none := by
  unfold State.answerRing; split <;> simp
@[simp] theorem State.answerRing_p_cBusy (w : Nat) (v : Value) : (s.answerRing .p w v).cBusy = s.cBusy := by
  unfold State.answerRing; split <;> simp
@[simp] theorem State.answerRing_p_cAnswers (w : Nat) (v : Value) : (s.answerRing .p w v).cAnswers = s.cAnswers := by
  unfold State.answerRing; split <;> simp
@[simp] theorem State.answerRing_c_cBusy (w : Nat) (v : Value) : (s.answerRing .c w v).cBusy = none := by
  unfold State.answerRing; split <;> simp
@[simp] theorem State.answerRing_c_pBusy (w : Nat) (v : Value) : (s.answerRing .c w v).pBusy = s.pBusy := by
  unfold State.answerRing; split <;> simp
@[simp] theorem State.answerRing_c_pAnswers (w : Nat) (v : Value) : (s.answerRing .c w v).pAnswers = s.pAnswers := by
  unfold State.answerRing; split <;> simp

/-- A free cursor is a legal one (R24, R25). -/
theorem freeCursor_lt {q : Params} (n : Nat) (h : q.Legal) : (freeCursor q n).toNat < q.ringSize := by
  obtain ⟨⟨h1, h2⟩, -⟩ := h
  have := Nat.mod_lt (Config.freeWord n).toNat (show 0 < q.ringSize by omega)
  simp only [freeCursor, BitVec.toNat_ofNat]
  omega

/-- A free value fits the width it was drawn for. -/
theorem freeValue_lt (n w : Nat) : (freeValue n w).toNat < 2 ^ w := by
  have : 0 < 2 ^ w := Nat.two_pow_pos w
  simp only [freeValue, BitVec.toNat_ofNat]
  exact Nat.lt_of_le_of_lt (Nat.mod_le _ _) (Nat.mod_lt _ this)

@[simp] theorem State.decOk_par (d : Decoder) : (s.decOk d).par = s.par := rfl
@[simp] theorem State.decOk_ring (d : Decoder) : (s.decOk d).ring = s.ring := rfl
@[simp] theorem State.decOk_dec (d : Decoder) : (s.decOk d).dec = { d with status := .ok, statusSet := true } := rfl
@[simp] theorem State.decOk_enc (d : Decoder) : (s.decOk d).enc = s.enc := rfl
@[simp] theorem State.decOk_bm (d : Decoder) : (s.decOk d).bm = s.bm := rfl
@[simp] theorem State.decOk_pBusy (d : Decoder) : (s.decOk d).pBusy = s.pBusy := rfl
@[simp] theorem State.decOk_cBusy (d : Decoder) : (s.decOk d).cBusy = none := rfl
@[simp] theorem State.decOk_pQueue (d : Decoder) : (s.decOk d).pQueue = s.pQueue := rfl
@[simp] theorem State.decOk_cQueue (d : Decoder) : (s.decOk d).cQueue = s.cQueue := rfl
@[simp] theorem State.decOk_sched (d : Decoder) : (s.decOk d).sched = s.sched := rfl
@[simp] theorem State.decOk_pAnswers (d : Decoder) : (s.decOk d).pAnswers = s.pAnswers := rfl
@[simp] theorem State.decOk_cAnswers (d : Decoder) : (s.decOk d).cAnswers = ⟨.ok, 0#32⟩ :: s.cAnswers := rfl
@[simp] theorem State.decOk_draws (d : Decoder) : (s.decOk d).draws = s.draws := rfl
@[simp] theorem State.decOk_runFaulted (d : Decoder) : (s.decOk d).runFaulted = s.runFaulted := rfl

@[simp] theorem State.decRaise_par (e : Status) : (s.decRaise e).par = s.par := rfl
@[simp] theorem State.decRaise_ring (e : Status) : (s.decRaise e).ring = s.ring := rfl
@[simp] theorem State.decRaise_dec (e : Status) : (s.decRaise e).dec = { s.dec with state := .idle, idx := 0#16, status := e, statusSet := true } := rfl
@[simp] theorem State.decRaise_enc (e : Status) : (s.decRaise e).enc = s.enc := rfl
@[simp] theorem State.decRaise_bm (e : Status) : (s.decRaise e).bm = s.bm := rfl
@[simp] theorem State.decRaise_pBusy (e : Status) : (s.decRaise e).pBusy = s.pBusy := rfl
@[simp] theorem State.decRaise_cBusy (e : Status) : (s.decRaise e).cBusy = none := rfl
@[simp] theorem State.decRaise_pQueue (e : Status) : (s.decRaise e).pQueue = s.pQueue := rfl
@[simp] theorem State.decRaise_cQueue (e : Status) : (s.decRaise e).cQueue = s.cQueue := rfl
@[simp] theorem State.decRaise_sched (e : Status) : (s.decRaise e).sched = s.sched := rfl
@[simp] theorem State.decRaise_pAnswers (e : Status) : (s.decRaise e).pAnswers = s.pAnswers := rfl
@[simp] theorem State.decRaise_cAnswers (e : Status) : (s.decRaise e).cAnswers = ⟨e, 0#32⟩ :: s.cAnswers := rfl
@[simp] theorem State.decRaise_draws (e : Status) : (s.decRaise e).draws = s.draws := rfl
@[simp] theorem State.decRaise_runFaulted (e : Status) : (s.decRaise e).runFaulted = s.runFaulted := rfl

@[simp] theorem State.encFail_par (e : Status) : (s.encFail e).par = s.par := rfl
@[simp] theorem State.encFail_ring (e : Status) : (s.encFail e).ring = s.ring := rfl
@[simp] theorem State.encFail_dec (e : Status) : (s.encFail e).dec = s.dec := rfl
@[simp] theorem State.encFail_enc (e : Status) : (s.encFail e).enc = { status := e, len := 0#16 } := rfl
@[simp] theorem State.encFail_bm (e : Status) : (s.encFail e).bm = s.bm := rfl
@[simp] theorem State.encFail_pBusy (e : Status) : (s.encFail e).pBusy = s.pBusy := rfl
@[simp] theorem State.encFail_cBusy (e : Status) : (s.encFail e).cBusy = none := rfl
@[simp] theorem State.encFail_pQueue (e : Status) : (s.encFail e).pQueue = s.pQueue := rfl
@[simp] theorem State.encFail_cQueue (e : Status) : (s.encFail e).cQueue = s.cQueue := rfl
@[simp] theorem State.encFail_sched (e : Status) : (s.encFail e).sched = s.sched := rfl
@[simp] theorem State.encFail_pAnswers (e : Status) : (s.encFail e).pAnswers = s.pAnswers := rfl
@[simp] theorem State.encFail_cAnswers (e : Status) : (s.encFail e).cAnswers = ⟨e, 0#32⟩ :: s.cAnswers := rfl
@[simp] theorem State.encFail_draws (e : Status) : (s.encFail e).draws = s.draws := rfl
@[simp] theorem State.encFail_runFaulted (e : Status) : (s.encFail e).runFaulted = s.runFaulted := rfl

@[simp] theorem State.hardReset_par : s.hardReset.par = s.par := rfl
@[simp] theorem State.hardReset_ring : s.hardReset.ring = Ring.reset := rfl
@[simp] theorem State.hardReset_dec : s.hardReset.dec = Decoder.reset := rfl
@[simp] theorem State.hardReset_enc : s.hardReset.enc = Encoder.reset := rfl
@[simp] theorem State.hardReset_bm : s.hardReset.bm = s.bm := rfl
@[simp] theorem State.hardReset_pBusy : s.hardReset.pBusy = none := rfl
@[simp] theorem State.hardReset_cBusy : s.hardReset.cBusy = none := rfl
@[simp] theorem State.hardReset_pQueue : s.hardReset.pQueue = s.pQueue := rfl
@[simp] theorem State.hardReset_cQueue : s.hardReset.cQueue = s.cQueue := rfl
@[simp] theorem State.hardReset_sched : s.hardReset.sched = s.sched := rfl
@[simp] theorem State.hardReset_pAnswers : s.hardReset.pAnswers = s.pAnswers := rfl
@[simp] theorem State.hardReset_cAnswers : s.hardReset.cAnswers = s.cAnswers := rfl
@[simp] theorem State.hardReset_draws : s.hardReset.draws = s.draws := rfl
@[simp] theorem State.hardReset_runFaulted : s.hardReset.runFaulted = false := rfl

@[simp] theorem State.moved_par : s.moved.par = s.par := rfl
@[simp] theorem State.moved_ring : s.moved.ring = s.ring := rfl
@[simp] theorem State.moved_dec : s.moved.dec = s.dec := rfl
@[simp] theorem State.moved_enc : s.moved.enc = s.enc := rfl
@[simp] theorem State.moved_bm : s.moved.bm = s.bm := rfl
@[simp] theorem State.moved_pBusy : s.moved.pBusy = s.pBusy := rfl
@[simp] theorem State.moved_cBusy : s.moved.cBusy = s.cBusy := rfl
@[simp] theorem State.moved_pQueue : s.moved.pQueue = s.pQueue := rfl
@[simp] theorem State.moved_cQueue : s.moved.cQueue = s.cQueue := rfl
@[simp] theorem State.moved_sched : s.moved.sched = s.sched.tail := rfl
@[simp] theorem State.moved_pAnswers : s.moved.pAnswers = s.pAnswers := rfl
@[simp] theorem State.moved_cAnswers : s.moved.cAnswers = s.cAnswers := rfl
@[simp] theorem State.moved_draws : s.moved.draws = if s.choiceIsFree then s.draws + 1 else s.draws := rfl
@[simp] theorem State.moved_runFaulted : s.moved.runFaulted = s.runFaulted := rfl

/-! The end of a run (R233). -/

theorem State.hasWork_p_eq_false : s.hasWork .p = false ↔ s.pBusy = none ∧ s.pQueue = [] := by
  simp [State.hasWork]

theorem State.hasWork_c_eq_false : s.hasWork .c = false ↔ s.cBusy = none ∧ s.cQueue = [] := by
  simp [State.hasWork]

/-- A run that has ended has no port to move. -/
theorem State.mover_eq_none : s.mover = none ↔ s.runEnded = true := by
  unfold State.mover State.runEnded
  cases s.hasWork .p <;> cases s.hasWork .c <;> simp
  split <;> simp

/-- After a recorded fault no end is good. -/
theorem State.goodEnd_faulted {s : State} (h : s.runFaulted = true) : s.goodEnd = false := by
  simp [State.goodEnd, h]

end Sys2Proof.Machine
end

