-- ==== Sys2Proof/Laws/Memory.lean ====
section
/-! SUPPORT. The laws of a memory: read after write, the canonical form, free fills; and BM as the block reads it. -/

namespace Sys2Proof.Machine

@[simp] theorem Memory.get_nil (a : Nat) : Memory.get [] a = none := rfl

theorem Memory.get_cons (k : Nat) (v : Byte) (m : Memory) (a : Nat) :
    Memory.get ((k, v) :: m) a = if k = a then some v else Memory.get m a := rfl

/-- A read after a write: the byte written at its address, what was there elsewhere. -/
theorem Memory.get_set (m : Memory) (a b : Nat) (v : Byte) :
    Memory.get (Memory.set m a v) b = if a = b then some v else Memory.get m b := by
  induction m with
  | nil => simp [Memory.set, Memory.get_cons]
  | cons c m ih =>
    obtain ⟨k, w⟩ := c
    unfold Memory.set
    split
    · simp [Memory.get_cons]
    · split
      · next h => subst h; simp only [Memory.get_cons]; split <;> rfl
      · next h =>
        simp only [Memory.get_cons, ih]
        split
        · next hk => subst hk; simp [h]
        · rfl

@[simp] theorem Memory.get_set_same (m : Memory) (a : Nat) (v : Byte) : Memory.get (Memory.set m a v) a = some v := by
  simp [Memory.get_set]

theorem Memory.get_set_other (m : Memory) {a b : Nat} (v : Byte) (h : a ≠ b) :
    Memory.get (Memory.set m a v) b = Memory.get m b := by
  simp [Memory.get_set, h]

theorem Memory.risesFrom_mono {lo lo' : Nat} {m : Memory} (h : lo' ≤ lo) (hm : Memory.risesFrom lo m = true) :
    Memory.risesFrom lo' m = true := by
  cases m with
  | nil => rfl
  | cons c m =>
    obtain ⟨k, v⟩ := c
    simp only [Memory.risesFrom, Bool.and_eq_true, decide_eq_true_eq] at hm ⊢
    exact ⟨by omega, hm.2⟩

theorem Memory.risesFrom_set {lo a : Nat} {m : Memory} {v : Byte} (hm : Memory.risesFrom lo m = true) (ha : lo ≤ a) :
    Memory.risesFrom lo (Memory.set m a v) = true := by
  induction m generalizing lo with
  | nil => simp [Memory.set, Memory.risesFrom, ha]
  | cons c m ih =>
    obtain ⟨k, w⟩ := c
    simp only [Memory.risesFrom, Bool.and_eq_true, decide_eq_true_eq] at hm
    unfold Memory.set
    split
    · simp only [Memory.risesFrom, Bool.and_eq_true, decide_eq_true_eq]; exact ⟨ha, by omega, hm.2⟩
    · split
      · next h => subst h; simpa [Memory.risesFrom, ha] using hm.2
      · simp only [Memory.risesFrom, Bool.and_eq_true, decide_eq_true_eq]
        exact ⟨hm.1, ih hm.2 (by omega)⟩

/-- A write keeps the canonical form. -/
theorem Memory.wf_set {m : Memory} (a : Nat) (v : Byte) (hm : Memory.wf m = true) :
    Memory.wf (Memory.set m a v) = true := Memory.risesFrom_set hm (Nat.zero_le a)

/-- A write below a bound keeps the addresses below it. -/
theorem Memory.below_set {bound a : Nat} {m : Memory} (v : Byte) (hm : Memory.below bound m = true) (ha : a < bound) :
    Memory.below bound (Memory.set m a v) = true := by
  induction m with
  | nil => simp [Memory.set, Memory.below, ha]
  | cons c m ih =>
    obtain ⟨k, w⟩ := c
    simp only [Memory.below, List.all_cons, Bool.and_eq_true, decide_eq_true_eq] at hm ih ⊢
    unfold Memory.set
    split
    · simp [ha, hm.1]; simpa using hm.2
    · split
      · simp [ha]; simpa using hm.2
      · simp [hm.1]; simpa using ih hm.2

theorem Memory.get_none_of_risesFrom {lo a : Nat} {m : Memory} (hm : Memory.risesFrom lo m = true) (ha : a < lo) :
    Memory.get m a = none := by
  induction m generalizing lo with
  | nil => rfl
  | cons c m ih =>
    obtain ⟨k, v⟩ := c
    simp only [Memory.risesFrom, Bool.and_eq_true, decide_eq_true_eq] at hm
    rw [Memory.get_cons, if_neg (by omega), ih hm.2 (by omega)]

/-- Two canonical memories that hold the same bytes are the same list. -/
theorem Memory.eq_of_get_eq {lo : Nat} {m m' : Memory} (hm : Memory.risesFrom lo m = true)
    (hm' : Memory.risesFrom lo m' = true) (h : ∀ a, Memory.get m a = Memory.get m' a) : m = m' := by
  induction m generalizing lo m' with
  | nil =>
    cases m' with
    | nil => rfl
    | cons c m' => obtain ⟨k, v⟩ := c; have := h k; simp [Memory.get_cons] at this
  | cons c m ih =>
    obtain ⟨k, v⟩ := c
    cases m' with
    | nil => have := h k; simp [Memory.get_cons] at this
    | cons c' m' =>
      obtain ⟨k', v'⟩ := c'
      simp only [Memory.risesFrom, Bool.and_eq_true, decide_eq_true_eq] at hm hm'
      have hk : k = k' := by
        rcases Nat.lt_trichotomy k k' with hlt | heq | hgt
        · have := h k
          rw [Memory.get_cons, if_pos rfl, Memory.get_cons, if_neg (by omega),
            Memory.get_none_of_risesFrom hm'.2 (by omega)] at this
          simp at this
        · exact heq
        · have := h k'
          rw [Memory.get_cons, if_neg (by omega), Memory.get_cons, if_pos rfl,
            Memory.get_none_of_risesFrom hm.2 (by omega)] at this
          simp at this
      subst hk
      have hv : v = v' := by have := h k; simpa [Memory.get_cons] using this
      subst hv
      have : m = m' := by
        refine ih hm.2 hm'.2 (fun a => ?_)
        by_cases ha : k = a
        · subst ha
          rw [Memory.get_none_of_risesFrom hm.2 (by omega), Memory.get_none_of_risesFrom hm'.2 (by omega)]
        · have := h a; simpa [Memory.get_cons, ha] using this
      rw [this]

/-! Free fills (93 U13). -/

/-- A free fill touches its own addresses only. -/
theorem Memory.get_setFree_outside (m : Memory) (a n d b : Nat) (h : ¬(a ≤ b ∧ b < a + n)) :
    Memory.get (Memory.setFree m a n d) b = Memory.get m b := by
  induction n generalizing m a d with
  | zero => rfl
  | succ n ih =>
    rw [Memory.setFree, ih _ _ _ (by omega), Memory.get_set_other _ _ (by omega)]

theorem Memory.wf_setFree {m : Memory} (a n d : Nat) (hm : Memory.wf m = true) :
    Memory.wf (Memory.setFree m a n d) = true := by
  induction n generalizing m a d with
  | zero => exact hm
  | succ n ih => exact ih _ _ (Memory.wf_set _ _ hm)

theorem Memory.below_setFree {bound : Nat} {m : Memory} (a n d : Nat) (hm : Memory.below bound m = true)
    (h : a + n ≤ bound) : Memory.below bound (Memory.setFree m a n d) = true := by
  induction n generalizing m a d with
  | zero => exact hm
  | succ n ih => exact ih _ _ (Memory.below_set _ hm (by omega)) (by omega)

/-! BM as the block reads it. -/

theorem State.bmRead_congr {s t : State} {a : Nat} (h : Memory.get t.bm a = Memory.get s.bm a) :
    t.bmRead a = s.bmRead a := by simp [State.bmRead, h]

/-- A read after one write to BM. -/
theorem State.bmRead_set {s t : State} {a : Nat} {v : Byte} (h : t.bm = Memory.set s.bm a v) (b : Nat) :
    t.bmRead b = if a = b then v else s.bmRead b := by
  simp only [State.bmRead, h, Memory.get_set]; split <;> rfl

@[simp] theorem State.bmReads_zero (s : State) (a : Nat) : s.bmReads a 0 = [] := rfl

theorem State.bmReads_succ (s : State) (a n : Nat) : s.bmReads a (n + 1) = s.bmRead a :: s.bmReads (a + 1) n := rfl

@[simp] theorem State.length_bmReads (s : State) (a n : Nat) : (s.bmReads a n).length = n := by
  induction n generalizing a with
  | zero => rfl
  | succ n ih => simp [State.bmReads_succ, ih]

/-- Equal bytes, equal reads. -/
theorem State.bmReads_congr {s t : State} (a n : Nat) (h : ∀ x, a ≤ x → x < a + n → t.bmRead x = s.bmRead x) :
    t.bmReads a n = s.bmReads a n := by
  induction n generalizing a with
  | zero => rfl
  | succ n ih =>
    rw [State.bmReads_succ, State.bmReads_succ, h a (by omega) (by omega),
      ih (a + 1) (fun x h1 h2 => h x (by omega) (by omega))]

/-- A read of consecutive bytes falls into two. -/
theorem State.bmReads_add (s : State) (a n m : Nat) : s.bmReads a (n + m) = s.bmReads a n ++ s.bmReads (a + n) m := by
  induction n generalizing a with
  | zero => simp
  | succ n ih =>
    rw [Nat.succ_add, State.bmReads_succ, State.bmReads_succ, ih, List.cons_append]
    congr 3; omega

/-- Reads that agree with a list byte by byte are the list. -/
theorem State.bmReads_eq_of_get {s : State} {a : Nat} {l : List Byte}
    (h : ∀ i (hi : i < l.length), s.bmRead (a + i) = l[i]) : s.bmReads a l.length = l := by
  induction l generalizing a with
  | nil => rfl
  | cons x l ih =>
    rw [List.length_cons, State.bmReads_succ]
    have h0 := h 0 (by simp)
    simp at h0
    rw [h0, ih (fun i hi => ?_)]
    have := h (i + 1) (by simpa using hi)
    simpa [Nat.add_assoc, Nat.add_comm 1 i] using this

end Sys2Proof.Machine
end

