-- ==== Sys2Proof/Laws/Accept.lean ====
section
/-! SUPPORT. What accepting a command can lead to, and what one step can do. -/

namespace Sys2Proof.Machine

/-- A command that answers was accepted on an idle port, and its own part answered. -/
theorem accept_next {port : Port} {s t : State} {k : Result} (h : accept port s k = .next t) :
    s.busy port = false ∧ k = .next t := by
  unfold accept at h
  split at h
  · cases h
  · next hb => exact ⟨by simpa using hb, h⟩

@[simp] theorem accept_idle {port : Port} {s : State} (k : Result) (h : s.busy port = false) : accept port s k = k := by
  simp [accept, h]

@[simp] theorem State.busy_p (s : State) : s.busy .p = s.pBusy.isSome := rfl

@[simp] theorem State.busy_c (s : State) : s.busy .c = s.cBusy.isSome := rfl

/-- With port C idle no RB_INIT runs. -/
theorem State.initRunning_idle {s : State} (h : s.cBusy = none) : s.initRunning = false := by
  simp [State.initRunning, h]

/-- A ring command that answers was accepted on an idle port of an initialised ring, port P not during RB_INIT. -/
theorem acceptRing_next {port : Port} {s t : State} {k : Result} (h : acceptRing port s k = .next t) :
    s.busy port = false ∧ s.ring.inited = true ∧ (port = .p → s.initRunning = false) ∧ k = .next t := by
  obtain ⟨hb, h⟩ := accept_next h
  split at h
  · cases h
  · next hp =>
    split at h
    · exact ⟨hb, ‹_›, by simpa using hp, h⟩
    · cases h

theorem acceptRing_ready {port : Port} {s : State} (k : Result) (hb : s.busy port = false)
    (hi : s.ring.inited = true) (hp : port = .p → s.initRunning = false) : acceptRing port s k = k := by
  cases port <;> simp_all [acceptRing]

/-- Everything a step can do when it answers a next state: a hardware reset, nothing, a micro-step of a port's command
in progress, a host write, or a port's next command. -/
theorem step_cases {s t : State} (h : step s = .next t) :
    (∃ rest, s.sched = .reset :: rest ∧ t = State.hardReset { s with sched := rest })
    ∨ (s.sched.head? ≠ some .reset ∧
        ((s.mover = none ∧ t = s.moved)
        ∨ (∃ g, s.mover = some .p ∧ s.pBusy = some g ∧ microP g s.moved = .next t)
        ∨ (∃ g, s.mover = some .c ∧ s.cBusy = some g ∧ microC g s.moved = .next t)
        ∨ (∃ a b rest, s.mover = some .c ∧ s.cBusy = none ∧ s.cQueue = .write a b :: rest
            ∧ hostWrite a b { s.moved with cQueue := rest } = .next t)
        ∨ (∃ pkt rest, s.mover = some .p ∧ s.pBusy = none ∧ s.pQueue = pkt :: rest
            ∧ exec (decode .p pkt) { s.moved with pQueue := rest } = .next t)
        ∨ (∃ pkt rest, s.mover = some .c ∧ s.cBusy = none ∧ s.cQueue = .command pkt :: rest
            ∧ exec (decode .c pkt) { s.moved with cQueue := rest } = .next t))) := by
  unfold step nextAction at h
  split at h
  · next r hr =>
    split at hr
    · next rest hs => cases hr; cases h; exact .inl ⟨rest, hs, rfl⟩
    · next hs =>
      refine .inr ⟨?_, ?_⟩
      · cases hsc : s.sched with
        | nil => simp
        | cons a l => cases a <;> simp_all
      split at hr
      · next hm => cases hr; cases h; exact .inl ⟨hm, rfl⟩
      · next port hm =>
        cases port with
        | p =>
          simp only [portAction, State.moved_pBusy, State.moved_pQueue] at hr
          split at hr
          · next _ g hb => cases hr; exact .inr (.inl ⟨g, hm, hb, h⟩)
          · cases hr
          · next hb hq =>
            cases hr; cases h
            exfalso
            simp only [State.mover, State.hasWork, hb, hq] at hm
            cases hc : (s.cBusy.isSome || !s.cQueue.isEmpty) <;> simp [hc] at hm
        | c =>
          simp only [portAction, State.moved_cBusy, State.moved_cQueue] at hr
          split at hr
          · next _ g hb => cases hr; exact .inr (.inr (.inl ⟨g, hm, hb, h⟩))
          · cases hr
          · next a b rest hb hq => cases hr; exact .inr (.inr (.inr (.inl ⟨a, b, rest, hm, hb, hq, h⟩)))
          · next hb hq =>
            cases hr; cases h
            exfalso
            simp only [State.mover, State.hasWork, hb, hq] at hm
            cases hp : (s.pBusy.isSome || !s.pQueue.isEmpty) <;> simp [hp] at hm
  · next i u hr =>
    split at hr
    · cases hr
    · next hs =>
      refine .inr ⟨?_, ?_⟩
      · cases hsc : s.sched with
        | nil => simp
        | cons a l => cases a <;> simp_all
      split at hr
      · cases hr
      · next port hm =>
        cases port with
        | p =>
          simp only [portAction, State.moved_pBusy, State.moved_pQueue] at hr
          split at hr
          · cases hr
          · next pkt rest hb hq => cases hr; exact .inr (.inr (.inr (.inr (.inl ⟨pkt, rest, hm, hb, hq, h⟩))))
          · cases hr
        | c =>
          simp only [portAction, State.moved_cBusy, State.moved_cQueue] at hr
          split at hr
          · cases hr
          · next pkt rest hb hq => cases hr; exact .inr (.inr (.inr (.inr (.inr ⟨pkt, rest, hm, hb, hq, h⟩))))
          · cases hr
          · cases hr

/-- A host write that happens writes its byte, inside BM and outside the region in use (R79). -/
theorem hostWrite_next {a : Nat} {b : Byte} {s t : State} (h : hostWrite a b s = .next t) :
    a < 2 ^ s.par.addrWidth
      ∧ ¬(s.dec.live = true ∧ regionsMeet s.dec.buf.toNat s.dec.cap.toNat a 1 = true)
      ∧ t = s.withBm (Memory.set s.bm a b) := by
  unfold hostWrite at h
  split at h
  · cases h
  · split at h
    · cases h
    · cases h; exact ⟨by omega, ‹_›, rfl⟩

end Sys2Proof.Machine
end

