-- ==== Sys2Proof/Laws/Crc.lean ====
section
/-! SUPPORT. The fold, and that REF_CRC has the named property CRC_SINGLE_BIT (41_crc.md R165). -/

namespace Sys2Proof.Machine

theorem crcFoldFrom_append (q : Params) (c : Word16) (l l' : List Byte) :
    crcFoldFrom q c (l ++ l') = crcFoldFrom q (crcFoldFrom q c l) l' := by
  induction l generalizing c with
  | nil => rfl
  | cons b l ih => simp [crcFoldFrom, ih]

/-- One shift of REF_CRC. -/
theorem refCrcShift_succ (n : Nat) (c : Word16) :
    refCrcShift (n + 1) c = refCrcShift n (if c.msb then (c <<< 1) ^^^ 0x1021#16 else c <<< 1) := rfl

/-- One shift is linear over exclusive or. -/
theorem shiftStep_xor (c d : Word16) :
    (if (c ^^^ d).msb then ((c ^^^ d) <<< 1) ^^^ 0x1021#16 else (c ^^^ d) <<< 1)
      = (if c.msb then (c <<< 1) ^^^ 0x1021#16 else c <<< 1) ^^^ (if d.msb then (d <<< 1) ^^^ 0x1021#16 else d <<< 1) := by
  rw [BitVec.msb_xor, BitVec.shiftLeft_xor_distrib]
  cases c.msb <;> cases d.msb <;> simp
  · rw [BitVec.xor_assoc]
  · rw [BitVec.xor_assoc, BitVec.xor_comm (d <<< 1), ← BitVec.xor_assoc]
  · rw [BitVec.xor_assoc, BitVec.xor_comm (d <<< 1) 4129#16, ← BitVec.xor_assoc (4129#16), BitVec.xor_self,
      BitVec.zero_xor]

theorem refCrcShift_xor (n : Nat) (c d : Word16) :
    refCrcShift n (c ^^^ d) = refCrcShift n c ^^^ refCrcShift n d := by
  induction n generalizing c d with
  | zero => rfl
  | succ n ih => rw [refCrcShift_succ, refCrcShift_succ, refCrcShift_succ, shiftStep_xor, ih]

/-- A shift loses nothing: the bit that falls off comes back as bit 0 of the polynomial. -/
theorem shiftStep_eq_zero {c : Word16} (h : (if c.msb then (c <<< 1) ^^^ 0x1021#16 else c <<< 1) = 0#16) : c = 0#16 := by
  cases hm : c.msb with
  | true =>
    simp only [hm, if_true] at h
    have h0 := congrArg (fun x : Word16 => x.getLsbD 0) h
    simp at h0
  | false =>
    simp only [hm, Bool.false_eq_true, if_false] at h
    apply BitVec.eq_of_getLsbD_eq
    intro i hi
    by_cases h15 : i = 15
    · subst h15; rw [BitVec.msb_eq_getLsbD_last] at hm; simpa using hm
    · have h1 := congrArg (fun x : Word16 => x.getLsbD (i + 1)) h
      simp [show i + 1 < 16 by omega] at h1
      rw [BitVec.getLsbD_eq_getElem hi]; simpa using h1

theorem refCrcShift_eq_zero {n : Nat} {c : Word16} (h : refCrcShift n c = 0#16) : c = 0#16 := by
  induction n generalizing c with
  | zero => exact h
  | succ n ih => exact shiftStep_eq_zero (ih h)

theorem refCrc_xor (b b' : Byte) (c c' : Word16) : refCrc (b ^^^ b') (c ^^^ c') = refCrc b c ^^^ refCrc b' c' := by
  unfold refCrc
  rw [← refCrcShift_xor]
  congr 1
  rw [BitVec.setWidth_xor, BitVec.shiftLeft_xor_distrib]
  ac_rfl

theorem refCrc_same_byte_ne {b : Byte} {c c' : Word16} (h : c ≠ c') : refCrc b c ≠ refCrc b c' := by
  intro he
  have hx : refCrcShift 8 ((c ^^^ (b.setWidth 16 <<< 8)) ^^^ (c' ^^^ (b.setWidth 16 <<< 8))) = 0#16 := by
    rw [refCrcShift_xor]; unfold refCrc at he; rw [he, BitVec.xor_self]
  have h0 := refCrcShift_eq_zero hx
  have hcc : c ^^^ c' = 0#16 := by
    rw [← h0]
    have : (c ^^^ (b.setWidth 16 <<< 8)) ^^^ (c' ^^^ (b.setWidth 16 <<< 8))
        = (c ^^^ c') ^^^ ((b.setWidth 16 <<< 8) ^^^ (b.setWidth 16 <<< 8)) := by ac_rfl
    rw [this, BitVec.xor_self, BitVec.xor_zero]
  apply h
  have := congrArg (· ^^^ c') hcc
  simpa [BitVec.xor_assoc] using this

theorem refCrc_one_bit_ne (x : Byte) (c : Word16) {k : Nat} (hk : k < 8) :
    refCrc x c ≠ refCrc (x ^^^ (1#8 <<< k)) c := by
  intro he
  have h1 : refCrc (x ^^^ (1#8 <<< k)) (c ^^^ 0#16) = refCrc x c ^^^ refCrc (1#8 <<< k) 0#16 := refCrc_xor _ _ _ _
  rw [BitVec.xor_zero, ← he] at h1
  have h2 : refCrc (1#8 <<< k) 0#16 = 0#16 := by
    have := congrArg (refCrc x c ^^^ ·) h1
    simpa [← BitVec.xor_assoc] using this.symm
  have : ∀ j : Fin 8, refCrc (1#8 <<< j.val) 0#16 ≠ 0#16 := by decide
  exact this ⟨k, hk⟩ h2

/-- REF_CRC satisfies CRC_SINGLE_BIT (R165). -/
theorem crcSingleBit_reference {q : Params} (h : q.crc = .reference) : CrcSingleBit q := by
  have step : ∀ b c, crcStep q b c = refCrc b c := fun b c => by simp [crcStep, h]
  have apart : ∀ (l : List Byte) (c c' : Word16), c ≠ c' → crcFoldFrom q c l ≠ crcFoldFrom q c' l := by
    intro l
    induction l with
    | nil => exact fun _ _ h => h
    | cons b l ih => exact fun c c' h => ih _ _ (by rw [step, step]; exact refCrc_same_byte_ne h)
  rintro m m' ⟨pre, x, post, k, hk, rfl, rfl⟩
  unfold crcFold
  rw [crcFoldFrom_append, crcFoldFrom_append]
  exact apart post _ _ (by rw [step, step]; exact refCrc_one_bit_ne _ _ hk)

end Sys2Proof.Machine
end

