-- ==== Sys2Proof/Laws/Decoder.lean ====
section
/-! SUPPORT. What the decoder's rows do when they answer a next state, and when they do. -/

namespace Sys2Proof.Machine

/-- A legal region (R64), in words of arithmetic. -/
theorem regionLegal_iff {aw p n : Nat} : regionLegal aw p n = true ↔ p ≠ 0 ∧ p < 2 ^ aw ∧ p + n ≤ 2 ^ aw := by
  simp [regionLegal, and_assoc]

/-- Two regions meet exactly when they share an address (R64). -/
theorem regionsMeet_iff {p n q m : Nat} :
    regionsMeet p n q m = true ↔ ∃ a, (p ≤ a ∧ a < p + n) ∧ (q ≤ a ∧ a < q + m) := by
  simp only [regionsMeet, Bool.and_eq_true, decide_eq_true_eq, bne_iff_ne, ne_eq]
  constructor
  · rintro ⟨⟨⟨h1, h2⟩, h3⟩, h4⟩
    rcases Nat.le_total p q with h | h
    · exact ⟨q, by omega, by omega⟩
    · exact ⟨p, by omega, by omega⟩
  · rintro ⟨a, ⟨h1, h2⟩, h3, h4⟩; omega

/-- A row that answers was selected, on a bound decoder with port C idle. -/
theorem onRow_next {st : DecState} {sel : Bool} {s t : State} {k : Result} (h : onRow st sel s k = .next t) :
    s.cBusy = none ∧ s.dec.bound = true ∧ regionLegal s.par.addrWidth s.dec.buf.toNat s.dec.cap.toNat = true
      ∧ s.dec.state = st ∧ sel = true ∧ k = .next t := by
  obtain ⟨hb, h⟩ := accept_next h
  split at h
  · cases h
  · next h1 =>
    split at h
    · cases h
    · next h2 =>
      split at h
      · next h3 => exact ⟨by simpa using hb, by simpa using h1, by simpa using h2, h3.1, h3.2, h⟩
      · cases h

/-- A selected row runs. -/
theorem onRow_ready {st : DecState} {sel : Bool} {s : State} (k : Result) (hb : s.cBusy = none)
    (hd : s.dec.bound = true) (hr : regionLegal s.par.addrWidth s.dec.buf.toNat s.dec.cap.toNat = true)
    (hs : s.dec.state = st) (hsel : sel = true) : onRow st sel s k = k := by
  simp [onRow, accept, hb, hd, hr, hs, hsel]

/-- A row that reads the body answers only from inside the buffer. -/
theorem readingBody_next {s t : State} {k : Result} (h : readingBody s k = .next t) :
    s.dec.idx.toNat ≤ s.dec.cap.toNat ∧ k = .next t := by
  unfold readingBody at h
  split at h
  · cases h
  · exact ⟨by omega, h⟩

/-- What an append does (R197): OVERFLOW at the capacity, else one byte stored. -/
theorem State.decAppend_cases (s : State) (x : Byte) :
    (s.dec.cap.toNat ≤ s.dec.idx.toNat ∧ s.decAppend x = s.decRaise .overflow)
    ∨ (s.dec.idx.toNat < s.dec.cap.toNat
        ∧ s.decAppend x = (s.withBm (Memory.set s.bm (s.dec.buf.toNat + s.dec.idx.toNat) x)).decOk
            { s.dec with idx := s.dec.idx + 1#16, state := .receiving }) := by
  unfold State.decAppend
  split
  · exact .inl ⟨‹_›, rfl⟩
  · exact .inr ⟨by omega, rfl⟩

/-- An index that is neither 0 nor 1 is 2 or more. -/
theorem idx_two {i : Word16} : 2 ≤ i.toNat ↔ i ≠ 0#16 ∧ i ≠ 1#16 := by
  simp only [ne_eq, ← BitVec.toNat_inj, BitVec.toNat_ofNat]; omega

theorem State.fendCase_noBody {s : State} : s.fendCase = .noBody ↔ s.dec.idx = 0#16 := by
  unfold State.fendCase; repeat' split
  all_goals simp_all

theorem State.fendCase_oneByte {s : State} : s.fendCase = .oneByte ↔ s.dec.idx = 1#16 := by
  unfold State.fendCase; repeat' split
  all_goals simp_all

theorem State.fendCase_crcGood {s : State} : s.fendCase = .crcGood ↔ 2 ≤ s.dec.idx.toNat ∧ s.bodyCrc = s.rxCrc := by
  rw [idx_two]; unfold State.fendCase; repeat' split
  all_goals simp_all

theorem State.fendCase_crcBad {s : State} : s.fendCase = .crcBad ↔ 2 ≤ s.dec.idx.toNat ∧ s.bodyCrc ≠ s.rxCrc := by
  rw [idx_two]; unfold State.fendCase; repeat' split
  all_goals simp_all

/-- The valid addresses, one by one (R95). -/
theorem validAddr_iff {b : Byte} : validAddr b = true ↔
    b ∈ [0x01#8, 0x02#8, 0x03#8, 0x04#8, 0x05#8, 0x06#8, 0x07#8, 0x08#8, 0x09#8, 0x0A#8, 0x0B#8, 0x38#8] := by
  revert b; decide

/-- The row of an address byte, by its validity (R200, R201). -/
theorem addressRow_eq (b : Byte) (s : State) :
    addressRow b s = if validAddr b then storeAddress b s else execWAeAddrBad b s := by
  split
  · next h =>
    rw [validAddr_iff] at h
    simp only [List.mem_cons, List.not_mem_nil, or_false] at h
    rcases h with h | h | h | h | h | h | h | h | h | h | h | h <;> subst h <;> rfl
  · next h =>
    unfold addressRow
    split <;> first | rfl | (exfalso; apply h; simp_all [validAddr])

/-- Everything DEC_BYTE can do when it answers (R212): the decoder was ready, and one row of the table was run. -/
theorem execDecByte_cases {b : Byte} {s t : State} (h : execDecByte b s = .next t) :
    (s.cBusy = none ∧ s.dec.bound = true ∧ regionLegal s.par.addrWidth s.dec.buf.toNat s.dec.cap.toNat = true)
    ∧ ((s.dec.state = .idle ∧ b = fend ∧ t = s.decOk { s.dec with state := .addressExpected })
      ∨ (s.dec.state = .idle ∧ b ≠ fend ∧ t = s.decOk s.dec)
      ∨ (s.dec.state = .addressExpected ∧ validAddr b = true
          ∧ t = s.decOk { s.dec with addr := b, addrSet := true, state := .receiving })
      ∨ (s.dec.state = .addressExpected ∧ validAddr b = false ∧ t = s.decRaise .invalidAddress)
      ∨ (s.dec.state = .receiving ∧ b = fend ∧ s.dec.idx = 0#16 ∧ t = s.decOk { s.dec with state := .addressExpected })
      ∨ (s.dec.state = .receiving ∧ b = fend ∧ s.dec.idx = 1#16 ∧ t = s.decRaise .crcMismatch)
      ∨ (s.dec.state = .receiving ∧ b = fend ∧ 2 ≤ s.dec.idx.toNat ∧ s.dec.idx.toNat ≤ s.dec.cap.toNat
          ∧ s.bodyCrc = s.rxCrc
          ∧ t = s.decOk { s.dec with crc := s.bodyCrc, idx := BitVec.ofNat 16 s.payloadLen, state := .terminated })
      ∨ (s.dec.state = .receiving ∧ b = fend ∧ 2 ≤ s.dec.idx.toNat ∧ s.dec.idx.toNat ≤ s.dec.cap.toNat
          ∧ s.bodyCrc ≠ s.rxCrc ∧ t = (s.withDec { s.dec with crc := s.bodyCrc }).decRaise .crcMismatch)
      ∨ (s.dec.state = .receiving ∧ b = fesc ∧ t = s.decOk { s.dec with state := .escaping })
      ∨ (s.dec.state = .receiving ∧ b ≠ fend ∧ b ≠ fesc ∧ t = s.decAppend b)
      ∨ (s.dec.state = .escaping ∧ b = tfend ∧ t = s.decAppend fend)
      ∨ (s.dec.state = .escaping ∧ b = tfesc ∧ t = s.decAppend fesc)
      ∨ (s.dec.state = .escaping ∧ b ≠ tfend ∧ b ≠ tfesc ∧ t = s.decRaise .escapeSequence)
      ∨ (s.dec.state = .terminated ∧ t = s.answer .c s.dec.status 0#32)) := by
  unfold execDecByte at h
  split at h
  · next hs =>
    split at h
    · obtain ⟨h1, h2, h3, -, -, h6⟩ := onRow_next h; cases h6; exact ⟨⟨h1, h2, h3⟩, .inl ⟨hs, ‹_›, rfl⟩⟩
    · obtain ⟨h1, h2, h3, -, -, h6⟩ := onRow_next h; cases h6
      exact ⟨⟨h1, h2, h3⟩, .inr (.inl ⟨hs, ‹_›, rfl⟩)⟩
  · next hs =>
    rw [addressRow_eq] at h
    split at h
    · obtain ⟨h1, h2, h3, -, -, h6⟩ := onRow_next h; cases h6; simp_all
    · obtain ⟨h1, h2, h3, -, h5, h6⟩ := onRow_next h; cases h6; simp_all
  · next hs =>
    split at h
    · next hb =>
      unfold fendRow at h
      split at h
      · next hc =>
        obtain ⟨h1, h2, h3, -, -, h6⟩ := onRow_next h; cases h6
        rw [State.fendCase_noBody] at hc; simp_all
      · next hc =>
        obtain ⟨h1, h2, h3, -, -, h6⟩ := onRow_next h; cases h6
        rw [State.fendCase_oneByte] at hc; simp_all
      · next hc =>
        obtain ⟨h1, h2, h3, -, -, h6⟩ := onRow_next h
        obtain ⟨h7, h6⟩ := readingBody_next h6; cases h6
        rw [State.fendCase_crcGood] at hc
        exact ⟨⟨h1, h2, h3⟩, .inr (.inr (.inr (.inr (.inr (.inr (.inl ⟨hs, hb, hc.1, h7, hc.2, rfl⟩))))))⟩
      · next hc =>
        obtain ⟨h1, h2, h3, -, -, h6⟩ := onRow_next h
        obtain ⟨h7, h6⟩ := readingBody_next h6; cases h6
        rw [State.fendCase_crcBad] at hc
        exact ⟨⟨h1, h2, h3⟩, .inr (.inr (.inr (.inr (.inr (.inr (.inr (.inl ⟨hs, hb, hc.1, h7, hc.2, rfl⟩)))))))⟩
    · split at h
      · obtain ⟨h1, h2, h3, -, -, h6⟩ := onRow_next h; cases h6; simp_all
      · obtain ⟨h1, h2, h3, -, -, h6⟩ := onRow_next h; cases h6; simp_all
  · next hs =>
    split at h
    · obtain ⟨h1, h2, h3, -, -, h6⟩ := onRow_next h; cases h6; simp_all
    · split at h
      · obtain ⟨h1, h2, h3, -, -, h6⟩ := onRow_next h; cases h6; simp_all
      · obtain ⟨h1, h2, h3, -, -, h6⟩ := onRow_next h; cases h6; simp_all
  · next hs =>
    obtain ⟨h1, h2, h3, -, -, h6⟩ := onRow_next h; cases h6; simp_all

/-- A wire row that answers is what DEC_BYTE does with its byte: facts about DEC_BYTE carry over to every row. -/
theorem wireRow_is_decByte {i : Instr} {s t : State} (hw : i.isWire = true) (h : exec i s = .next t) :
    ∃ b, execDecByte b s = .next t := by
  have addr : ∀ a : Byte, validAddr a = true → storeAddress a s = .next t → ∃ b, execDecByte b s = .next t := by
    intro a ha h
    have hs := (onRow_next h).2.2.2.1
    exact ⟨a, by simp [execDecByte, hs, addressRow_eq, ha, h]⟩
  cases i <;> simp only [Instr.isWire, Instr.wireState, Option.isSome_none, Bool.false_eq_true] at hw
  case wIdleFend => exact ⟨fend, by have := (onRow_next h).2.2.2.1; simpa [exec, execDecByte, this] using h⟩
  case wIdleOther b =>
    have := (onRow_next h).2.2.2
    exact ⟨b, by simp only [bne_iff_ne] at this; simpa [exec, execDecByte, this.1, this.2.1] using h⟩
  case wAeAddrBad b =>
    have := (onRow_next h).2.2.2
    exact ⟨b, by simp at this; simpa [exec, execDecByte, this.1, addressRow_eq, this.2.1] using h⟩
  case wRcvFendResync =>
    have := (onRow_next h).2.2.2; simp at this
    exact ⟨fend, by simpa [exec, execDecByte, this.1, fendRow, this.2.1] using h⟩
  case wRcvFendShort =>
    have := (onRow_next h).2.2.2; simp at this
    exact ⟨fend, by simpa [exec, execDecByte, this.1, fendRow, this.2.1] using h⟩
  case wRcvFendGood =>
    have := (onRow_next h).2.2.2; simp at this
    exact ⟨fend, by simpa [exec, execDecByte, this.1, fendRow, this.2.1] using h⟩
  case wRcvFendBadcrc =>
    have := (onRow_next h).2.2.2; simp at this
    exact ⟨fend, by simpa [exec, execDecByte, this.1, fendRow, this.2.1] using h⟩
  case wRcvFesc =>
    have := (onRow_next h).2.2.2.1
    exact ⟨fesc, by simpa [exec, execDecByte, this, show fesc ≠ fend by decide] using h⟩
  case wRcvData b =>
    have := (onRow_next h).2.2.2; simp at this
    exact ⟨b, by simpa [exec, execDecByte, this.1, this.2.1.1, this.2.1.2] using h⟩
  case wEscTfend => exact ⟨tfend, by have := (onRow_next h).2.2.2.1; simpa [exec, execDecByte, this] using h⟩
  case wEscTfesc =>
    have := (onRow_next h).2.2.2.1
    exact ⟨tfesc, by simpa [exec, execDecByte, this, show tfesc ≠ tfend by decide] using h⟩
  case wEscBad b =>
    have := (onRow_next h).2.2.2; simp at this
    exact ⟨b, by simpa [exec, execDecByte, this.1, this.2.1.1, this.2.1.2] using h⟩
  case wTermAny b =>
    have := (onRow_next h).2.2.2.1
    exact ⟨b, by simpa [exec, execDecByte, this] using h⟩
  all_goals exact addr _ (by decide) h

/-- What DEC_INIT can do when it answers (R192). -/
theorem execDecInit_cases {buf : Ptr} {cap : Word16} {s t : State} (h : execDecInit buf cap s = .next t) :
    s.cBusy = none ∧ ((buf = 0#32 ∧ t = s.decUnbind)
      ∨ (buf ≠ 0#32 ∧ regionLegal s.par.addrWidth buf.toNat cap.toNat = true ∧ t = s.decBind buf cap)) := by
  obtain ⟨hb, h⟩ := accept_next h
  refine ⟨by simpa using hb, ?_⟩
  split at h
  · cases h; exact .inl ⟨‹_›, rfl⟩
  · next hn =>
    split at h
    · cases h
    · next hr => cases h; exact .inr ⟨hn, by simpa using hr, rfl⟩

end Sys2Proof.Machine
end

