-- ==== Sys2Proof/Laws/Encoder.lean ====
section
/-! SUPPORT. What the encoder's emissions do, what an encode that answers has done, and the shape of frames. -/

namespace Sys2Proof.Machine

/-- The emissions of a list that fits the capacity: counted to the end. -/
theorem emitAll_fits {m : Memory} {dst dcap k : Nat} {l : List Byte} (h : k + l.length ≤ dcap) :
    (emitAll m dst dcap k l).2 = some (k + l.length) := by
  induction l generalizing m k with
  | nil => rfl
  | cons x l ih =>
    simp only [List.length_cons] at h
    rw [emitAll, if_neg (by omega), ih (by omega), List.length_cons]
    congr 1; omega

/-- The emissions of a list that passes the capacity: no count (R177). -/
theorem emitAll_exceeds {m : Memory} {dst dcap k : Nat} {l : List Byte} (h : dcap < k + l.length) (hk : k ≤ dcap) :
    (emitAll m dst dcap k l).2 = none := by
  induction l generalizing m k with
  | nil => simp at h; omega
  | cons x l ih =>
    rw [emitAll]
    split
    · rfl
    · exact ih (by simp only [List.length_cons] at h; omega) (by omega)

/-- The emissions write only in the destination region, from the count on. -/
theorem emitAll_get_outside {m : Memory} {dst dcap k : Nat} {l : List Byte} {a : Nat}
    (h : ¬(dst + k ≤ a ∧ a < dst + dcap)) : Memory.get (emitAll m dst dcap k l).1 a = Memory.get m a := by
  induction l generalizing m k with
  | nil => rfl
  | cons x l ih =>
    have hset : Memory.get (if k < dcap then Memory.set m (dst + k) x else m) a = Memory.get m a := by
      split
      · exact Memory.get_set_other _ _ (by omega)
      · rfl
    rw [emitAll]
    split
    · exact hset
    · rw [ih (by omega), hset]

/-- The emissions of a list that fits write no address past its end (R176). -/
theorem emitAll_get_past {m : Memory} {dst dcap k : Nat} {l : List Byte} {a : Nat}
    (h : ¬(dst + k ≤ a ∧ a < dst + k + l.length)) : Memory.get (emitAll m dst dcap k l).1 a = Memory.get m a := by
  induction l generalizing m k with
  | nil => rfl
  | cons x l ih =>
    simp only [List.length_cons] at h
    have hset : Memory.get (if k < dcap then Memory.set m (dst + k) x else m) a = Memory.get m a := by
      split
      · exact Memory.get_set_other _ _ (by omega)
      · rfl
    rw [emitAll]
    split
    · exact hset
    · rw [ih (by omega), hset]

/-- The emissions of a list that fits leave the list at the destination, from the count on (R176). -/
theorem emitAll_get {m : Memory} {dst dcap k : Nat} {l : List Byte} (h : k + l.length ≤ dcap) (i : Nat)
    (hi : i < l.length) : Memory.get (emitAll m dst dcap k l).1 (dst + k + i) = some l[i] := by
  induction l generalizing m k i with
  | nil => simp at hi
  | cons x l ih =>
    simp only [List.length_cons] at h hi
    rw [emitAll, if_neg (by omega), if_pos (by omega)]
    cases i with
    | zero => rw [emitAll_get_past (by omega)]; simp
    | succ i =>
      have := ih (m := Memory.set m (dst + k) x) (k := k + 1) (by omega) i (by omega)
      rw [show dst + k + (i + 1) = dst + (k + 1) + i by omega, this]
      simp

theorem emitAll_wf {m : Memory} {dst dcap k : Nat} {l : List Byte} (hm : Memory.wf m = true) :
    Memory.wf (emitAll m dst dcap k l).1 = true := by
  induction l generalizing m k with
  | nil => exact hm
  | cons x l ih =>
    have hset : Memory.wf (if k < dcap then Memory.set m (dst + k) x else m) = true := by
      split
      · exact Memory.wf_set _ _ hm
      · exact hm
    rw [emitAll]
    split
    · exact hset
    · exact ih hset

theorem emitAll_below {bound : Nat} {m : Memory} {dst dcap k : Nat} {l : List Byte}
    (hm : Memory.below bound m = true) (h : dst + dcap ≤ bound) :
    Memory.below bound (emitAll m dst dcap k l).1 = true := by
  induction l generalizing m k with
  | nil => exact hm
  | cons x l ih =>
    have hset : Memory.below bound (if k < dcap then Memory.set m (dst + k) x else m) = true := by
      split
      · exact Memory.below_set _ hm (by omega)
      · exact hm
    rw [emitAll]
    split
    · exact hset
    · exact ih hset

/-- Step 3 (R174): the CRC bytes stand after the payload, every other byte is as before. -/
theorem State.bmRead_appendCrc (s : State) (addr : Byte) (pay plen b : Nat) :
    (s.appendCrc addr pay plen).bmRead b =
      if pay + plen + 1 = b then loByte (crcFold s.par (addr :: s.bmReads pay plen))
      else if pay + plen = b then hiByte (crcFold s.par (addr :: s.bmReads pay plen))
      else s.bmRead b := by
  simp only [State.appendCrc, State.bmRead, State.withBm_bm, Memory.get_set]
  split
  · rfl
  · split <;> rfl

/-- The body the emitter reads back: the payload and the two CRC bytes (R175). -/
theorem State.bmReads_appendCrc (s : State) (addr : Byte) (pay plen : Nat) :
    (s.appendCrc addr pay plen).bmReads pay (plen + 2) =
      s.bmReads pay plen ++ [hiByte (crcFold s.par (addr :: s.bmReads pay plen)),
        loByte (crcFold s.par (addr :: s.bmReads pay plen))] := by
  rw [State.bmReads_add, State.bmReads_congr pay plen (fun x h1 h2 => ?_)]
  · rw [State.bmReads_succ, State.bmReads_succ, State.bmReads_zero, State.bmRead_appendCrc, State.bmRead_appendCrc,
      if_neg (by omega), if_pos rfl, if_pos rfl]
  · rw [State.bmRead_appendCrc, if_neg (by omega), if_neg (by omega)]

/-- Everything ENC can do when it answers. -/
theorem execEnc_cases {dst : Ptr} {dcap : Word16} {addr : Byte} {pay : Ptr} {plen : Word16} {s t : State}
    (h : execEnc dst dcap addr pay plen s = .next t) :
    s.cBusy = none ∧
    (((dst = 0#32 ∨ pay = 0#32) ∧ t = s.encFail .nullBuffer)
    ∨ ((dst ≠ 0#32 ∧ pay ≠ 0#32) ∧ validAddr addr = false ∧ t = s.encFail .invalidAddress)
    ∨ (validAddr addr = true
        ∧ regionLegal s.par.addrWidth dst.toNat dcap.toNat = true
        ∧ regionLegal s.par.addrWidth pay.toNat (plen.toNat + 2) = true
        ∧ regionsMeet dst.toNat dcap.toNat pay.toNat (plen.toNat + 2) = false
        ∧ t = s.encFrame dst.toNat dcap.toNat addr pay.toNat plen.toNat)) := by
  obtain ⟨hb, h⟩ := accept_next h
  refine ⟨by simpa using hb, ?_⟩
  split at h
  · cases h; exact .inl ⟨‹_›, rfl⟩
  · next h1 =>
    split at h
    · cases h; exact .inr (.inl ⟨not_or.mp h1, ‹_›, rfl⟩)
    · next h2 =>
      split at h
      · cases h
      · next h3 =>
        split at h
        · cases h
        · next h4 =>
          split at h
          · cases h
          · cases h
            exact .inr (.inr ⟨by simpa using h2, by simpa using (not_or.mp h3).1, by simpa using (not_or.mp h3).2,
              by simpa using h4, rfl⟩)

/-- An encode ends in one of two ways: the whole frame, or OVERFLOW. -/
theorem State.encFrame_cases (s : State) (dst dcap : Nat) (addr : Byte) (pay plen : Nat) :
    let s1 := s.appendCrc addr pay plen
    let F := frameOf addr (s1.bmReads pay (plen + 2))
    (F.length ≤ dcap ∧ s.encFrame dst dcap addr pay plen =
      ((s1.withBm (emitAll s1.bm dst dcap 0 F).1).withEnc { status := .ok, len := BitVec.ofNat 16 F.length }).answer .c .ok
        (BitVec.ofNat 32 F.length))
    ∨ (dcap < F.length ∧ s.encFrame dst dcap addr pay plen =
      ((s1.withBm (Memory.setFree (emitAll s1.bm dst dcap 0 F).1 dst dcap s1.draws)).drew dcap).encFail .overflow) := by
  intro s1 F
  have hdef : s.encFrame dst dcap addr pay plen = match emitAll s1.bm dst dcap 0 F with
    | (m, some k) =>
      ((s1.withBm m).withEnc { status := .ok, len := BitVec.ofNat 16 k }).answer .c .ok (BitVec.ofNat 32 k)
    | (m, none) => ((s1.withBm (Memory.setFree m dst dcap s1.draws)).drew dcap).encFail .overflow := rfl
  rcases hE : emitAll s1.bm dst dcap 0 F with ⟨m, r⟩
  rw [hdef, hE]
  rcases Nat.lt_or_ge dcap F.length with hl | hl
  · have h := emitAll_exceeds (m := s1.bm) (dst := dst) (dcap := dcap) (k := 0) (l := F) (by omega) (by omega)
    rw [hE] at h
    simp only at h
    subst h
    exact .inr ⟨hl, rfl⟩
  · have h := emitAll_fits (m := s1.bm) (dst := dst) (dcap := dcap) (k := 0) (l := F) (by omega)
    rw [hE] at h
    simp only [Nat.zero_add] at h
    subst h
    exact .inl ⟨hl, rfl⟩

/-! Escaping. -/

@[simp] theorem escAll_nil : escAll [] = [] := rfl

@[simp] theorem escAll_cons (b : Byte) (l : List Byte) : escAll (b :: l) = esc b ++ escAll l := rfl

theorem escAll_append (l l' : List Byte) : escAll (l ++ l') = escAll l ++ escAll l' := by
  induction l with
  | nil => rfl
  | cons b l ih => simp [ih]

/-- The three shapes of an escaped byte (R93). -/
theorem esc_cases (b : Byte) :
    (b = fend ∧ esc b = [fesc, tfend]) ∨ (b = fesc ∧ esc b = [fesc, tfesc])
      ∨ (b ≠ fend ∧ b ≠ fesc ∧ esc b = [b]) := by
  unfold esc
  split
  · exact .inl ⟨‹_›, rfl⟩
  · split
    · exact .inr (.inl ⟨‹_›, rfl⟩)
    · exact .inr (.inr ⟨‹_›, ‹_›, rfl⟩)

/-- No FEND is left inside an escaped body (R180). -/
theorem fend_not_mem_escAll (l : List Byte) : fend ∉ escAll l := by
  induction l with
  | nil => simp
  | cons b l ih =>
    rcases esc_cases b with ⟨-, h⟩ | ⟨-, h⟩ | ⟨h1, -, h⟩
    · simp [h, show (192#8 : Byte) ∉ escAll l from ih, fend, fesc, tfend]
    · simp [h, show (192#8 : Byte) ∉ escAll l from ih, fend, fesc, tfesc]
    · simp [h, ih, Ne.symm h1]

end Sys2Proof.Machine
end

