-- ==== Sys2Proof/Laws/PerInstr.lean ====
section
/-! SUPPORT. The per-instruction family RowLength: an instruction's bytes are as many as its row of
spec/opcode_table.json says (30_encoding.md R90, R101, R102). -/

namespace Sys2Proof.Laws.RowLength

/-- The length that an instruction's row gives it: the table's column length_bytes; none for the catch-all. -/
def rowLength (i : Instr) : Option Nat :=
  match i with
  | .rbInit | .rbCount _ | .rbFull _ | .rbEmpty _ | .rbRemove => some 1
  | .rbInsert _ | .rbPush _ | .decByte _ | .rd _ => some 2
  | .crcAppend _ _ => some 4
  | .enc _ _ _ _ _ => some 14
  | .decInit _ _ => some 7
  | .unassigned _ _ => none
  | .wIdleFend | .wIdleOther _ => some 1
  | .wAeAddr01 | .wAeAddr02 | .wAeAddr03 | .wAeAddr04 | .wAeAddr05 | .wAeAddr06 | .wAeAddr07 | .wAeAddr08 | .wAeAddr09
  | .wAeAddr0A | .wAeAddr0B | .wAeAddr38 | .wAeAddrBad _ => some 1
  | .wRcvFendResync | .wRcvFendShort | .wRcvFendGood | .wRcvFendBadcrc | .wRcvFesc | .wRcvData _ => some 1
  | .wEscTfend | .wEscTfesc | .wEscBad _ => some 1
  | .wTermAny _ => some 1

/-- Where the row has a length, the instruction's bytes are that many. -/
def Statement (i : Instr) : Prop := ∀ n, rowLength i = some n → (encode i).length = n

theorem rbInit : Statement .rbInit := fun _ h => by cases h; rfl

theorem rbCount (port : Port) : Statement (.rbCount port) := fun _ h => by cases h; rfl

theorem rbFull (port : Port) : Statement (.rbFull port) := fun _ h => by cases h; rfl

theorem rbEmpty (port : Port) : Statement (.rbEmpty port) := fun _ h => by cases h; rfl

theorem rbInsert (b : Byte) : Statement (.rbInsert b) := fun _ h => by cases h; rfl

theorem rbRemove : Statement .rbRemove := fun _ h => by cases h; rfl

theorem rbPush (b : Byte) : Statement (.rbPush b) := fun _ h => by cases h; rfl

theorem crcAppend (b : Byte) (crc : Word16) : Statement (.crcAppend b crc) := fun _ h => by cases h; rfl

theorem enc (dst : Ptr) (dcap : Word16) (addr : Byte) (pay : Ptr) (plen : Word16) : Statement (.enc dst dcap addr pay plen) := fun _ h => by cases h; rfl

theorem decInit (buf : Ptr) (cap : Word16) : Statement (.decInit buf cap) := fun _ h => by cases h; rfl

theorem decByte (b : Byte) : Statement (.decByte b) := fun _ h => by cases h; rfl

theorem rd (reg : Byte) : Statement (.rd reg) := fun _ h => by cases h; rfl

theorem unassigned (port : Port) (packet : Packet) : Statement (.unassigned port packet) := fun _ h => by cases h

theorem wIdleFend : Statement .wIdleFend := fun _ h => by cases h; rfl

theorem wIdleOther (b : Byte) : Statement (.wIdleOther b) := fun _ h => by cases h; rfl

theorem wAeAddr01 : Statement .wAeAddr01 := fun _ h => by cases h; rfl

theorem wAeAddr02 : Statement .wAeAddr02 := fun _ h => by cases h; rfl

theorem wAeAddr03 : Statement .wAeAddr03 := fun _ h => by cases h; rfl

theorem wAeAddr04 : Statement .wAeAddr04 := fun _ h => by cases h; rfl

theorem wAeAddr05 : Statement .wAeAddr05 := fun _ h => by cases h; rfl

theorem wAeAddr06 : Statement .wAeAddr06 := fun _ h => by cases h; rfl

theorem wAeAddr07 : Statement .wAeAddr07 := fun _ h => by cases h; rfl

theorem wAeAddr08 : Statement .wAeAddr08 := fun _ h => by cases h; rfl

theorem wAeAddr09 : Statement .wAeAddr09 := fun _ h => by cases h; rfl

theorem wAeAddr0A : Statement .wAeAddr0A := fun _ h => by cases h; rfl

theorem wAeAddr0B : Statement .wAeAddr0B := fun _ h => by cases h; rfl

theorem wAeAddr38 : Statement .wAeAddr38 := fun _ h => by cases h; rfl

theorem wAeAddrBad (b : Byte) : Statement (.wAeAddrBad b) := fun _ h => by cases h; rfl

theorem wRcvFendResync : Statement .wRcvFendResync := fun _ h => by cases h; rfl

theorem wRcvFendShort : Statement .wRcvFendShort := fun _ h => by cases h; rfl

theorem wRcvFendGood : Statement .wRcvFendGood := fun _ h => by cases h; rfl

theorem wRcvFendBadcrc : Statement .wRcvFendBadcrc := fun _ h => by cases h; rfl

theorem wRcvFesc : Statement .wRcvFesc := fun _ h => by cases h; rfl

theorem wRcvData (b : Byte) : Statement (.wRcvData b) := fun _ h => by cases h; rfl

theorem wEscTfend : Statement .wEscTfend := fun _ h => by cases h; rfl

theorem wEscTfesc : Statement .wEscTfesc := fun _ h => by cases h; rfl

theorem wEscBad (b : Byte) : Statement (.wEscBad b) := fun _ h => by cases h; rfl

theorem wTermAny (b : Byte) : Statement (.wTermAny b) := fun _ h => by cases h; rfl

end Sys2Proof.Laws.RowLength
end

