-- ==== Sys2Proof/Laws/RingBuffer.lean ====
section
/-! SUPPORT. What each ring micro-step does when it answers a next state, and when it does. -/

namespace Sys2Proof.Machine

theorem State.full_eq_false {s : State} : s.full = false ↔ s.ring.count.toNat < s.par.ringSize := by
  simp [State.full]

theorem State.full_eq_true {s : State} : s.full = true ↔ s.par.ringSize ≤ s.ring.count.toNat := by
  simp [State.full]

theorem State.empty_eq_false {s : State} : s.empty = false ↔ 0 < s.ring.count.toNat := by
  simp only [State.empty, beq_eq_false_iff_ne, ne_eq, Nat.pos_iff_ne_zero]
  exact not_congr ⟨fun h => by simp [h], fun h => by apply BitVec.eq_of_toNat_eq; simpa using h⟩

theorem State.empty_eq_true {s : State} : s.empty = true ↔ s.ring.count = 0#16 := by
  simp [State.empty]

/-- The advanced cursor is the rule's `(c + 1) mod N` (R132) and stays below N. -/
theorem nextCursor_toNat {q : Params} (c : Word16) (h : q.Legal) :
    (nextCursor q c).toNat = (c.toNat + 1) % q.ringSize := by
  obtain ⟨⟨h1, h2⟩, -⟩ := h
  have := Nat.mod_lt (c.toNat + 1) (show 0 < q.ringSize by omega)
  simp only [nextCursor, BitVec.toNat_ofNat]
  omega

theorem nextCursor_lt {q : Params} (c : Word16) (h : q.Legal) : (nextCursor q c).toNat < q.ringSize := by
  rw [nextCursor_toNat c h]; exact Nat.mod_lt _ (by have := h.1.1; omega)

/-- A count below N goes up by exactly one: it cannot leave 16 bits. -/
theorem count_add_one {q : Params} {c : Word16} (h : q.Legal) (hc : c.toNat < q.ringSize) :
    (c + 1#16).toNat = c.toNat + 1 := by
  have := h.1.2
  simp only [BitVec.toNat_add, BitVec.toNat_ofNat]; omega

/-- A count above 0 goes down by exactly one. -/
theorem count_sub_one {c : Word16} (hc : 0 < c.toNat) : (c - 1#16).toNat = c.toNat - 1 := by
  have := c.isLt
  simp only [BitVec.toNat_sub, BitVec.toNat_ofNat]; omega

/-- A cell after a store. -/
theorem Ring.cell_set {r r' : Ring} {a : Nat} {b : Byte} (h : r'.mem = Memory.set r.mem a b) (k : Nat) :
    r'.cell k = if a = k then b else r.cell k := by
  simp only [Ring.cell, h, Memory.get_set]; split <;> rfl

theorem Ring.cell_congr {r r' : Ring} (h : r'.mem = r.mem) (k : Nat) : r'.cell k = r.cell k := by
  simp [Ring.cell, h]

/-! The micro-steps, inverted. Where a RingOverrun is recorded, a result is a draw. -/

theorem insertStore_next {b : Byte} {s t : State} (h : insertStore b s = .next t) :
    s.ring.inCur.toNat < s.par.ringSize
      ∧ t = ((s.withRing { s.ring with mem := Memory.set s.ring.mem s.ring.inCur.toNat b }).noteOverrun s.full).holdP
          (.i2 b) := by
  unfold insertStore at h
  split at h
  · cases h
  · cases h; exact ⟨by omega, rfl⟩

/-- An i1 that leaves no RingOverrun recorded found none and found room (R139, R140). -/
theorem overrun_or_full_eq_false {s : State} :
    (s.ring.overrun || s.full) = false ↔ s.ring.overrun = false ∧ s.ring.count.toNat < s.par.ringSize := by
  rw [Bool.or_eq_false_iff, State.full_eq_false]

theorem insertCount_next {s t : State} (h : insertCount s = .next t) :
    (s.ring.overrun = true
        ∧ t = ((s.withRing { s.ring with count := freeWord16 s.draws }).drew 1).answer .p .ok 0#32)
    ∨ (s.ring.overrun = false ∧ t = (s.withRing { s.ring with count := s.ring.count + 1#16 }).answer .p .ok 0#32) := by
  unfold insertCount at h
  split at h
  · next ho => cases h; exact .inl ⟨ho, rfl⟩
  · next ho => cases h; exact .inr ⟨by simpa using ho, rfl⟩

theorem removeLoad_next {s t : State} (h : removeLoad s = .next t) :
    (s.ring.overrun = true ∧ t = (s.drew 1).holdC (.r2 (freeByte s.draws)))
    ∨ (s.ring.overrun = false ∧ 0 < s.ring.count.toNat ∧ s.ring.outCur.toNat < s.par.ringSize
        ∧ t = s.holdC (.r2 (s.ring.cell s.ring.outCur.toNat))) := by
  unfold removeLoad at h
  split at h
  · next ho => cases h; exact .inl ⟨ho, rfl⟩
  · next ho =>
    split at h
    · cases h
    · next hf =>
      split at h
      · cases h
      · cases h; exact .inr ⟨by simpa using ho, State.empty_eq_false.mp (by simpa using hf), by omega, rfl⟩

theorem removeAdvance_next {v : Byte} {s t : State} (h : removeAdvance v s = .next t) :
    (s.ring.overrun = true
        ∧ t = ((s.withRing { s.ring with outCur := freeCursor s.par s.draws }).drew 1).holdC (.r3 v))
    ∨ (s.ring.overrun = false
        ∧ t = (s.withRing { s.ring with outCur := nextCursor s.par s.ring.outCur }).holdC (.r3 v)) := by
  unfold removeAdvance at h
  split at h
  · next ho => cases h; exact .inl ⟨ho, rfl⟩
  · next ho => cases h; exact .inr ⟨by simpa using ho, rfl⟩

theorem removeCount_next {v : Byte} {s t : State} (h : removeCount v s = .next t) :
    (s.ring.overrun = true
        ∧ t = ((s.withRing { s.ring with count := freeWord16 s.draws }).drew 1).answerRing .c 8 (v.setWidth 32))
    ∨ (s.ring.overrun = false ∧ 0 < s.ring.count.toNat
        ∧ t = (s.withRing { s.ring with count := s.ring.count - 1#16 }).answer .c .ok (v.setWidth 32)) := by
  unfold removeCount at h
  split at h
  · next ho => cases h; exact .inl ⟨ho, rfl⟩
  · next ho =>
    split at h
    · cases h
    · next hf => cases h; exact .inr ⟨by simpa using ho, State.empty_eq_false.mp (by simpa using hf), rfl⟩

/-- Everything a micro-step of port P can do. -/
theorem microP_cases {g : PStage} {s t : State} (h : microP g s = .next t) :
    (∃ b, g = .i1 b ∧ s.ring.inCur.toNat < s.par.ringSize
      ∧ t = ((s.withRing { s.ring with mem := Memory.set s.ring.mem s.ring.inCur.toNat b }).noteOverrun s.full).holdP
          (.i2 b))
    ∨ (∃ b, g = .i2 b ∧ t = (s.withRing { s.ring with inCur := nextCursor s.par s.ring.inCur }).holdP (.i3 b))
    ∨ (∃ b, g = .i3 b ∧ s.ring.overrun = true
      ∧ t = ((s.withRing { s.ring with count := freeWord16 s.draws }).drew 1).answer .p .ok 0#32)
    ∨ (∃ b, g = .i3 b ∧ s.ring.overrun = false
      ∧ t = (s.withRing { s.ring with count := s.ring.count + 1#16 }).answer .p .ok 0#32)
    ∨ (∃ b, g = .p1 b
      ∧ t = (s.withRing { s.ring with ovf := (s.ring.ovf + 1) % 2 ^ s.par.ctrWidth }).answer .p .overflow 0#32) := by
  cases g with
  | i1 b => exact .inl ⟨b, rfl, insertStore_next h⟩
  | i2 b => cases h; exact .inr (.inl ⟨b, rfl, rfl⟩)
  | i3 b =>
    rcases insertCount_next h with hc | hc
    · exact .inr (.inr (.inl ⟨b, rfl, hc⟩))
    · exact .inr (.inr (.inr (.inl ⟨b, rfl, hc⟩)))
  | p1 b => cases h; exact .inr (.inr (.inr (.inr ⟨b, rfl, rfl⟩)))

/-- Everything a micro-step of port C can do. -/
theorem microC_cases {g : CStage} {s t : State} (h : microC g s = .next t) :
    (∃ v, g = .r2 v ∧ s.ring.overrun = true
      ∧ t = ((s.withRing { s.ring with outCur := freeCursor s.par s.draws }).drew 1).holdC (.r3 v))
    ∨ (∃ v, g = .r2 v ∧ s.ring.overrun = false
      ∧ t = (s.withRing { s.ring with outCur := nextCursor s.par s.ring.outCur }).holdC (.r3 v))
    ∨ (∃ v, g = .r3 v ∧ s.ring.overrun = true
      ∧ t = ((s.withRing { s.ring with count := freeWord16 s.draws }).drew 1).answerRing .c 8 (v.setWidth 32))
    ∨ (∃ v, g = .r3 v ∧ s.ring.overrun = false ∧ 0 < s.ring.count.toNat
      ∧ t = (s.withRing { s.ring with count := s.ring.count - 1#16 }).answer .c .ok (v.setWidth 32))
    ∨ (g = .n2 ∧ t = (s.withRing { s.ring with outCur := 0#16 }).holdC .n3)
    ∨ (g = .n3 ∧ t = (s.withRing { s.ring with count := 0#16 }).holdC .n4)
    ∨ (g = .n4 ∧ t = (s.withRing { s.ring with inited := true, overrun := false }).answer .c .ok 0#32) := by
  cases g with
  | r2 v =>
    rcases removeAdvance_next h with hc | hc
    · exact .inl ⟨v, rfl, hc⟩
    · exact .inr (.inl ⟨v, rfl, hc⟩)
  | r3 v =>
    rcases removeCount_next h with hc | hc
    · exact .inr (.inr (.inl ⟨v, rfl, hc⟩))
    · exact .inr (.inr (.inr (.inl ⟨v, rfl, hc⟩)))
  | n2 => cases h; exact .inr (.inr (.inr (.inr (.inl ⟨rfl, rfl⟩))))
  | n3 => cases h; exact .inr (.inr (.inr (.inr (.inr (.inl ⟨rfl, rfl⟩)))))
  | n4 => cases h; exact .inr (.inr (.inr (.inr (.inr (.inr ⟨rfl, rfl⟩)))))

/-- RB_PUSH's p0: what follows is chosen by the count, or free where a RingOverrun is recorded (R145, R140). -/
theorem execRbPush_next {b : Byte} {s t : State} (h : execRbPush b s = .next t) :
    (s.pBusy = none ∧ s.ring.inited = true ∧ s.initRunning = false)
      ∧ ((s.ring.overrun = true ∧ (t = (s.drew 1).holdP (.p1 b) ∨ t = (s.drew 1).holdP (.i1 b)))
        ∨ (s.ring.overrun = false
          ∧ ((s.par.ringSize ≤ s.ring.count.toNat ∧ t = s.holdP (.p1 b))
            ∨ (s.ring.count.toNat < s.par.ringSize ∧ t = s.holdP (.i1 b))))) := by
  obtain ⟨hb, hi, hn, h⟩ := acceptRing_next h
  refine ⟨⟨by simpa using hb, hi, hn rfl⟩, ?_⟩
  split at h
  · next ho =>
    cases h
    cases freeBit s.draws
    · exact .inl ⟨ho, .inr rfl⟩
    · exact .inl ⟨ho, .inl rfl⟩
  · next ho =>
    cases h
    refine .inr ⟨by simpa using ho, ?_⟩
    cases hf : s.full
    · exact .inr ⟨State.full_eq_false.mp hf, rfl⟩
    · exact .inl ⟨State.full_eq_true.mp hf, rfl⟩

/-- RB_INIT starts only with both ports idle. -/
theorem execRbInit_next {s t : State} (h : execRbInit s = .next t) :
    s.cBusy = none ∧ s.pBusy = none ∧ t = (s.withRing { s.ring with inCur := 0#16 }).holdC .n2 := by
  obtain ⟨hb, h⟩ := accept_next h
  split at h
  · cases h
  · next hp => cases h; exact ⟨by simpa using hb, by simpa using hp, rfl⟩

end Sys2Proof.Machine
end

