-- ==== Sys2Proof/Tests/Slice0.lean ====
section
/-! SUPPORT. Tests on single words and single steps, their expected results taken from the spec (95_test_vectors.md and
the rules named), and for each statement a state and operands that meet its premises. -/

namespace Sys2Proof.Tests

open Sys2Proof.Machine

/-! ## The states tests start from -/

/-- N = 4, AW = 16, CTR_W = 32, REF_CRC: the defaults of 95_test_vectors.md. -/
def par4 : Params := ⟨4, 16, 32, .reference⟩

/-- After hardware reset, with those parameters. -/
def base : State := { State.reset with par := par4 }

/-- The ring initialised, `(in, out, count, ovf)` and the cells as given. -/
def ringed (i o c : Word16) (ovf : Nat) (mem : Memory) : State :=
  base.withRing { mem := mem, inCur := i, outCur := o, count := c, ovf := ovf, inited := true, overrun := false }

/-- Four bytes in a ring of four. -/
def fullRing : State := ringed 2 2 4 7 [(0, 0x33#8), (1, 0x44#8), (2, 0x11#8), (3, 0x22#8)]

/-- After an insert into it: the fault recorded, the cursor advanced, some count (V-R10). -/
def overrunRing : State :=
  { fullRing with
    ring := { fullRing.ring with mem := Memory.set fullRing.ring.mem 2 0x99#8, inCur := 3, count := 9, overrun := true }
    runFaulted := true }

/-- Room for one byte, the input cursor at the last cell. -/
def almostFull : State := ringed 3 0 3 0 [(0, 0x11#8), (1, 0x22#8), (2, 0x33#8)]

/-- One byte, the output cursor at the last cell (V-R3). -/
def lastByte : State := ringed 0 3 1 0 [(3, 0x44#8)]

/-- An insert past i2 and a remove past r2, N = 2 (V-X4). -/
def bothBusy : State :=
  { ringed 0 1 1 0 [(0, 0xAA#8), (1, 0xBB#8)] with
    par := { par4 with ringSize := 2 }, pBusy := some (.i3 0xBB#8), cBusy := some (.r3 0xAA#8) }

/-- The decoder bound to 0x300, in a state, with an index, a capacity and the buffer's bytes. -/
def decoding (st : DecState) (idx cap : Word16) (buf : List Byte) : State :=
  (base.withDec { bound := true, state := st, addr := 0x02#8, buf := 0x300#32, cap := cap, idx := idx, crc := 0#16,
                  status := .ok, armed := true, statusSet := true, addrSet := true }).withBm
    ((List.range buf.length).zip buf |>.map (fun q => (0x300 + q.1, q.2)))

/-- The payload of V-E1 at 0x100. -/
def hiPayload : State := base.withBm [(0x100, 0x68#8), (0x101, 0x69#8)]

/-- A part of the next state, if there is one. -/
def part {α : Type} (r : Result) (f : State → α) : Option α :=
  match r with
  | .next s => some (f s)
  | _ => none

/-- Why it stopped with a fault, if it did. -/
def faulted : Result → Option Fault
  | .fault x => some x
  | _ => none

/-- Why it was refused, if it was. -/
def refusal : Result → Option Refusal
  | .refused x => some x
  | _ => none

/-- The four registers of the ring. -/
def ringRegs (s : State) : Nat × Nat × Nat × Nat :=
  (s.ring.inCur.toNat, s.ring.outCur.toNat, s.ring.count.toNat, s.ring.ovf)

/-- What a decoder byte leaves: the newest answer's status, the state, the index. -/
def traced (s : State) : Option Status × DecState × Nat :=
  (s.cAnswers.head?.map Response.status, s.dec.state, s.dec.idx.toNat)

/-! ## WellFormed -/

theorem test_wellFormed_unassigned : Instr.WellFormed (.unassigned .c [0x00#8]) = true := by decide
theorem test_illFormed_unassigned : Instr.WellFormed (.unassigned .c [0x01#8]) = false := by decide
theorem test_illFormed_idleOther : Instr.WellFormed (.wIdleOther 0xC0#8) = false := by decide
theorem test_illFormed_addrBad : Instr.WellFormed (.wAeAddrBad 0x38#8) = false := by decide
theorem test_illFormed_data_fend : Instr.WellFormed (.wRcvData 0xC0#8) = false := by decide
theorem test_illFormed_data_fesc : Instr.WellFormed (.wRcvData 0xDB#8) = false := by decide
theorem test_illFormed_escBad_tfend : Instr.WellFormed (.wEscBad 0xDC#8) = false := by decide
theorem test_illFormed_escBad_tfesc : Instr.WellFormed (.wEscBad 0xDD#8) = false := by decide

/-! ## Decoding (30_encoding.md R101 to R103, R107; the packets of 95 section 6) -/

theorem test_decode_rbInit : decode .c [0x01#8] = .rbInit := by decide
theorem test_decode_rbCount : decode .p [0x02#8] = .rbCount .p := by decide
theorem test_decode_rbFull : decode .c [0x03#8] = .rbFull .c := by decide
theorem test_decode_rbEmpty : decode .c [0x04#8] = .rbEmpty .c := by decide
theorem test_decode_rbInsert : decode .p [0x05#8, 0x11#8] = .rbInsert 0x11#8 := by decide
theorem test_decode_rbRemove : decode .c [0x06#8] = .rbRemove := by decide
theorem test_decode_rbPush : decode .p [0x07#8, 0x66#8] = .rbPush 0x66#8 := by decide
theorem test_decode_crcAppend : decode .c [0x10#8, 0x69#8, 0x8B#8, 0xCC#8] = .crcAppend 0x69#8 0x8BCC#16 := by decide

/-- The packet of V-E2. -/
theorem test_decode_enc :
    decode .c [0x20#8, 0x00#8, 0x00#8, 0x02#8, 0x00#8, 0x00#8, 0x20#8, 0x01#8, 0x00#8, 0x00#8, 0x01#8, 0x00#8, 0x00#8,
      0x02#8] = .enc 0x0200#32 32#16 0x01#8 0x0100#32 2#16 := by decide

/-- V-I10, and V-I11's pointer of more than 16 bits. -/
theorem test_decode_decInit :
    decode .c [0x30#8, 0x00#8, 0x00#8, 0x03#8, 0x00#8, 0x00#8, 0x20#8] = .decInit 0x0300#32 32#16
      ∧ decode .c [0x30#8, 0x00#8, 0x01#8, 0x00#8, 0x00#8, 0x00#8, 0x20#8] = .decInit 0x10000#32 32#16 := by decide

theorem test_decode_decByte : decode .c [0x31#8, 0xC0#8] = .decByte 0xC0#8 := by decide
theorem test_decode_rd : decode .c [0x40#8, 0x13#8] = .rd 0x13#8 := by decide

/-- V-I1 to V-I5. -/
theorem test_decode_illegal :
    decode .c [0x00#8] = .unassigned .c [0x00#8] ∧ decode .c [0x05#8, 0x11#8] = .unassigned .c [0x05#8, 0x11#8]
      ∧ decode .p [0x06#8] = .unassigned .p [0x06#8] ∧ decode .p [0x31#8, 0xC0#8] = .unassigned .p [0x31#8, 0xC0#8]
      ∧ decode .c [0x31#8] = .unassigned .c [0x31#8] := by decide

/-- No two rows of the opcode map share an opcode (R103). -/
theorem test_opcodes_distinct : commandTable.Pairwise (fun r r' => r.opcode ≠ r'.opcode) := by decide

/-! ## Wire symbols (R92, R95, R198 to R211) -/

theorem test_wire_idle : decodeWire .idle .noBody 0xC0#8 = .wIdleFend
    ∧ decodeWire .idle .noBody 0x41#8 = .wIdleOther 0x41#8 := by decide

/-- S3 and V-D13: the twelve addresses. -/
theorem test_wire_addresses :
    [0x01#8, 0x02#8, 0x03#8, 0x04#8, 0x05#8, 0x06#8, 0x07#8, 0x08#8, 0x09#8, 0x0A#8, 0x0B#8, 0x38#8].map
      (decodeWire .addressExpected .noBody)
    = [.wAeAddr01, .wAeAddr02, .wAeAddr03, .wAeAddr04, .wAeAddr05, .wAeAddr06, .wAeAddr07, .wAeAddr08, .wAeAddr09,
      .wAeAddr0A, .wAeAddr0B, .wAeAddr38] := by decide

/-- V-D13: among the bytes that are no address, FEND and FESC. -/
theorem test_wire_bad_addresses :
    ([0x00#8, 0x0C#8, 0x37#8, 0x39#8, 0xC0#8, 0xDB#8, 0xFF#8] : List Byte).all
      (fun b => decodeWire .addressExpected .noBody b == .wAeAddrBad b) = true := by decide

theorem test_wire_fend_in_receiving :
    [.noBody, .oneByte, .crcGood, .crcBad].map (fun fc => decodeWire .receiving fc 0xC0#8)
      = [.wRcvFendResync, .wRcvFendShort, .wRcvFendGood, .wRcvFendBadcrc] := by decide

/-- In Receiving 0xDB escapes, 0xDC and 0xDD are data. -/
theorem test_wire_receiving :
    [0xDB#8, 0xDC#8, 0xDD#8].map (decodeWire .receiving .noBody)
      = [.wRcvFesc, .wRcvData 0xDC#8, .wRcvData 0xDD#8] := by decide

/-- V-D14: 0xC0 and 0xDB after FESC are bad escapes. -/
theorem test_wire_escaping :
    [0xDC#8, 0xDD#8, 0xC0#8, 0xDB#8].map (decodeWire .escaping .noBody)
      = [.wEscTfend, .wEscTfesc, .wEscBad 0xC0#8, .wEscBad 0xDB#8] := by decide

theorem test_wire_terminated : decodeWire .terminated .noBody 0xC0#8 = .wTermAny 0xC0#8 := by decide

/-! ## The opcode table's words -/

/-- ENC with operands of zeros: byte 0 is the most significant byte of the row's word. -/
theorem test_tableWord_enc :
    decodeTableWord 112 0x2000000000000000000000000000 = some (.enc 0#32 0#16 0#8 0#32 0#16) := by decide

theorem test_tableWord_wire : decodeTableWord 8 0xC0 = some .wIdleFend := by decide

theorem test_fetchWord_runs :
    part (step (State.reset.withFetchWord 16 0x4005)) (fun t => t.cAnswers) = some [⟨.illegalCmd, 0#32⟩] := by decide

theorem test_fetchWord_runs_wire :
    part (step (State.reset.withFetchWord 8 0xC0)) (fun t => t.dec.state) = some .addressExpected := by decide

/-! ## Responses (R104, R105) -/

/-- V-C5's response: `[00 00 00 11 6C]`. -/
theorem test_response_bytes :
    Response.bytes ⟨.ok, 0x116C#32⟩ = [0x00#8, 0x00#8, 0x00#8, 0x11#8, 0x6C#8] := by decide

theorem test_status_codes :
    [Status.ok, .nullBuffer, .overflow, .invalidAddress, .escapeSequence, .crcMismatch, .illegalCmd].map Status.code
      = [0x00#8, 0x01#8, 0x02#8, 0x03#8, 0x04#8, 0x05#8, 0xFF#8] := by decide

/-! ## CRC (95 section 3, REF_CRC) -/

/-- V-C2, V-C4, V-C6 and V-C8. -/
theorem test_crc_steps :
    refCrc 0x01#8 0#16 = 0x1021#16 ∧ refCrc 0x68#8 0x2042#16 = 0x8BCC#16 ∧ refCrc 0xFF#8 0xFFFF#16 = 0xFF00#16
      ∧ refCrc 0x80#8 0x8000#16 = 0#16 := by decide

/-- The check string "123456789". -/
theorem test_crc_check :
    crcFold par4 [0x31#8, 0x32#8, 0x33#8, 0x34#8, 0x35#8, 0x36#8, 0x37#8, 0x38#8, 0x39#8] = 0x31C3#16 := by decide +kernel

/-- V-C5 as a command. -/
theorem test_crcAppend :
    part (exec (.crcAppend 0x69#8 0x8BCC#16) base) (fun t => t.cAnswers) = some [⟨.ok, 0x116C#32⟩] := by decide

/-! ## The ring (95 section 2) -/

/-- V-R2: the input cursor wraps. -/
theorem test_insert_wraps :
    part (thenDo (exec (.rbInsert 0x5A#8) (ringed 3 1 2 0 [])) (driveP 2)) ringRegs = some (0, 1, 3, 0) := by decide

/-- V-R2: the cell written. -/
theorem test_insert_stores :
    part (exec (.rbInsert 0x5A#8) (ringed 3 1 2 0 [])) (fun t => Memory.get t.ring.mem 3) = some (some 0x5A#8) := by decide

/-- V-R3: the output cursor wraps. -/
theorem test_remove_wraps :
    part (thenDo (exec .rbRemove lastByte) (driveC 2)) (fun t => (ringRegs t, t.cAnswers))
      = some ((0, 0, 0, 0), [⟨.ok, 0x44#32⟩]) := by decide

/-- V-R4. -/
theorem test_full_on_P : part (exec (.rbFull .p) fullRing) (fun t => t.pAnswers) = some [⟨.ok, 1#32⟩] := by decide
theorem test_empty_on_C : part (exec (.rbEmpty .c) fullRing) (fun t => t.cAnswers) = some [⟨.ok, 0#32⟩] := by decide
theorem test_count_on_C : part (exec (.rbCount .c) fullRing) (fun t => t.cAnswers) = some [⟨.ok, 4#32⟩] := by decide

/-- V-R5: dropped and counted. -/
theorem test_push_full :
    part (thenDo (exec (.rbPush 0x99#8) fullRing) (driveP 3)) (fun t => (ringRegs t, t.pAnswers))
      = some ((2, 2, 4, 8), [⟨.overflow, 0#32⟩]) := by decide

/-- V-R6: the counter wraps. -/
theorem test_push_counter_wraps :
    part (thenDo (exec (.rbPush 0x99#8) (ringed 2 2 4 0xFFFFFFFF [])) (driveP 3)) ringRegs = some (2, 2, 4, 0) := by
  decide

/-- V-R8: the counter kept. -/
theorem test_init :
    part (thenDo (exec .rbInit (ringed 1 3 2 5 [])) (driveC 3)) ringRegs = some (0, 0, 0, 5) := by decide

/-- V-R10: mem[2] = 99, in = 3, the fault recorded. -/
theorem test_overrun :
    part (thenDo (exec (.rbInsert 0x99#8) fullRing) (driveP 1))
      (fun t => (Memory.get t.ring.mem 2, t.ring.inCur.toNat, t.ring.overrun)) = some (some 0x99#8, 3, true) := by decide

/-- R140: RB_INIT ends it. -/
theorem test_init_ends_overrun :
    part (thenDo (exec .rbInit overrunRing) (driveC 3)) (fun t => (ringRegs t, t.ring.overrun))
      = some ((0, 0, 0, 7), false) := by decide

/-- R233: the run has ended then, and not well; from a ring without a fault it ends well. -/
theorem test_no_good_end_after_overrun :
    part (thenDo (exec .rbInit overrunRing) (driveC 3)) (fun t => (t.runEnded, t.goodEnd)) = some (true, false) := by
  decide
theorem test_good_end :
    part (thenDo (exec .rbInit fullRing) (driveC 3)) (fun t => (t.runEnded, t.goodEnd)) = some (true, true) := by decide

/-- V-R11. -/
theorem test_underrun : faulted (exec .rbRemove (ringed 2 2 0 0 [])) = some .ringUnderrun := by decide

/-- V-R12. -/
theorem test_not_initialised : refusal (exec (.rbCount .c) base) = some .ringNotInitialised := by decide

/-- V-X1: between i2 and i3 the ring still reads as empty. -/
theorem test_empty_before_i3 :
    part (exec (.rbEmpty .c) { ringed 1 0 0 0 [(0, 0x11#8)] with pBusy := some (.i3 0x11#8) }) (fun t => t.cAnswers)
      = some [⟨.ok, 1#32⟩] := by decide

/-- V-X2: a push between r2 and r3 finds the ring full. -/
theorem test_push_before_r3 :
    part (exec (.rbPush 0x99#8) { ringed 2 3 4 0 [] with cBusy := some (.r3 0x11#8) }) (fun t => t.pBusy)
      = some (some (.p1 0x99#8)) := by decide

/-! ## The encoder (95 section 4) -/

/-- V-E1, exactly filling the destination (P5). -/
theorem test_enc_frame :
    part (exec (.enc 0x200#32 7#16 0x02#8 0x100#32 2#16) hiPayload) (fun t => (t.bmReads 0x200 7, t.enc))
      = some ([0xC0#8, 0x02#8, 0x68#8, 0x69#8, 0x11#8, 0x6C#8, 0xC0#8], ⟨.ok, 7#16⟩) := by decide +kernel

/-- V-E1's storage after: the CRC, high byte first. -/
theorem test_enc_appends_crc :
    part (exec (.enc 0x200#32 7#16 0x02#8 0x100#32 2#16) hiPayload) (fun t => t.bmReads 0x100 4)
      = some [0x68#8, 0x69#8, 0x11#8, 0x6C#8] := by decide +kernel

/-- V-E10: one byte short. -/
theorem test_enc_overflow :
    part (exec (.enc 0x200#32 6#16 0x02#8 0x100#32 2#16) hiPayload) (fun t => (t.enc, t.bmReads 0x100 4))
      = some (⟨.overflow, 0#16⟩, [0x68#8, 0x69#8, 0x11#8, 0x6C#8]) := by decide +kernel

/-- V-E9, and V-E14's order of the checks. -/
theorem test_enc_address :
    part (exec (.enc 0x200#32 32#16 0x0C#8 0x100#32 2#16) hiPayload) (fun t => (t.enc.status, t.bm == hiPayload.bm))
      = some (.invalidAddress, true) := by decide
theorem test_enc_null :
    part (exec (.enc 0x200#32 32#16 0x0C#8 0#32 2#16) hiPayload) (fun t => t.cAnswers) = some [⟨.nullBuffer, 0#32⟩] := by
  decide

/-! ## The decoder (95 section 5) -/

/-- V-D18: mid-frame, the address kept. -/
theorem test_decInit :
    part (exec (.decInit 0x300#32 32#16) (decoding .receiving 3 32 [])) (fun t => (traced t, t.dec.addr))
      = some ((some .ok, .idle, 0), 0x02#8) := by decide

/-- R251: a null pointer keeps DEC.state, in Terminated too (log 27). -/
theorem test_decInit_null_terminated :
    part (exec (.decInit 0#32 32#16) (decoding .terminated 2 32 [])) (fun t => (t.dec.bound, t.dec.state))
      = some (false, .terminated) := by decide
theorem test_decInit_null :
    part (exec (.decInit 0#32 32#16) (decoding .receiving 3 32 [])) (fun t => (t.dec.bound, t.dec.status))
      = some (false, .nullBuffer) := by decide

/-- V-D18: a region that wraps. -/
theorem test_decInit_wraps : refusal (exec (.decInit 0xFFF0#32 32#16) base) = some .illegalRegion := by decide

theorem test_decByte_unbound : refusal (exec (.decByte 0xC0#8) base) = some .decoderUnbound := by decide

/-- V-D1's first and second byte. -/
theorem test_idle_fend :
    part (exec (.decByte 0xC0#8) (decoding .idle 0 32 [])) traced = some (some .ok, .addressExpected, 0) := by decide
theorem test_ae_addr :
    part (exec (.decByte 0x38#8) (decoding .addressExpected 0 32 [])) (fun t => (traced t, t.dec.addr))
      = some ((some .ok, .receiving, 0), 0x38#8) := by decide

/-- V-D13: 0x0C, and a FEND. -/
theorem test_ae_bad :
    part (exec (.decByte 0x0C#8) (decoding .addressExpected 0 32 [])) traced = some (some .invalidAddress, .idle, 0) := by
  decide
theorem test_ae_fend :
    part (exec (.decByte 0xC0#8) (decoding .addressExpected 0 32 [])) traced = some (some .invalidAddress, .idle, 0) := by
  decide

/-- V-D1's last byte: Terminated, index 2, CRC 0x116C. -/
theorem test_closing_good :
    part (exec (.decByte 0xC0#8) (decoding .receiving 4 4 [0x68#8, 0x69#8, 0x11#8, 0x6C#8])) (fun t => (traced t, t.dec.crc))
      = some ((some .ok, .terminated, 2), 0x116C#16) := by decide +kernel

/-- P3b: the body `68 69 6C` of a frame that lost its byte 0x11; the computed CRC is CrcFold([02,68]). -/
theorem test_closing_bad :
    part (exec (.decByte 0xC0#8) (decoding .receiving 3 32 [0x68#8, 0x69#8, 0x6C#8])) (fun t => (traced t, t.dec.crc))
      = some ((some .crcMismatch, .idle, 0), 0x8BCC#16) := by decide +kernel

/-- R203: one body byte, DEC.crc not written. -/
theorem test_closing_short :
    part (exec (.decByte 0xC0#8) (decoding .receiving 1 32 [0x68#8])) traced = some (some .crcMismatch, .idle, 0) := by
  decide

/-- V-D6. -/
theorem test_resync :
    part (exec (.decByte 0xC0#8) (decoding .receiving 0 32 [])) traced = some (some .ok, .addressExpected, 0) := by decide

/-- V-D5 with cap 4 and 3: the last byte that fits, the first that does not. -/
theorem test_data_fits :
    part (exec (.decByte 0x6C#8) (decoding .receiving 3 4 [])) (fun t => (traced t, Memory.get t.bm 0x303))
      = some ((some .ok, .receiving, 4), some 0x6C#8) := by decide
theorem test_data_overflow :
    part (exec (.decByte 0x6C#8) (decoding .receiving 3 3 [])) (fun t => (traced t, t.bm))
      = some ((some .overflow, .idle, 0), []) := by decide

/-- V-D15: no check at FESC, one at the byte after it. -/
theorem test_fesc_at_capacity :
    part (exec (.decByte 0xDB#8) (decoding .receiving 3 3 [])) traced = some (some .ok, .escaping, 3) := by decide
theorem test_esc_overflow :
    part (exec (.decByte 0xDC#8) (decoding .escaping 3 3 [])) traced = some (some .overflow, .idle, 0) := by decide

/-- V-D2: the literals that the two escapes stand for. -/
theorem test_esc_tfend :
    part (exec (.decByte 0xDC#8) (decoding .escaping 0 32 [])) (fun t => (traced t, t.bm))
      = some ((some .ok, .receiving, 1), [(0x300, 0xC0#8)]) := by decide
theorem test_esc_tfesc :
    part (exec (.decByte 0xDD#8) (decoding .escaping 1 32 [])) (fun t => (traced t, t.bm))
      = some ((some .ok, .receiving, 2), [(0x301, 0xDB#8)]) := by decide

/-- V-D14. -/
theorem test_esc_bad :
    part (exec (.decByte 0xC0#8) (decoding .escaping 0 32 [])) traced = some (some .escapeSequence, .idle, 0) := by decide

/-- V-D16. -/
theorem test_terminated :
    part (exec (.decByte 0xC0#8) (decoding .terminated 2 32 [])) traced = some (some .ok, .terminated, 2) := by decide

/-- A wire row that the state does not select. -/
theorem test_row_not_selected : refusal (exec .wIdleFend (decoding .receiving 0 32 [])) = some .wireRowNotSelected := by
  decide

/-! ## RD (95 section 6) -/

/-- V-I7 and V-R13 after reset. -/
theorem test_rd_encStatus : part (exec (.rd 0x20#8) State.reset) (fun t => t.cAnswers) = some [⟨.ok, 0#32⟩] := by decide
theorem test_rd_not_inited : part (exec (.rd 0x04#8) State.reset) (fun t => t.cAnswers) = some [⟨.ok, 0#32⟩] := by decide
theorem test_rd_inited : part (exec (.rd 0x04#8) fullRing) (fun t => t.cAnswers) = some [⟨.ok, 1#32⟩] := by decide

/-! ## Memories -/

theorem test_memory_set_order :
    Memory.set [(1, 0x11#8), (5, 0x55#8)] 3 0x33#8 = [(1, 0x11#8), (3, 0x33#8), (5, 0x55#8)] := by decide
theorem test_memory_not_wf : Memory.wf [(3, 0x33#8), (3, 0x44#8)] = false := by decide

/-! ## Premises met: for each statement with premises, a state and operands that meet them all -/

theorem hyps_CommandsDecodeFromTheirPackets :
    Instr.WellFormed (.enc 0xFFFFFFFF#32 0xFFFF#16 0#8 1#32 0#16) = true
      ∧ Instr.isWire (.enc 0xFFFFFFFF#32 0xFFFF#16 0#8 1#32 0#16) = false := by decide
theorem hyps_CommandsDecodeFromTheirPackets_unassigned :
    Instr.WellFormed (.unassigned .p []) = true ∧ Instr.isWire (.unassigned .p []) = false := by decide
theorem hyps_WireTableIsExact :
    Instr.WellFormed .wRcvFendGood = true ∧ Instr.wireState .wRcvFendGood = some .receiving
      ∧ Instr.fendCase .wRcvFendGood = some .crcGood := by decide
theorem hyps_WireTableIsExact_noCase :
    Instr.WellFormed (.wAeAddrBad 0x39#8) = true ∧ Instr.wireState (.wAeAddrBad 0x39#8) = some .addressExpected
      ∧ Instr.fendCase (.wAeAddrBad 0x39#8) = none := by decide
theorem hyps_IllegalPackets_left : decode .c [0x05#8, 0x11#8] = .unassigned .c [0x05#8, 0x11#8] := by decide
theorem hyps_IllegalPackets_right : decode .p [0x02#8] ≠ .unassigned .p [0x02#8] := by decide
theorem hyps_UnassignedChangesNothing : base.pBusy = none ∧ base.cBusy = none := by decide
theorem hyps_HardwareResetAnytime :
    { fullRing with sched := [.reset, .port .p] }.sched = .reset :: [.port .p] := by decide

/-- Every register of RD specified: a ring initialised and sound, a decoder armed. -/
theorem hyps_RdAnswersByNumber :
    let s := { fullRing with dec := (decoding .idle 0 32 []).dec }
    s.cBusy = none ∧ (s.ring.inited && !s.ring.overrun) = true ∧ s.dec.armed = true ∧ s.dec.statusSet = true
      ∧ s.dec.addrSet = true := by decide

/-- The registers that always are, and RB.ovf, before any initialisation. -/
theorem hyps_RdAnswersByNumber_reset : base.cBusy = none ∧ (!base.ring.overrun) = true := by decide

/-- One unit's registers while the other unit has none. -/
theorem hyps_RdAnswersByNumber_ring : fullRing.cBusy = none ∧ (fullRing.ring.inited && !fullRing.ring.overrun) = true
    ∧ fullRing.dec.armed = false := by decide

/-- The unassigned numbers next to the assigned ones. -/
theorem hyps_RdAnswersByNumber_unassigned :
    ∀ n ∈ ([0x05#8, 0x0F#8, 0x18#8, 0x1F#8, 0x22#8, 0xFF#8] : List Byte),
      n ∉ ([0x00#8, 0x01#8, 0x02#8, 0x03#8, 0x04#8, 0x10#8, 0x11#8, 0x12#8, 0x13#8, 0x14#8, 0x15#8, 0x16#8, 0x17#8, 0x20#8,
        0x21#8] : List Byte) := by decide
theorem hyps_RdUnwrittenIsADraw :
    base.cBusy = none ∧ regOf 0x00#8 = some .rbCount ∧ regWritten base .rbCount = false := by decide
theorem hyps_RdUnwrittenIsADraw_overrun :
    overrunRing.cBusy = none ∧ regOf 0x03#8 = some .rbOvf ∧ regWritten overrunRing .rbOvf = false := by decide
theorem hyps_InitResetsTheRing : base.cBusy = none ∧ base.pBusy = none := by decide

/-- The answers at the two ends of the count. -/
theorem hyps_CountQueriesAnswer :
    fullRing.ring.inited = true ∧ fullRing.ring.overrun = false ∧ fullRing.pBusy = none ∧ fullRing.initRunning = false
      ∧ fullRing.cBusy = none
      ∧ fullRing.par.ringSize ≤ fullRing.ring.count.toNat := by decide
theorem hyps_InsertRunsItsMicroSteps :
    almostFull.pBusy = none ∧ almostFull.initRunning = false ∧ almostFull.ring.inited = true
      ∧ almostFull.ring.overrun = false
      ∧ almostFull.ring.count.toNat < almostFull.par.ringSize ∧ almostFull.ring.inCur.toNat < almostFull.par.ringSize := by
  decide
theorem hyps_RemoveRunsItsMicroSteps :
    lastByte.cBusy = none ∧ lastByte.ring.inited = true ∧ lastByte.ring.overrun = false ∧ 0 < lastByte.ring.count.toNat
      ∧ lastByte.ring.outCur.toNat < lastByte.par.ringSize := by decide
theorem hyps_PushWithRoomIsAnInsert :
    almostFull.pBusy = none ∧ almostFull.initRunning = false ∧ almostFull.ring.inited = true
      ∧ almostFull.ring.overrun = false
      ∧ almostFull.ring.count.toNat < almostFull.par.ringSize ∧ almostFull.ring.inCur.toNat < almostFull.par.ringSize := by
  decide
theorem hyps_PushWithoutRoomDrops :
    fullRing.pBusy = none ∧ fullRing.initRunning = false ∧ fullRing.ring.inited = true ∧ fullRing.ring.overrun = false
      ∧ fullRing.par.ringSize ≤ fullRing.ring.count.toNat := by decide
theorem hyps_ViolatedPreconditionsFault_full :
    fullRing.ring.inited = true ∧ fullRing.pBusy = none ∧ fullRing.initRunning = false
      ∧ fullRing.par.ringSize ≤ fullRing.ring.count.toNat ∧ fullRing.ring.inCur.toNat < fullRing.par.ringSize := by decide
theorem hyps_ViolatedPreconditionsFault_after :
    overrunRing.ring.inited = true ∧ overrunRing.ring.overrun = true ∧ overrunRing.pBusy = none
      ∧ overrunRing.initRunning = false ∧ overrunRing.cBusy = none := by decide
theorem hyps_ViolatedPreconditionsFault_empty :
    (ringed 2 2 0 0 []).ring.inited = true ∧ (ringed 2 2 0 0 []).ring.overrun = false ∧ (ringed 2 2 0 0 []).cBusy = none
      ∧ (ringed 2 2 0 0 []).ring.count = 0#16 := by decide
theorem hyps_RingCommandsRefused_notInited :
    base.ring.inited = false ∧ base.initRunning = false ∧ base.pBusy = none ∧ base.cBusy = none := by decide
theorem hyps_RingCommandsRefused_init :
    bothBusy.pBusy.isSome = true ∧ { bothBusy with cBusy := none }.cBusy = none := by decide
theorem hyps_RingCommandsRefused_initRunning :
    let s := { fullRing with cBusy := some .n2 }
    s.pBusy = none ∧ s.initRunning = true := by decide
theorem hyps_BusyPortTakesNoCommand :
    bothBusy.busy (Instr.port (.rbInsert 0#8)) = true ∧ bothBusy.busy (Instr.port .wIdleFend) = true := by decide

/-- Both ports at work, the next micro-step P's. -/
theorem hyps_RingInvariantKept : bothBusy.RingInvariant ∧ ∃ t, step bothBusy = .next t := by
  refine ⟨by decide, ?_⟩
  have h : (part (step bothBusy) (fun _ => ())).isSome = true := by
    unfold step nextAction State.mover
    cases Config.freePick bothBusy.draws <;> decide
  revert h
  cases step bothBusy <;> simp [part]

/-- The invariant says something after an overrun too. -/
theorem hyps_RingInvariantKept_overrun :
    let s := overrunRing.issue .c [0x06#8]
    s.RingInvariant ∧ (part (step s) ringRegs).isSome = true := by decide

/-- The state that a scheduled move starts from. -/
def scheduled (port : Port) : State := { bothBusy with sched := [.port port] }

theorem hyps_StepsRefineAQueue_i3 :
    (scheduled .p).RingInvariant ∧ (scheduled .p).ring.inited = true ∧ (scheduled .p).initRunning = false
      ∧ (scheduled .p).sched.head? ≠ some .reset ∧ (scheduled .p).pBusy = some (.i3 0xBB#8)
      ∧ part (step (scheduled .p)) (fun t => (t.pBusy, t.ring.overrun)) = some (none, false) := by decide
theorem hyps_StepsRefineAQueue_r3 :
    (scheduled .c).RingInvariant ∧ (scheduled .c).ring.inited = true ∧ (scheduled .c).initRunning = false
      ∧ (scheduled .c).sched.head? ≠ some .reset ∧ (scheduled .c).cBusy = some (.r3 0xAA#8)
      ∧ part (step (scheduled .c)) (fun t => (t.cBusy, t.ring.overrun)) = some (none, false) := by decide

/-- A micro-step i1 leaves the count. -/
theorem hyps_StepsRefineAQueue_kept :
    let s := { almostFull with pBusy := some (.i1 0x44#8) }
    s.RingInvariant ∧ s.ring.inited = true ∧ s.initRunning = false ∧ s.sched.head? ≠ some .reset
      ∧ part (step s) (fun t => (t.ring.count, t.ring.overrun)) = some (s.ring.count, false) := by decide

/-- As many bytes as the ring holds. -/
theorem hyps_InsertsThenRemovesReturnInOrder :
    let s := ringed 3 3 0 0 []
    s.RingInvariant ∧ s.ring.inited = true ∧ s.ring.overrun = false ∧ s.pBusy = none ∧ s.cBusy = none ∧ s.ring.count = 0#16
      ∧ [0x11#8, 0x22#8, 0x33#8, 0x44#8].length ≤ s.par.ringSize := by decide
theorem hyps_AcceptedCommandsComplete :
    bothBusy.RingInvariant ∧ bothBusy.pBusy = some (.i3 0xBB#8) ∧ bothBusy.cBusy = some (.r3 0xAA#8) := by decide
theorem hyps_InsertAndRemoveCommute :
    bothBusy.RingInvariant ∧ bothBusy.ring.overrun = false ∧ bothBusy.pBusy = some (.i3 0xBB#8)
      ∧ bothBusy.cBusy = some (.r3 0xAA#8) ∧ bothBusy.inserting = true ∧ bothBusy.removing = true := by decide
theorem hyps_RingRegisterWriters :
    (scheduled .p).sched.head? ≠ some .reset
      ∧ part (step (scheduled .p)) (fun t => t.ring.count.toNat) = some 2 := by decide
theorem hyps_RingRegisterWriters_overrun :
    let s := fullRing.issue .p [0x05#8, 0x99#8]
    s.sched.head? ≠ some .reset ∧ part (step s) (fun t => t.ring.overrun) = some true := by decide

/-- A fault recorded, the step RB_INIT's last write. -/
theorem hyps_RingRegisterWriters_faulted :
    let s := { overrunRing with cBusy := some .n4 }
    s.sched.head? ≠ some .reset ∧ s.runFaulted = true ∧ part (step s) (fun t => t.ring.overrun) = some false := by decide
theorem hyps_ProducerTouchesOnlyItsOwn :
    Instr.port (.rbInsert 0x5A#8) = .p ∧ (part (exec (.rbInsert 0x5A#8) almostFull) ringRegs).isSome = true
      ∧ (part (microP (.i1 0x5A#8) almostFull) ringRegs).isSome = true := by decide
theorem hyps_ConsumerTouchesOnlyItsOwn :
    Instr.port .rbRemove = .c ∧ (part (exec .rbRemove lastByte) ringRegs).isSome = true
      ∧ (part (microC (.r2 0x44#8) lastByte) ringRegs).isSome = true := by decide
theorem hyps_CrcAppendAnswersOneStep : base.cBusy = none := by decide
theorem hyps_ChainedAppendsGiveTheFold : base.cBusy = none ∧ [0x02#8, 0x68#8] ≠ [] := by decide
theorem hyps_EncRejects_null : base.cBusy = none ∧ ((0x200#32 : Ptr) = 0#32 ∨ (0#32 : Ptr) = 0#32) := by decide
theorem hyps_EncRejects_address :
    base.cBusy = none ∧ ((0x200#32 : Ptr) ≠ 0#32 ∧ (0x100#32 : Ptr) ≠ 0#32)
      ∧ ¬((1 ≤ (0x0C#8 : Byte).toNat ∧ (0x0C#8 : Byte).toNat ≤ 11) ∨ (0x0C#8 : Byte).toNat = 56) := by decide

/-- The premises that ENC's two outcomes share, the destination ending at the top of BM, the payload storage just below
the destination. -/
theorem hyps_Enc_shared :
    hiPayload.cBusy = none ∧ validAddr 0x0B#8 = true ∧ regionLegal hiPayload.par.addrWidth 0xFFF9 7 = true
      ∧ regionLegal hiPayload.par.addrWidth 0xFFF5 (2 + 2) = true ∧ regionsMeet 0xFFF9 7 0xFFF5 (2 + 2) = false
      ∧ hiPayload.dec.live = false := by decide

/-- V-E1's frame is 7 bytes: it fits 7 and not 6. -/
theorem hyps_Enc_length :
    let P := hiPayload.bmReads 0x100 2
    let c := crcFold hiPayload.par (0x02#8 :: P)
    let F := frameOf 0x02#8 (P ++ [hiByte c, loByte c])
    F.length ≤ 7 ∧ 6 < F.length := by decide +kernel
theorem hyps_EncWritesTheFrame :
    hiPayload.cBusy = none ∧ validAddr 0x02#8 = true ∧ regionLegal hiPayload.par.addrWidth 0x200 7 = true
      ∧ regionLegal hiPayload.par.addrWidth 0x100 (2 + 2) = true ∧ regionsMeet 0x200 7 0x100 (2 + 2) = false
      ∧ ¬(hiPayload.dec.live = true
          ∧ regionsMeet hiPayload.dec.buf.toNat hiPayload.dec.cap.toNat (0x100 + 2) 2 = true) := by decide
theorem hyps_EncOverflowsPastTheCapacity :
    hiPayload.cBusy = none ∧ validAddr 0x02#8 = true ∧ regionLegal hiPayload.par.addrWidth 0x200 6 = true
      ∧ regionLegal hiPayload.par.addrWidth 0x100 (2 + 2) = true ∧ regionsMeet 0x200 6 0x100 (2 + 2) = false
      ∧ ¬(hiPayload.dec.live = true
          ∧ regionsMeet hiPayload.dec.buf.toNat hiPayload.dec.cap.toNat (0x100 + 2) 2 = true) := by decide
theorem hyps_EncRefusesBadRegions_illegal :
    base.cBusy = none ∧ validAddr 0x02#8 = true ∧ 2 ^ base.par.addrWidth ≤ (0x10000#32 : Ptr).toNat
      ∧ 2 ^ base.par.addrWidth < (0xFFFF#32 : Ptr).toNat + (2#16 : Word16).toNat
      ∧ 2 ^ base.par.addrWidth < (0xFFFF#32 : Ptr).toNat + ((0#16 : Word16).toNat + 2) := by decide

/-- The last byte of the destination is the first of the payload storage. -/
theorem hyps_EncRefusesBadRegions_overlap :
    (0x100 : Nat) < 2 ^ base.par.addrWidth ∧ 0x100 + 8 ≤ 2 ^ base.par.addrWidth ∧ 0x107 + (2 + 2) ≤ 2 ^ base.par.addrWidth
      ∧ ((0x100 ≤ 0x107 ∧ 0x107 < 0x100 + 8) ∧ (0x107 ≤ 0x107 ∧ 0x107 < 0x107 + (2 + 2))) := by decide

/-- The last byte of the decoder's live buffer is the first of the CRC's two. -/
theorem hyps_EncRefusesBadRegions_tail :
    let s := decoding .idle 0 4 []
    s.cBusy = none ∧ (0x200 : Nat) < 2 ^ s.par.addrWidth ∧ 0x200 + 8 ≤ 2 ^ s.par.addrWidth
      ∧ 0x301 + (2 + 2) ≤ 2 ^ s.par.addrWidth ∧ regionsMeet 0x200 8 0x301 (2 + 2) = false ∧ s.dec.live = true
      ∧ (s.dec.buf.toNat ≤ 0x303 ∧ 0x303 < s.dec.buf.toNat + s.dec.cap.toNat) ∧ 0x303 = 0x301 + 2 := by decide
theorem hyps_FramesAreDelimited : validAddr 0x38#8 = true := by decide

/-- A region that ends at the top of BM. -/
theorem hyps_DecInitBinds :
    base.cBusy = none ∧ (0xFFF0#32 : Ptr) ≠ 0#32 ∧ (0xFFF0#32 : Ptr).toNat < 2 ^ base.par.addrWidth
      ∧ (0xFFF0#32 : Ptr).toNat + (16#16 : Word16).toNat ≤ 2 ^ base.par.addrWidth := by decide
theorem hyps_DecoderNeedsALegalBuffer :
    base.cBusy = none ∧ (0xFFF0#32 : Ptr) ≠ 0#32
      ∧ 2 ^ base.par.addrWidth < (0xFFF0#32 : Ptr).toNat + (17#16 : Word16).toNat ∧ base.dec.bound = false := by decide
theorem hyps_RowsThatMoveTheState_idle :
    (decoding .idle 0 0 []).DecReady ∧ (decoding .idle 0 0 []).dec.state = .idle ∧ (0xDB#8 : Byte) ≠ 0xC0#8 := by decide
theorem hyps_RowsThatMoveTheState_receiving :
    (decoding .receiving 0 0 []).DecReady ∧ (decoding .receiving 0 0 []).dec.state = .receiving
      ∧ (decoding .receiving 0 0 []).dec.idx = 0#16 := by decide
theorem hyps_ValidAddressesAreStored :
    (decoding .addressExpected 0 0 []).DecReady ∧ (decoding .addressExpected 0 0 []).dec.state = .addressExpected := by
  decide
theorem hyps_ErrorRowsReturnToIdle_address :
    (decoding .addressExpected 0 0 []).DecReady
      ∧ ¬((1 ≤ (0x0C#8 : Byte).toNat ∧ (0x0C#8 : Byte).toNat ≤ 11) ∨ (0x0C#8 : Byte).toNat = 56) := by decide
theorem hyps_ErrorRowsReturnToIdle_short :
    (decoding .receiving 1 1 []).DecReady ∧ (decoding .receiving 1 1 []).dec.state = .receiving
      ∧ (decoding .receiving 1 1 []).dec.idx = 1#16 := by decide
theorem hyps_ErrorRowsReturnToIdle_escape :
    (decoding .escaping 0 0 []).DecReady ∧ (decoding .escaping 0 0 []).dec.state = .escaping ∧ (0xDB#8 : Byte) ≠ 0xDC#8
      ∧ (0xDB#8 : Byte) ≠ 0xDD#8 := by decide

/-- The shortest body with a CRC, an empty payload (V-D3), in a buffer that it fills. -/
theorem hyps_ClosingFendChecksTheCrc_good :
    let s := (decoding .receiving 2 2 [0xB1#8, 0x6B#8]).withDec
      { (decoding .receiving 2 2 []).dec with addr := 0x0B#8 }
    s.DecReady ∧ s.dec.state = .receiving ∧ 2 ≤ s.dec.idx.toNat ∧ s.dec.idx.toNat ≤ s.dec.cap.toNat
      ∧ crcFold s.par (s.dec.addr :: s.bmReads s.dec.buf.toNat 0) = be16 (s.bmRead 0x300) (s.bmRead 0x301) := by decide
theorem hyps_ClosingFendChecksTheCrc_bad :
    let s := decoding .receiving 2 2 [0xB1#8, 0x6B#8]
    s.DecReady ∧ s.dec.state = .receiving ∧ 2 ≤ s.dec.idx.toNat ∧ s.dec.idx.toNat ≤ s.dec.cap.toNat
      ∧ crcFold s.par (s.dec.addr :: s.bmReads s.dec.buf.toNat 0) ≠ be16 (s.bmRead 0x300) (s.bmRead 0x301) := by decide
theorem hyps_AppendingRowsStoreOneByte_data :
    (decoding .receiving 3 4 []).DecReady ∧ (decoding .receiving 3 4 []).dec.state = .receiving ∧ (0xDC#8 : Byte) ≠ 0xC0#8
      ∧ (0xDC#8 : Byte) ≠ 0xDB#8 ∧ (3#16 : Word16).toNat < (4#16 : Word16).toNat := by decide
theorem hyps_AppendingRowsStoreOneByte_escaped :
    (decoding .escaping 3 3 []).DecReady ∧ (decoding .escaping 3 3 []).dec.state = .escaping
      ∧ (3#16 : Word16).toNat ≤ (3#16 : Word16).toNat := by decide
theorem hyps_TerminatedIgnoresBytes :
    (decoding .terminated 2 4 []).DecReady ∧ (decoding .terminated 2 4 []).dec.state = .terminated := by decide

/-- In Idle no byte selects a row of Receiving. -/
theorem hyps_DecByteRunsItsRow :
    (decoding .idle 0 4 []).DecReady ∧ Instr.isWire .wRcvFesc = true ∧ Instr.WellFormed .wRcvFesc = true
      ∧ ∀ b, decodeWire (decoding .idle 0 4 []).dec.state (decoding .idle 0 4 []).fendCase b ≠ .wRcvFesc := by
  refine ⟨by decide, by decide, by decide, fun b => ?_⟩
  show (if b = fend then Instr.wIdleFend else .wIdleOther b) ≠ _
  split <;> simp
theorem hyps_DecByteAlwaysAnswers :
    (decoding .escaping 3 3 []).DecReady ∧ (decoding .escaping 3 3 []).DecoderInvariant := by decide
theorem hyps_EveryDecodeErrorResets :
    (decoding .escaping 3 3 []).DecoderInvariant
      ∧ part (exec (.decByte 0xDC#8) (decoding .escaping 3 3 [])) (fun t => t.dec.status) = some .overflow := by decide
theorem hyps_OnlyDecInitLeavesTerminated :
    (decoding .terminated 2 4 []).dec.state = .terminated ∧ (∀ buf cap, Instr.decByte 0xC0#8 ≠ .decInit buf cap)
      ∧ (part (exec (.decByte 0xC0#8) (decoding .terminated 2 4 [])) traced).isSome = true :=
  ⟨by decide, by simp, by decide⟩

/-- The buffer that just holds the payload and its CRC, and the one a byte smaller. -/
theorem hyps_FramesDecodeToTheirPayload :
    (decoding .idle 0 4 []).DecReady ∧ (decoding .idle 0 4 []).dec.state = .idle ∧ (decoding .idle 0 4 []).dec.idx = 0#16
      ∧ validAddr 0x02#8 = true ∧ [0xC0#8, 0xDB#8].length + 2 ≤ (decoding .idle 0 4 []).dec.cap.toNat := by decide
theorem hyps_SmallBuffersOverflow :
    (decoding .idle 0 3 []).DecReady ∧ (decoding .idle 0 3 []).dec.state = .idle ∧ (decoding .idle 0 3 []).dec.idx = 0#16
      ∧ validAddr 0x02#8 = true ∧ (decoding .idle 0 3 []).dec.cap.toNat < [0xC0#8, 0xDB#8].length + 2 := by decide

/-- V-D1's body with the lowest bit of the payload's first byte flipped. -/
theorem hyps_OneFlippedBitIsDetected :
    let s := decoding .receiving 4 4 [0x69#8, 0x69#8, 0x11#8, 0x6C#8]
    s.DecReady ∧ CrcSingleBit s.par ∧ s.dec.state = .receiving ∧ s.dec.idx.toNat ≤ s.dec.cap.toNat
      ∧ s.dec.idx.toNat = [0x68#8, 0x69#8].length + 2
      ∧ OneBitApart (bodyOf s.par s.dec.addr [0x68#8, 0x69#8]) [0x69#8, 0x69#8, 0x11#8, 0x6C#8]
      ∧ s.bmReads s.dec.buf.toNat s.dec.idx.toNat = [0x69#8, 0x69#8, 0x11#8, 0x6C#8] :=
  ⟨by decide, crcSingleBit_reference rfl, by decide, by decide, by decide,
    ⟨[], 0x68#8, [0x69#8, 0x11#8, 0x6C#8], 0, by decide, by decide +kernel, by decide⟩, by decide +kernel⟩
theorem hyps_OutOfStepDecoderLosesTheFrame :
    (decoding .addressExpected 0 0 []).DecReady ∧ (decoding .addressExpected 0 0 []).dec.state = .addressExpected
      ∧ validAddr 0x01#8 = true := by decide

/-- A frame complete in a buffer that it fills, and a packet to issue. -/
theorem hyps_DecoderInvariantKept :
    let s := (decoding .terminated 2 4 []).issue .c [0x31#8, 0xC0#8]
    s.DecoderInvariant ∧ (part (step s) traced).isSome = true := by decide
theorem hyps_EncoderAndCounterKept :
    let s := (ringed 2 2 4 0xFFFFFFFF []).issue .p [0x07#8, 0x99#8]
    s.EncoderInvariant ∧ s.CounterFits ∧ (part (step s) ringRegs).isSome = true := by decide
theorem hyps_MemoriesStayCanonical :
    let s := almostFull.issue .p [0x05#8, 0x99#8]
    s.MemoriesCanonical ∧ part (step s) (fun t => Memory.get t.ring.mem 3) = some (some 0x99#8) := by decide
theorem hyps_ParametersAreConstant :
    (part (step (almostFull.issue .p [0x05#8, 0x99#8])) ringRegs).isSome = true := by decide
theorem hyps_StepRunsTheDecodedCommand_P :
    let s := almostFull.issue .p [0x05#8, 0x99#8]
    s.sched.head? ≠ some .reset ∧ s.mover = some .p ∧ s.pBusy = none ∧ s.pQueue = [0x05#8, 0x99#8] :: []
      ∧ decode .p [0x05#8, 0x99#8] = .rbInsert 0x99#8 := by decide
theorem hyps_StepRunsTheDecodedCommand_C :
    let s := almostFull.issue .c [0x06#8]
    s.sched.head? ≠ some .reset ∧ s.mover = some .c ∧ s.cBusy = none ∧ s.cQueue = .command [0x06#8] :: []
      ∧ decode .c [0x06#8] = .rbRemove := by decide
theorem hyps_StepRunsTheOtherMoves_micro :
    (scheduled .p).mover = some .p ∧ (scheduled .p).pBusy = some (.i3 0xBB#8) ∧ (scheduled .c).mover = some .c
      ∧ (scheduled .c).cBusy = some (.r3 0xAA#8) := by decide
theorem hyps_StepRunsTheOtherMoves_write :
    let s := { base with cQueue := [.write 0xFFFF 0x41#8] }
    s.sched.head? ≠ some .reset ∧ s.mover = some .c ∧ s.cBusy = none ∧ s.cQueue = .write 0xFFFF 0x41#8 :: []
      ∧ 0xFFFF < 2 ^ s.par.addrWidth ∧ s.dec.live = false := by decide

/-- A live buffer at 0x300 to 0x303: writes just below it, at its last byte, just past it. -/
theorem hyps_StepRunsTheOtherMoves_live :
    let s := { decoding .idle 0 4 [] with cQueue := [.write 0x303 0x41#8] }
    s.sched.head? ≠ some .reset ∧ s.mover = some .c ∧ s.cBusy = none ∧ s.dec.live = true
      ∧ (s.dec.buf.toNat ≤ 0x303 ∧ 0x303 < s.dec.buf.toNat + s.dec.cap.toNat) ∧ 0x303 < 2 ^ s.par.addrWidth
      ∧ ¬(s.dec.buf.toNat ≤ 0x2FF) ∧ ¬(0x304 < s.dec.buf.toNat + s.dec.cap.toNat) := by decide
theorem hyps_StepRunsTheOtherMoves_outside :
    let s := { base with cQueue := [.write 0x10000 0x41#8] }
    s.mover = some .c ∧ s.cBusy = none ∧ 2 ^ s.par.addrWidth ≤ 0x10000 := by decide

/-- The two stops of a host write. -/
theorem test_hostWrite_in_bound_region :
    refusal (step { decoding .idle 0 4 [] with cQueue := [.write 0x303 0x41#8] }) = some .hostWriteInBoundRegion := by
  decide
theorem test_hostWrite_outside :
    faulted (step { base with cQueue := [.write 0x10000 0x41#8] }) = some .outsideMemory := by decide
theorem hyps_StepRunsTheOtherMoves_idle :
    base.sched.head? ≠ some .reset ∧ base.pBusy = none ∧ base.cBusy = none ∧ base.pQueue = [] ∧ base.cQueue = [] := by
  decide
theorem hyps_ScheduleNamesTheMover_one :
    let s := { base with pQueue := [[0x02#8]], sched := [.port .c] }
    s.hasWork .p = true ∧ s.hasWork .c = false := by decide
theorem hyps_ScheduleNamesTheMover_free :
    bothBusy.hasWork .p = true ∧ bothBusy.hasWork .c = true ∧ bothBusy.sched = [] := by decide
theorem hyps_ScheduleNamesTheMover :
    (scheduled .p).sched = .port .p :: [] ∧ (scheduled .p).hasWork .p = true ∧ (scheduled .p).hasWork .c = true := by decide

end Sys2Proof.Tests
end

section
/-! SUPPORT. What one step can do to the units, said once: the ring's moves (40_ring_buffer.md R131, R133, R145), the
effect of a command or of a micro-step, the effect of a step. The invariants of 10_state.md are read off from these. -/

namespace Sys2Proof.Machine

/-! ## Effects -/

/-- The ring's part of two states agrees: the parameters, the unit, the commands in progress, the run's fault record. -/
structure SameRing (s t : State) : Prop where
  par : t.par = s.par
  ring : t.ring = s.ring
  pBusy : t.pBusy = s.pBusy
  cBusy : t.cBusy = s.cBusy
  runFaulted : t.runFaulted = s.runFaulted

/-- Port P is free for a ring command: idle, the ring initialised, no RB_INIT in progress (R28, R149). -/
structure State.ReadyForP (s : State) : Prop where
  idle : s.pBusy = none
  inited : s.ring.inited = true
  noInit : s.initRunning = false

/-- The moves of the ring: each micro-step that writes a ring register or a latch, with the states it leads to. A result
that a RingOverrun leaves open (R140) is any value, and `n` counts the values drawn. -/
inductive RingMove (s : State) : State → Prop where
  /-- p0 of RB_PUSH: the branch; an insert is chosen only where there is room (R145). -/
  | choose (n : Nat) {b : Byte} {g : PStage} : s.ReadyForP →
      (g = .p1 b ∨ g = .i1 b ∧ (s.ring.overrun = false → s.ring.count.toNat < s.par.ringSize)) →
      RingMove s ((s.drew n).holdP g)
  /-- i1, RB_INSERT's own or the one after p0. -/
  | store (b : Byte) : s.ReadyForP ∨ s.pBusy = some (.i1 b) → s.ring.inCur.toNat < s.par.ringSize →
      RingMove s (((s.withRing { s.ring with mem := Memory.set s.ring.mem s.ring.inCur.toNat b }).noteOverrun
        s.full).holdP (.i2 b))
  /-- i2. -/
  | advanceIn {b : Byte} : s.pBusy = some (.i2 b) →
      RingMove s ((s.withRing { s.ring with inCur := nextCursor s.par s.ring.inCur }).holdP (.i3 b))
  /-- i3. -/
  | countUp (n : Nat) {b : Byte} {c : Word16} : s.pBusy = some (.i3 b) →
      (s.ring.overrun = false → c = s.ring.count + 1#16) →
      RingMove s (((s.withRing { s.ring with count := c }).drew n).answer .p .ok 0#32)
  /-- p1. -/
  | drop {b : Byte} : s.pBusy = some (.p1 b) →
      RingMove s ((s.withRing { s.ring with ovf := (s.ring.ovf + 1) % 2 ^ s.par.ctrWidth }).answer .p .overflow 0#32)
  /-- r1. -/
  | load (n : Nat) {v : Byte} : s.cBusy = none → s.ring.inited = true →
      (s.ring.overrun = false → 0 < s.ring.count.toNat ∧ s.ring.cell s.ring.outCur.toNat = v) →
      RingMove s ((s.drew n).holdC (.r2 v))
  /-- r2. -/
  | advanceOut (n : Nat) {v : Byte} {c : Word16} : s.cBusy = some (.r2 v) →
      (c = nextCursor s.par s.ring.outCur ∨ s.ring.overrun = true ∧ ∃ d, c = freeCursor s.par d) →
      RingMove s (((s.withRing { s.ring with outCur := c }).drew n).holdC (.r3 v))
  /-- r3. -/
  | countDown (n : Nat) {v : Byte} {c : Word16} {x : Value} : s.cBusy = some (.r3 v) →
      (s.ring.overrun = false → 0 < s.ring.count.toNat ∧ c = s.ring.count - 1#16) →
      RingMove s (((s.withRing { s.ring with count := c }).drew n).answer .c .ok x)
  /-- RB_INIT's first write. -/
  | initIn : s.cBusy = none → s.pBusy = none → RingMove s ((s.withRing { s.ring with inCur := 0#16 }).holdC .n2)
  /-- RB_INIT's second write. -/
  | initOut : s.cBusy = some .n2 → RingMove s ((s.withRing { s.ring with outCur := 0#16 }).holdC .n3)
  /-- RB_INIT's third write. -/
  | initCount : s.cBusy = some .n3 → RingMove s ((s.withRing { s.ring with count := 0#16 }).holdC .n4)
  /-- RB_INIT's last write. -/
  | initDone : s.cBusy = some .n4 →
      RingMove s ((s.withRing { s.ring with inited := true, overrun := false }).answer .c .ok 0#32)

/-- The effect of a command, a micro-step, a host write, or of no work at all. -/
inductive Effect (s : State) : State → Prop where
  | idle : Effect s s
  | answers (n : Nat) (port : Port) (st : Status) (v : Value) : s.busy port = false →
      Effect s ((s.drew n).answer port st v)
  | ring {t : State} : RingMove s t → Effect s t
  | decByte {b : Byte} {t : State} : execDecByte b s = .next t → Effect s t
  | decInit {buf : Ptr} {cap : Word16} {t : State} : execDecInit buf cap s = .next t → Effect s t
  | enc {dst : Ptr} {dcap : Word16} {addr : Byte} {pay : Ptr} {plen : Word16} {t : State} :
      execEnc dst dcap addr pay plen s = .next t → Effect s t
  | hostWrite {a : Nat} {b : Byte} : a < 2 ^ s.par.addrWidth → Effect s (s.withBm (Memory.set s.bm a b))

/-- The state with other things still to do: the queues, the schedule, the count of draws. -/
def State.rescheduled (s : State) (pq : List Packet) (cq : List HostAct) (sc : List Turn) (d : Nat) : State :=
  { s with pQueue := pq, cQueue := cq, sched := sc, draws := d }

/-! ## Every move of the model is one of these -/

theorem insertStore_move {b : Byte} {s t : State} (hp : s.ReadyForP ∨ s.pBusy = some (.i1 b))
    (h : insertStore b s = .next t) : RingMove s t := by
  obtain ⟨hin, rfl⟩ := insertStore_next h
  exact .store b hp hin

theorem microP_move {g : PStage} {s t : State} (hp : s.pBusy = some g) (h : microP g s = .next t) : RingMove s t := by
  cases g with
  | i1 b => exact insertStore_move (.inr hp) h
  | i2 b => cases h; exact .advanceIn hp
  | i3 b =>
    rcases insertCount_next h with ⟨ho, rfl⟩ | ⟨-, rfl⟩
    · exact .countUp 1 hp (by simp [ho])
    · exact .countUp 0 hp (fun _ => rfl)
  | p1 b => cases h; exact .drop hp

theorem microC_move {g : CStage} {s t : State} (hc : s.cBusy = some g) (h : microC g s = .next t) : RingMove s t := by
  cases g with
  | r2 v =>
    rcases removeAdvance_next h with ⟨ho, rfl⟩ | ⟨-, rfl⟩
    · exact .advanceOut 1 hc (.inr ⟨ho, _, rfl⟩)
    · exact .advanceOut 0 hc (.inl rfl)
  | r3 v =>
    rcases removeCount_next h with ⟨ho, rfl⟩ | ⟨-, hpos, rfl⟩
    · rw [State.answerRing_overrun _ _ _ (by simpa using ho)]
      exact .countDown 2 hc (by simp [ho])
    · exact .countDown 0 hc (fun _ => ⟨hpos, rfl⟩)
  | n2 => cases h; exact .initOut hc
  | n3 => cases h; exact .initCount hc
  | n4 => cases h; exact .initDone hc

theorem execRbInsert_move {b : Byte} {s t : State} (h : execRbInsert b s = .next t) : RingMove s t := by
  obtain ⟨hb, hi, hn, h⟩ := acceptRing_next h
  exact insertStore_move (.inl ⟨by simpa using hb, hi, hn rfl⟩) h

theorem execRbRemove_move {s t : State} (h : execRbRemove s = .next t) : RingMove s t := by
  obtain ⟨hb, hi, -, h⟩ := acceptRing_next h
  have hc : s.cBusy = none := by simpa using hb
  rcases removeLoad_next h with ⟨ho, rfl⟩ | ⟨-, hpos, -, rfl⟩
  · exact .load 1 hc hi (by simp [ho])
  · exact .load 0 hc hi (fun _ => ⟨hpos, rfl⟩)

theorem execRbPush_move {b : Byte} {s t : State} (h : execRbPush b s = .next t) : RingMove s t := by
  obtain ⟨⟨hb, hi, hn⟩, ⟨ho, rfl | rfl⟩ | ⟨-, ⟨-, rfl⟩ | ⟨hroom, rfl⟩⟩⟩ := execRbPush_next h
  · exact .choose 1 ⟨hb, hi, hn⟩ (.inl rfl)
  · exact .choose 1 ⟨hb, hi, hn⟩ (.inr ⟨rfl, by simp [ho]⟩)
  · exact .choose 0 ⟨hb, hi, hn⟩ (.inl rfl)
  · exact .choose 0 ⟨hb, hi, hn⟩ (.inr ⟨rfl, fun _ => hroom⟩)

theorem execRbInit_move {s t : State} (h : execRbInit s = .next t) : RingMove s t := by
  obtain ⟨hc, hp, rfl⟩ := execRbInit_next h
  exact .initIn hc hp

/-- A query of the ring is answered and changes nothing else. -/
theorem ringQuery_effect {port : Port} {w : Nat} {v : Value} {s t : State}
    (h : acceptRing port s (.next (s.answerRing port w v)) = .next t) : Effect s t := by
  obtain ⟨hb, -, -, h⟩ := acceptRing_next h
  cases h
  cases ho : s.ring.overrun
  · rw [State.answerRing_sound _ _ _ ho]; exact .answers 0 port .ok v hb
  · rw [State.answerRing_overrun _ _ _ ho]; exact .answers 1 port .ok _ hb

theorem execRd_effect {reg : Byte} {s t : State} (h : execRd reg s = .next t) : Effect s t := by
  obtain ⟨hb, h⟩ := accept_next h
  split at h
  · cases h; exact .answers 0 .c _ _ hb
  · split at h
    · cases h; exact .answers 0 .c _ _ hb
    · cases h; exact .answers 1 .c _ _ hb

/-- Everything an instruction can do when it answers a next state. -/
theorem exec_effect {i : Instr} {s t : State} (h : exec i s = .next t) : Effect s t := by
  by_cases hw : i.isWire = true
  · obtain ⟨b, hb⟩ := wireRow_is_decByte hw h
    exact .decByte hb
  cases i with
  | rbInit => exact .ring (execRbInit_move h)
  | rbCount port => exact ringQuery_effect h
  | rbFull port => exact ringQuery_effect h
  | rbEmpty port => exact ringQuery_effect h
  | rbInsert b => exact .ring (execRbInsert_move h)
  | rbRemove => exact .ring (execRbRemove_move h)
  | rbPush b => exact .ring (execRbPush_move h)
  | crcAppend b crc => obtain ⟨hb, h⟩ := accept_next h; cases h; exact .answers 0 .c _ _ hb
  | enc dst dcap addr pay plen => exact .enc h
  | decInit buf cap => exact .decInit h
  | decByte b => exact .decByte h
  | rd reg => exact execRd_effect h
  | unassigned port pkt => obtain ⟨hb, h⟩ := accept_next h; cases h; exact .answers 0 port _ _ hb
  | _ => exact absurd rfl hw

/-- Everything a step can do: a hardware reset, or one effect, whatever is left to do after it. -/
theorem step_effect {s t : State} (h : step s = .next t) :
    (∃ rest, s.sched = .reset :: rest ∧ t = State.hardReset { s with sched := rest })
    ∨ (s.sched.head? ≠ some .reset ∧ ∃ pq cq sc d, Effect (s.rescheduled pq cq sc d) t) := by
  obtain hreset | ⟨hs, ⟨-, rfl⟩ | ⟨g, -, hp, h⟩ | ⟨g, -, hc, h⟩ | ⟨a, b, rest, -, -, -, h⟩
    | ⟨pkt, rest, -, -, -, h⟩ | ⟨pkt, rest, -, -, -, h⟩⟩ := step_cases h
  · exact .inl hreset
  · exact .inr ⟨hs, s.pQueue, s.cQueue, s.moved.sched, s.moved.draws, .idle⟩
  · exact .inr ⟨hs, s.pQueue, s.cQueue, s.moved.sched, s.moved.draws, .ring (microP_move hp h)⟩
  · exact .inr ⟨hs, s.pQueue, s.cQueue, s.moved.sched, s.moved.draws, .ring (microC_move hc h)⟩
  · obtain ⟨ha, -, rfl⟩ := hostWrite_next h
    exact .inr ⟨hs, s.pQueue, rest, s.moved.sched, s.moved.draws, .hostWrite ha⟩
  · exact .inr ⟨hs, rest, s.cQueue, s.moved.sched, s.moved.draws, exec_effect h⟩
  · exact .inr ⟨hs, s.pQueue, rest, s.moved.sched, s.moved.draws, exec_effect h⟩

/-! ## What each effect leaves unchanged -/

theorem SameRing.answer {s : State} (n : Nat) {port : Port} (st : Status) (v : Value) (h : s.busy port = false) :
    SameRing s ((s.drew n).answer port st v) := by
  cases port with
  | p => have hp : s.pBusy = none := by simpa using h
         exact ⟨rfl, rfl, hp.symm, rfl, rfl⟩
  | c => have hc : s.cBusy = none := by simpa using h
         exact ⟨rfl, rfl, rfl, hc.symm, rfl⟩

/-- DEC_BYTE and with it every wire row: neither the ring's part nor the encoder. -/
theorem execDecByte_frame {b : Byte} {s t : State} (h : execDecByte b s = .next t) : SameRing s t ∧ t.enc = s.enc := by
  obtain ⟨⟨hc, -, -⟩, h⟩ := execDecByte_cases h
  have ok (d : Decoder) : SameRing s (s.decOk d) ∧ (s.decOk d).enc = s.enc := ⟨⟨rfl, rfl, rfl, hc.symm, rfl⟩, rfl⟩
  have raise (e : Status) : SameRing s (s.decRaise e) ∧ (s.decRaise e).enc = s.enc :=
    ⟨⟨rfl, rfl, rfl, hc.symm, rfl⟩, rfl⟩
  have append (x : Byte) : SameRing s (s.decAppend x) ∧ (s.decAppend x).enc = s.enc := by
    obtain ⟨-, h⟩ | ⟨-, h⟩ := s.decAppend_cases x <;> rw [h] <;> exact ⟨⟨rfl, rfl, rfl, hc.symm, rfl⟩, rfl⟩
  obtain ⟨-, -, rfl⟩ | ⟨-, -, rfl⟩ | ⟨-, -, rfl⟩ | ⟨-, -, rfl⟩ | ⟨-, -, -, rfl⟩ | ⟨-, -, -, rfl⟩ | ⟨-, -, -, -, -, rfl⟩
    | ⟨-, -, -, -, -, rfl⟩ | ⟨-, -, rfl⟩ | ⟨-, -, -, rfl⟩ | ⟨-, -, rfl⟩ | ⟨-, -, rfl⟩ | ⟨-, -, -, rfl⟩ | ⟨-, rfl⟩ := h
  exacts [ok _, ok _, ok _, raise _, ok _, raise _, ok _, ⟨⟨rfl, rfl, rfl, hc.symm, rfl⟩, rfl⟩, ok _, append _, append _,
    append _, raise _, ⟨⟨rfl, rfl, rfl, hc.symm, rfl⟩, rfl⟩]

theorem execDecInit_frame {buf : Ptr} {cap : Word16} {s t : State} (h : execDecInit buf cap s = .next t) :
    SameRing s t ∧ t.enc = s.enc := by
  obtain ⟨hc, ⟨-, rfl⟩ | ⟨-, -, rfl⟩⟩ := execDecInit_cases h <;> exact ⟨⟨rfl, rfl, rfl, hc.symm, rfl⟩, rfl⟩

theorem execEnc_frame {dst : Ptr} {dcap : Word16} {addr : Byte} {pay : Ptr} {plen : Word16} {s t : State}
    (h : execEnc dst dcap addr pay plen s = .next t) : SameRing s t ∧ t.dec = s.dec := by
  obtain ⟨hc, ⟨-, rfl⟩ | ⟨-, -, rfl⟩ | ⟨-, -, -, -, rfl⟩⟩ := execEnc_cases h
  · exact ⟨⟨rfl, rfl, rfl, hc.symm, rfl⟩, rfl⟩
  · exact ⟨⟨rfl, rfl, rfl, hc.symm, rfl⟩, rfl⟩
  · obtain ⟨-, h⟩ | ⟨-, h⟩ := s.encFrame_cases dst.toNat dcap.toNat addr pay.toNat plen.toNat <;>
      rw [h] <;> exact ⟨⟨rfl, rfl, rfl, hc.symm, rfl⟩, rfl⟩

/-- Only the ring's moves touch its part of the state. -/
theorem Effect.ring_cases {s t : State} (h : Effect s t) : SameRing s t ∨ RingMove s t := by
  cases h with
  | idle => exact .inl ⟨rfl, rfl, rfl, rfl, rfl⟩
  | answers n port st v hb => exact .inl (.answer n st v hb)
  | ring hm => exact .inr hm
  | decByte h => exact .inl (execDecByte_frame h).1
  | decInit h => exact .inl (execDecInit_frame h).1
  | enc h => exact .inl (execEnc_frame h).1
  | hostWrite => exact .inl ⟨rfl, rfl, rfl, rfl, rfl⟩

theorem RingMove.par {s t : State} (h : RingMove s t) : t.par = s.par := by cases h <;> rfl

theorem RingMove.dec {s t : State} (h : RingMove s t) : t.dec = s.dec := by cases h <;> rfl

theorem RingMove.enc {s t : State} (h : RingMove s t) : t.enc = s.enc := by cases h <;> rfl

/-- Only DEC_BYTE, the wire rows and DEC_INIT touch the decoder. -/
theorem Effect.dec_cases {s t : State} (h : Effect s t) :
    t.dec = s.dec ∨ (∃ b, execDecByte b s = .next t) ∨ ∃ buf cap, execDecInit buf cap s = .next t := by
  cases h with
  | idle | hostWrite => exact .inl rfl
  | answers => exact .inl (State.answer_dec ..)
  | ring hm => exact .inl hm.dec
  | decByte h => exact .inr (.inl ⟨_, h⟩)
  | decInit h => exact .inr (.inr ⟨_, _, h⟩)
  | enc h => exact .inl (execEnc_frame h).2

/-- Only ENC touches the encoder's registers. -/
theorem Effect.enc_cases {s t : State} (h : Effect s t) :
    t.enc = s.enc ∨ ∃ dst dcap addr pay plen, execEnc dst dcap addr pay plen s = .next t := by
  cases h with
  | idle | hostWrite => exact .inl rfl
  | answers => exact .inl (State.answer_enc ..)
  | ring hm => exact .inl hm.enc
  | decByte h => exact .inl (execDecByte_frame h).2
  | decInit h => exact .inl (execDecInit_frame h).2
  | enc h => exact .inr ⟨_, _, _, _, _, h⟩

theorem Effect.par {s t : State} (h : Effect s t) : t.par = s.par := h.ring_cases.elim (·.par) (·.par)

end Sys2Proof.Machine
end

section
/-! SUPPORT. The ring invariant (10_state.md R29, R44) over each move of the ring, one clause at a time. -/

namespace Sys2Proof.Machine

/-! ## The clauses read by cases -/

theorem State.initAgrees_of_noInit {s : State} (h : s.initRunning = false) : s.initAgrees = true := by
  unfold State.initRunning at h
  unfold State.initAgrees
  split <;> simp_all

theorem State.latchesAgree_iff {s : State} : s.latchesAgree = true ↔
    ((∀ b, s.pBusy = some (.i2 b) → s.ring.cell s.ring.inCur.toNat = b)
      ∧ ∀ b, s.pBusy = some (.i3 b) → s.cellBefore s.ring.inCur = b)
    ∧ (∀ v, s.cBusy = some (.r2 v) → s.ring.cell s.ring.outCur.toNat = v)
      ∧ ∀ v, s.cBusy = some (.r3 v) → s.cellBefore s.ring.outCur = v := by
  unfold State.latchesAgree
  rw [Bool.and_eq_true]
  refine and_congr ?_ ?_
  · split <;> simp_all
  · split <;> simp_all

/-! The parts of soundness, by name. -/

section Sound

variable {s : State} (hS : s.RingSound)
include hS

theorem State.RingSound.count_le : s.ring.count.toNat ≤ s.par.ringSize := hS.1

theorem State.RingSound.balanced : s.ring.inited = true → s.initRunning = false → s.RingBalanced := hS.2.1

theorem State.RingSound.room : s.inserting = true → s.ring.count.toNat < s.par.ringSize := hS.2.2.1

theorem State.RingSound.byte : s.removing = true → 0 < s.ring.count.toNat := hS.2.2.2.1

theorem State.RingSound.latchP : (∀ b, s.pBusy = some (.i2 b) → s.ring.cell s.ring.inCur.toNat = b)
    ∧ ∀ b, s.pBusy = some (.i3 b) → s.cellBefore s.ring.inCur = b := (State.latchesAgree_iff.mp hS.2.2.2.2).1

theorem State.RingSound.latchC : (∀ v, s.cBusy = some (.r2 v) → s.ring.cell s.ring.outCur.toNat = v)
    ∧ ∀ v, s.cBusy = some (.r3 v) → s.cellBefore s.ring.outCur = v := (State.latchesAgree_iff.mp hS.2.2.2.2).2

end Sound

/-! ## Cells and cursors around the ring -/

/-- The cell before an advanced cursor is the cell that it left. -/
theorem State.cellBefore_nextCursor (s : State) {c : Word16} (hq : s.par.Legal) (hc : c.toNat < s.par.ringSize) :
    s.cellBefore (nextCursor s.par c) = s.ring.cell c.toNat := by
  rw [State.cellBefore, nextCursor_toNat c hq]
  congr 1
  rcases Nat.lt_or_ge (c.toNat + 1) s.par.ringSize with h | h
  · rw [Nat.mod_eq_of_lt h, Nat.mod_eq_sub_mod (by omega), Nat.mod_eq_of_lt] <;> omega
  · rw [show c.toNat + 1 = s.par.ringSize by omega, Nat.mod_self, Nat.mod_eq_of_lt] <;> omega

/-- With unread bytes and room, the cell to be stored is not the one to be read. -/
theorem inCur_ne_outCur {n i o c : Nat} (hi : i < n) (ho : o < n) (hpos : 0 < c) (hroom : c < n)
    (h : i % n = (o + c) % n) : i ≠ o := by
  rw [Nat.mod_eq_of_lt hi] at h
  rcases Nat.lt_or_ge (o + c) n with hlt | hge
  · rw [Nat.mod_eq_of_lt hlt] at h; omega
  · rw [Nat.mod_eq_sub_mod hge, Nat.mod_eq_of_lt (by omega)] at h; omega

/-- The same once RB.out has moved past the byte read and RB.count still counts it. -/
theorem inCur_ne_before_outCur {n i o c : Nat} (hi : i < n) (ho : o < n) (hpos : 0 < c) (hroom : c < n)
    (h : (i + 1) % n = (o + c) % n) : i ≠ (o + n - 1) % n := by
  have hback : i % n = ((o + n - 1) % n + c) % n := by
    apply Nat.ModEq.add_right_cancel' 1
    calc (i + 1) % n = (o + c) % n := h
      _ = (o + n - 1 + c + 1) % n := by rw [show o + n - 1 + c + 1 = o + c + n by omega, Nat.add_mod_right]
      _ = ((o + n - 1) % n + c + 1) % n := by rw [Nat.add_assoc, Nat.add_assoc, Nat.mod_add_mod]
  exact inCur_ne_outCur hi (Nat.mod_lt _ (by omega)) hpos hroom hback

/-! ## Each clause over each move -/

section Moves

variable {s t : State}

theorem State.ReadyForP.of_insert (hI : s.RingInvariant) {b : Byte} (h : s.ReadyForP ∨ s.pBusy = some (.i1 b)) :
    s.ring.inited = true ∧ s.initRunning = false ∧ s.inAhead = 0 := by
  obtain ⟨-, -, hP, -⟩ := hI
  obtain ⟨hp, hi, hn⟩ | hp := h
  · exact ⟨hi, hn, by simp [State.inAhead, hp]⟩
  · obtain ⟨hi, hn⟩ := hP (by simp [hp])
    exact ⟨hi, hn, by simp [State.inAhead, hp]⟩

theorem State.pIdle_of_initRunning (hP : s.pBusy.isSome = true → s.ring.inited = true ∧ s.initRunning = false)
    (h : s.initRunning = true) : s.pBusy = none := by
  by_contra hp
  exact Bool.false_ne_true ((hP (Option.isSome_iff_ne_none.mpr hp)).2.symm.trans h)

theorem RingMove.cursorsInRange (h : RingMove s t) (hq : s.par.Legal) (hc : s.CursorsInRange) : t.CursorsInRange := by
  have hzero : (0#16 : Word16).toNat < s.par.ringSize := hq.1.1
  cases h with
  | advanceIn => exact ⟨nextCursor_lt _ hq, hc.2⟩
  | advanceOut n _ hcur =>
    obtain rfl | ⟨-, d, rfl⟩ := hcur
    · exact ⟨hc.1, nextCursor_lt _ hq⟩
    · exact ⟨hc.1, freeCursor_lt d hq⟩
  | initIn => exact ⟨hzero, hc.2⟩
  | initOut => exact ⟨hc.1, hzero⟩
  | _ => exact hc

/-- While a P command is in progress the ring is initialised and no RB_INIT runs (R28, R149). -/
theorem RingMove.pBusy_ready (h : RingMove s t) (hI : s.RingInvariant) :
    t.pBusy.isSome = true → t.ring.inited = true ∧ t.initRunning = false := by
  have hready {b} := State.ReadyForP.of_insert hI (b := b)
  obtain ⟨-, -, hP, -⟩ := hI
  cases h with
  | choose n hr => exact fun _ => ⟨hr.inited, hr.noInit⟩
  | store b hr => exact fun _ => ⟨(hready hr).1, (hready hr).2.1⟩
  | advanceIn hp => exact fun _ => hP (by simp [hp])
  | countUp | drop => exact nofun
  | load | advanceOut | countDown => exact fun hp => ⟨(hP hp).1, rfl⟩
  | initIn _ hp => exact fun h => by simp [hp] at h
  | initOut hc => exact fun h => by simp [State.pIdle_of_initRunning hP (by simp [State.initRunning, hc])] at h
  | initCount hc => exact fun h => by simp [State.pIdle_of_initRunning hP (by simp [State.initRunning, hc])] at h
  | initDone => exact fun _ => ⟨rfl, rfl⟩

theorem RingMove.removing_inited (h : RingMove s t) (hR : s.removing = true → s.ring.inited = true) :
    t.removing = true → t.ring.inited = true := by
  cases h with
  | load n _ hi => exact fun _ => hi
  | advanceOut n hc => exact fun _ => hR (by simp [State.removing, hc])
  | countDown | initIn | initOut | initCount | initDone => exact nofun
  | _ => exact hR

theorem RingMove.initAgrees (h : RingMove s t) (hI : s.RingInvariant) : t.initAgrees = true := by
  obtain ⟨-, -, hP, -, hA, -⟩ := hI
  cases h with
  | choose | store | drop => exact hA
  | advanceIn hp => exact State.initAgrees_of_noInit (hP (by simp [hp])).2
  | countUp n hp => exact State.initAgrees_of_noInit (hP (by simp [hp])).2
  | load | advanceOut | countDown | initIn | initDone => rfl
  | initOut hc => simpa [State.initAgrees, hc] using hA
  | initCount hc => simpa [State.initAgrees, hc] using hA

theorem RingMove.overrun_faulted (h : RingMove s t) (hF : s.ring.overrun = true → s.runFaulted = true) :
    t.ring.overrun = true → t.runFaulted = true := by
  cases h with
  | store =>
    simp only [State.holdP_ring, State.noteOverrun_ring, State.withRing_ring, State.holdP_runFaulted,
      State.noteOverrun_runFaulted, State.withRing_runFaulted, Bool.or_eq_true]
    exact Or.imp_left hF
  | initDone => exact nofun
  | _ => exact hF

/-! The clauses of soundness, after a move that leaves no RingOverrun recorded. -/

theorem RingMove.count_le (h : RingMove s t) (hI : s.RingInvariant) (ho : t.ring.overrun = false) :
    t.ring.count.toNat ≤ t.par.ringSize := by
  obtain ⟨hq, -, -, -, hA, hS, -⟩ := hI
  cases h with
  | store => exact (hS (overrun_or_full_eq_false.mp ho).1).count_le
  | @countUp n b c hp hc =>
    have hroom := (hS ho).room (by simp [State.inserting, hp])
    show c.toNat ≤ s.par.ringSize
    rw [hc ho, count_add_one hq hroom]
    exact hroom
  | countDown n hp hc =>
    have hle := (hS ho).count_le
    obtain ⟨hpos, rfl⟩ := hc ho
    show (s.ring.count - 1#16).toNat ≤ s.par.ringSize
    rw [count_sub_one hpos]
    omega
  | initCount => exact Nat.zero_le _
  | initDone hc =>
    have hz : s.ring.count = 0#16 := by simp [State.initAgrees, hc] at hA; exact hA.2
    simp [hz]
  | _ => exact (hS ho).count_le

/-- The cursor equation: what an advance moves ahead, the count makes up for (R44). -/
theorem RingMove.balanced (h : RingMove s t) (hI : s.RingInvariant) (ho : t.ring.overrun = false)
    (hi : t.ring.inited = true) (hn : t.initRunning = false) : t.RingBalanced := by
  have hready {b} := State.ReadyForP.of_insert hI (b := b)
  obtain ⟨hq, -, hP, -, hA, hS, -⟩ := hI
  cases h with
  | choose n hr hg =>
    have hb := (hS ho).balanced hi hn
    obtain rfl | ⟨rfl, -⟩ := hg <;> rwa [State.RingBalanced, State.inAhead, hr.idle] at hb
  | store b hr =>
    have hb := (hS (overrun_or_full_eq_false.mp ho).1).balanced hi hn
    rwa [State.RingBalanced, (hready hr).2.2] at hb
  | advanceIn hp =>
    have hb := (hS ho).balanced hi hn
    rw [State.RingBalanced, State.inAhead, hp] at hb
    show ((nextCursor s.par s.ring.inCur).toNat + s.outAhead) % s.par.ringSize
      = (s.ring.outCur.toNat + s.ring.count.toNat + 1) % s.par.ringSize
    rw [nextCursor_toNat _ hq, Nat.mod_add_mod, Nat.add_right_comm]
    exact Nat.ModEq.add_right 1 hb
  | @countUp n b c hp hc =>
    have hb := (hS ho).balanced (hP (by simp [hp])).1 (hP (by simp [hp])).2
    have hroom := (hS ho).room (by simp [State.inserting, hp])
    rw [State.RingBalanced, State.inAhead, hp] at hb
    show (s.ring.inCur.toNat + s.outAhead) % s.par.ringSize = (s.ring.outCur.toNat + c.toNat) % s.par.ringSize
    rw [hc ho, count_add_one hq hroom]
    exact hb
  | drop hp =>
    have hb := (hS ho).balanced hi hn
    rwa [State.RingBalanced, State.inAhead, hp] at hb
  | load n hc hi =>
    have hb := (hS ho).balanced hi (State.initRunning_idle hc)
    rwa [State.RingBalanced, State.outAhead, hc] at hb
  | advanceOut n hc hcur =>
    have hb := (hS ho).balanced hi (by simp [State.initRunning, hc])
    obtain rfl | ⟨ho', -⟩ := hcur
    · rw [State.RingBalanced, State.outAhead, hc] at hb
      show (s.ring.inCur.toNat + 1) % s.par.ringSize
        = ((nextCursor s.par s.ring.outCur).toNat + s.ring.count.toNat + s.inAhead) % s.par.ringSize
      rw [nextCursor_toNat _ hq, Nat.add_assoc, Nat.mod_add_mod, Nat.add_right_comm, ← Nat.add_assoc]
      exact Nat.ModEq.add_right 1 hb
    · exact absurd ho' (by simpa using ho)
  | countDown n hc hcount =>
    have hb := (hS ho).balanced hi (by simp [State.initRunning, hc])
    obtain ⟨hpos, rfl⟩ := hcount ho
    rw [State.RingBalanced, State.outAhead, hc] at hb
    show s.ring.inCur.toNat % s.par.ringSize
      = (s.ring.outCur.toNat + (s.ring.count - 1#16).toNat + s.inAhead) % s.par.ringSize
    apply Nat.ModEq.add_right_cancel' 1
    rw [count_sub_one hpos, show s.ring.outCur.toNat + (s.ring.count.toNat - 1) + s.inAhead + 1
      = s.ring.outCur.toNat + s.ring.count.toNat + s.inAhead by omega]
    exact hb
  | initIn | initOut | initCount => exact nomatch hn
  | initDone hc =>
    have hp : s.pBusy = none := State.pIdle_of_initRunning hP (by simp [State.initRunning, hc])
    obtain ⟨⟨hin, hout⟩, hz⟩ : (s.ring.inCur = 0#16 ∧ s.ring.outCur = 0#16) ∧ s.ring.count = 0#16 := by
      simpa [State.initAgrees, hc] using hA
    simp [State.RingBalanced, State.inAhead, State.outAhead, hp, hin, hout, hz]

/-- Room for the insert in progress: no C command raises the count. -/
theorem RingMove.insert_room (h : RingMove s t) (hI : s.RingInvariant) (ho : t.ring.overrun = false)
    (hins : t.inserting = true) : t.ring.count.toNat < t.par.ringSize := by
  obtain ⟨hq, -, hP, -, -, hS, -⟩ := hI
  cases h with
  | choose n hr hg =>
    obtain rfl | ⟨rfl, hroom⟩ := hg
    · exact nomatch hins
    · exact hroom ho
  | store => exact (overrun_or_full_eq_false.mp ho).2
  | advanceIn hp => exact (hS ho).room (by simp [State.inserting, hp])
  | countUp | drop => exact nomatch hins
  | countDown n hc hcount =>
    have hroom := (hS ho).room hins
    obtain ⟨hpos, rfl⟩ := hcount ho
    show (s.ring.count - 1#16).toNat < s.par.ringSize
    rw [count_sub_one hpos]
    omega
  | initCount => exact hq.1.1
  | initDone hc =>
    have hp : s.pBusy = none := State.pIdle_of_initRunning hP (by simp [State.initRunning, hc])
    simp [State.inserting, hp] at hins
  | _ => exact (hS ho).room hins

/-- A byte for the remove in progress: no P command lowers the count. -/
theorem RingMove.remove_byte (h : RingMove s t) (hI : s.RingInvariant) (ho : t.ring.overrun = false)
    (hrem : t.removing = true) : 0 < t.ring.count.toNat := by
  obtain ⟨hq, -, -, -, -, hS, -⟩ := hI
  cases h with
  | store => exact (hS (overrun_or_full_eq_false.mp ho).1).byte hrem
  | countUp n hp hc =>
    have hroom := (hS ho).room (by simp [State.inserting, hp])
    simp [hc ho, count_add_one hq hroom]
  | load n hc hi hv => exact (hv ho).1
  | advanceOut n hc => exact (hS ho).byte (by simp [State.removing, hc])
  | countDown | initIn | initOut | initCount | initDone => exact nomatch hrem
  | choose | advanceIn | drop => exact (hS ho).byte hrem

/-- A store on a ring with room misses the cell that a remove in progress has read. -/
theorem State.RingSound.store_keeps_latchC (hI : s.RingInvariant) (hS : s.RingSound) {b : Byte} {r : Ring}
    (hready : s.ring.inited = true ∧ s.initRunning = false ∧ s.inAhead = 0) (hroom : s.ring.count.toNat < s.par.ringSize)
    (hr : r.mem = Memory.set s.ring.mem s.ring.inCur.toNat b) :
    (∀ v, s.cBusy = some (.r2 v) → r.cell s.ring.outCur.toNat = v)
      ∧ ∀ v, s.cBusy = some (.r3 v) → r.cell ((s.ring.outCur.toNat + s.par.ringSize - 1) % s.par.ringSize) = v := by
  obtain ⟨-, ⟨hin, hout⟩, -⟩ := hI
  obtain ⟨hi, hn, hahead⟩ := hready
  obtain ⟨hL2, hL3⟩ := hS.latchC
  have hb := hS.balanced hi hn
  refine ⟨fun v hv => ?_, fun v hv => ?_⟩
  · have hpos := hS.byte (by simp [State.removing, hv])
    rw [State.RingBalanced, hahead, State.outAhead, hv] at hb
    rw [Ring.cell_set hr, if_neg (inCur_ne_outCur hin hout hpos hroom hb)]
    exact hL2 v hv
  · have hpos := hS.byte (by simp [State.removing, hv])
    rw [State.RingBalanced, hahead, State.outAhead, hv] at hb
    rw [Ring.cell_set hr, if_neg (inCur_ne_before_outCur hin hout hpos hroom hb)]
    exact hL3 v hv

theorem RingMove.latchesAgree (h : RingMove s t) (hI : s.RingInvariant) (ho : t.ring.overrun = false) :
    t.latchesAgree = true := by
  have hready {b} := State.ReadyForP.of_insert hI (b := b)
  have hstore {b} {r} := State.RingSound.store_keeps_latchC hI (b := b) (r := r)
  obtain ⟨hq, ⟨hin, hout⟩, hP, -, -, hS, -⟩ := hI
  rw [State.latchesAgree_iff]
  cases h with
  | choose n hr hg =>
    obtain rfl | ⟨rfl, -⟩ := hg <;> exact ⟨⟨nofun, nofun⟩, (hS ho).latchC⟩
  | store b hr =>
    obtain ⟨ho, hroom⟩ := overrun_or_full_eq_false.mp ho
    refine ⟨⟨?_, nofun⟩, hstore (hS ho) (hready hr) hroom rfl⟩
    rintro _ ⟨⟩
    exact (Ring.cell_set rfl _).trans (if_pos rfl)
  | advanceIn hp =>
    obtain ⟨hL, -⟩ := (hS ho).latchP
    refine ⟨⟨nofun, ?_⟩, (hS ho).latchC⟩
    rintro _ ⟨⟩
    exact (State.cellBefore_nextCursor s hq hin).trans (hL _ hp)
  | countUp | drop => exact ⟨⟨nofun, nofun⟩, (hS ho).latchC⟩
  | load n hc hi hv =>
    refine ⟨(hS ho).latchP, ?_, nofun⟩
    rintro _ ⟨⟩
    exact (hv ho).2
  | advanceOut n hc hcur =>
    obtain ⟨hL, -⟩ := (hS ho).latchC
    refine ⟨(hS ho).latchP, nofun, ?_⟩
    rintro _ ⟨⟩
    obtain rfl | ⟨ho', -⟩ := hcur
    · exact (State.cellBefore_nextCursor s hq hout).trans (hL _ hc)
    · exact absurd ho' (by simpa using ho)
  | countDown => exact ⟨(hS ho).latchP, nofun, nofun⟩
  | initIn hc hp => exact ⟨by simp [hp], nofun, nofun⟩
  | initOut | initCount => exact ⟨(hS ho).latchP, nofun, nofun⟩
  | initDone hc =>
    have hp : s.pBusy = none := State.pIdle_of_initRunning hP (by simp [State.initRunning, hc])
    exact ⟨by simp [hp], nofun, nofun⟩

theorem RingMove.ringInvariant (h : RingMove s t) (hI : s.RingInvariant) : t.RingInvariant := by
  have ⟨hq, hc, _, hR, _, _, hF⟩ := hI
  exact ⟨h.par ▸ hq, h.cursorsInRange hq hc, h.pBusy_ready hI, h.removing_inited hR, h.initAgrees hI,
    fun ho => ⟨h.count_le hI ho, h.balanced hI ho, h.insert_room hI ho, h.remove_byte hI ho, h.latchesAgree hI ho⟩,
    h.overrun_faulted hF⟩

end Moves

/-! ## The invariant over a step -/

/-- The ring invariant reads the ring's part of the state alone. -/
theorem SameRing.ringInvariant {s t : State} (h : SameRing s t) (hI : s.RingInvariant) : t.RingInvariant := by
  obtain ⟨par, ring, dec, enc, bm, pBusy, cBusy⟩ := t
  obtain ⟨rfl, rfl, rfl, rfl, rfl⟩ := h
  exact hI

theorem State.hardReset_ringInvariant {s : State} (hq : s.par.Legal) : s.hardReset.RingInvariant := by
  have hpos : 0 < s.par.ringSize := hq.1.1
  exact ⟨hq, ⟨hpos, hpos⟩, nofun, nofun, rfl, fun _ => ⟨Nat.zero_le _, nofun, nofun, nofun, rfl⟩, nofun⟩

theorem Effect.ringInvariant {s t : State} (h : Effect s t) (hI : s.RingInvariant) : t.RingInvariant :=
  h.ring_cases.elim (·.ringInvariant hI) (·.ringInvariant hI)

/-- Settles O20: a step is a hardware reset or an effect, and each move of the ring keeps each clause. -/
theorem ringInvariantKept : Obligations.RingInvariantKept := by
  intro s t hI h
  obtain ⟨rest, -, rfl⟩ | ⟨-, pq, cq, sc, d, he⟩ := step_effect h
  · exact State.hardReset_ringInvariant hI.1
  · exact he.ringInvariant hI

end Sys2Proof.Machine
end

section
/-! SUPPORT. The decoder invariant (10_state.md R32, R35, R37, R38) over DEC_BYTE, DEC_INIT and a step. -/

namespace Sys2Proof.Machine

/-- A byte accepted on a bound decoder keeps the invariant where the new registers meet it, the status aside. -/
theorem State.decOk_invariant {s : State} {d : Decoder} (haddr : d.addrSet = true → validAddr d.addr = true)
    (hr : regionLegal s.par.addrWidth d.buf.toNat d.cap.toNat = true) (hle : d.idx.toNat ≤ d.cap.toNat)
    (ha : d.armed = true) (hstart : d.state = .idle ∨ d.state = .addressExpected → d.idx = 0#16)
    (hset : d.state = .receiving ∨ d.state = .escaping ∨ d.state = .terminated → d.addrSet = true)
    (hterm : d.state = .terminated → d.idx.toNat + 2 ≤ d.cap.toNat) : (s.decOk d).DecoderInvariant :=
  ⟨haddr, nofun, fun _ => ⟨⟨hr, hle⟩, ⟨ha, rfl, nofun⟩, hstart, hset, fun h => ⟨rfl, hterm h⟩⟩⟩

/-- `raise` (R196) leaves Idle and index 0, in a decoder bound as before. -/
theorem State.decRaise_invariant {s : State} {e : Status} (hI : s.DecoderInvariant)
    (he : e ≠ .illegalCmd ∧ e ≠ .nullBuffer) : (s.decRaise e).DecoderInvariant := by
  obtain ⟨haddr, -, hbound⟩ := hI
  refine ⟨haddr, he.1, fun hb => ?_⟩
  obtain ⟨⟨hr, -⟩, ⟨ha, -⟩, -⟩ := hbound hb
  exact ⟨⟨hr, Nat.zero_le _⟩, ⟨ha, rfl, he.2⟩, fun _ => rfl, by simp, nofun⟩

/-- An append (R197) goes on in Receiving, the index still within the capacity, or raises OVERFLOW. -/
theorem State.decAppend_invariant {s : State} (x : Byte) (hI : s.DecoderInvariant) (hb : s.dec.bound = true)
    (hs : s.dec.state = .receiving ∨ s.dec.state = .escaping) : (s.decAppend x).DecoderInvariant := by
  obtain ⟨-, h⟩ | ⟨hroom, h⟩ := s.decAppend_cases x <;> rw [h]
  · exact State.decRaise_invariant hI (by decide)
  · obtain ⟨haddr, -, hbound⟩ := hI
    obtain ⟨⟨hr, -⟩, ⟨ha, -⟩, -, hset, -⟩ := hbound hb
    have hle : (s.dec.idx + 1#16).toNat ≤ s.dec.cap.toNat := by
      simp only [BitVec.toNat_add, BitVec.toNat_ofNat]
      omega
    exact State.decOk_invariant haddr hr hle ha (by simp) (fun _ => hset (by tauto)) nofun

theorem execDecByte_invariant {b : Byte} {s t : State} (hI : s.DecoderInvariant) (h : execDecByte b s = .next t) :
    t.DecoderInvariant := by
  obtain ⟨⟨-, hb, hr⟩, h⟩ := execDecByte_cases h
  have raise {e : Status} (he : e ≠ .illegalCmd ∧ e ≠ .nullBuffer) := State.decRaise_invariant hI he
  have append (x : Byte) := State.decAppend_invariant x hI hb
  have ⟨haddr, _, hbound⟩ := hI
  obtain ⟨⟨-, hle⟩, ⟨ha, -⟩, hstart, hset, -⟩ := hbound hb
  obtain ⟨hs, -, rfl⟩ | ⟨hs, -, rfl⟩ | ⟨hs, hv, rfl⟩ | ⟨-, -, rfl⟩ | ⟨hs, -, hz, rfl⟩ | ⟨-, -, -, rfl⟩
    | ⟨hs, -, htwo, hcap, -, rfl⟩ | ⟨-, -, -, -, -, rfl⟩ | ⟨hs, -, rfl⟩ | ⟨hs, -, -, rfl⟩ | ⟨hs, -, rfl⟩ | ⟨hs, -, rfl⟩
    | ⟨-, -, -, rfl⟩ | ⟨-, rfl⟩ := h
  · exact State.decOk_invariant haddr hr hle ha (fun _ => hstart (.inl hs)) (by simp) nofun
  · exact State.decOk_invariant haddr hr hle ha hstart hset (by simp [hs])
  · exact State.decOk_invariant (fun _ => hv) hr hle ha (by simp) (fun _ => rfl) nofun
  · exact raise (by decide)
  · exact State.decOk_invariant haddr hr hle ha (fun _ => hz) (by simp) nofun
  · exact raise (by decide)
  · have hidx : (BitVec.ofNat 16 s.payloadLen).toNat + 2 ≤ s.dec.cap.toNat := by
      simp only [State.payloadLen, BitVec.toNat_ofNat]
      omega
    exact State.decOk_invariant haddr hr (Nat.le_of_add_right_le hidx) ha (by simp) (fun _ => hset (.inl hs))
      (fun _ => hidx)
  · exact State.decRaise_invariant (s := s.withDec { s.dec with crc := s.bodyCrc }) hI (by decide)
  · exact State.decOk_invariant haddr hr hle ha (by simp) (fun _ => hset (.inl hs)) nofun
  · exact append b (.inl hs)
  · exact append fend (.inr hs)
  · exact append fesc (.inr hs)
  · exact raise (by decide)
  · exact hI

theorem execDecInit_invariant {buf : Ptr} {cap : Word16} {s t : State} (hI : s.DecoderInvariant)
    (h : execDecInit buf cap s = .next t) : t.DecoderInvariant := by
  obtain ⟨-, ⟨-, rfl⟩ | ⟨-, hr, rfl⟩⟩ := execDecInit_cases h
  · exact ⟨hI.1, nofun, nofun⟩
  · exact State.decOk_invariant hI.1 hr (Nat.zero_le _) rfl (fun _ => rfl) (by simp) nofun

theorem Effect.decoderInvariant {s t : State} (h : Effect s t) (hI : s.DecoderInvariant) : t.DecoderInvariant := by
  obtain hd | ⟨b, h⟩ | ⟨buf, cap, h⟩ := h.dec_cases
  · unfold State.DecoderInvariant
    rw [hd, h.par]
    exact hI
  · exact execDecByte_invariant hI h
  · exact execDecInit_invariant hI h

/-- Settles O53: only a hardware reset, DEC_INIT and the rows of the wire table write the decoder. -/
theorem decoderInvariantKept : Obligations.DecoderInvariantKept := by
  intro s t hI h
  obtain ⟨rest, -, rfl⟩ | ⟨-, pq, cq, sc, d, he⟩ := step_effect h
  · exact ⟨nofun, nofun, nofun⟩
  · exact he.decoderInvariant hI

end Sys2Proof.Machine
end

section
/-! SUPPORT. Who writes the ring's registers (10_state.md R23 to R28), the encoder's registers and the counter (R27, R39,
R40), the parameters (R21), and the ring's refusals (R28, R149). -/

namespace Sys2Proof.Machine

/-! ## The writers of each register -/

section Writers

variable {s t : State}

theorem RingMove.mem_writer (h : RingMove s t) : t.ring.mem = s.ring.mem ∨ ∃ b, t.pBusy = some (.i2 b) := by
  cases h with
  | store b => exact .inr ⟨b, rfl⟩
  | _ => exact .inl rfl

theorem RingMove.count_writer (h : RingMove s t) :
    t.ring.count = s.ring.count
    ∨ (∃ b, s.pBusy = some (.i3 b) ∧ (t.ring.count = s.ring.count + 1#16 ∨ s.ring.overrun = true))
    ∨ (∃ v, s.cBusy = some (.r3 v) ∧ (t.ring.count = s.ring.count - 1#16 ∨ s.ring.overrun = true))
    ∨ (s.cBusy = some .n3 ∧ t.ring.count = 0#16) := by
  cases h with
  | countUp n hp hcount =>
    refine .inr (.inl ⟨_, hp, ?_⟩)
    cases ho : s.ring.overrun with
    | false => exact .inl (hcount ho)
    | true => exact .inr rfl
  | countDown n hc hcount =>
    refine .inr (.inr (.inl ⟨_, hc, ?_⟩))
    cases ho : s.ring.overrun with
    | false => exact .inl (hcount ho).2
    | true => exact .inr rfl
  | initCount hc => exact .inr (.inr (.inr ⟨hc, rfl⟩))
  | _ => exact .inl rfl

theorem RingMove.inCur_writer (h : RingMove s t) :
    t.ring.inCur = s.ring.inCur ∨ (∃ b, s.pBusy = some (.i2 b)) ∨ (t.cBusy = some .n2 ∧ t.ring.inCur = 0#16) := by
  cases h with
  | advanceIn hp => exact .inr (.inl ⟨_, hp⟩)
  | initIn => exact .inr (.inr ⟨rfl, rfl⟩)
  | _ => exact .inl rfl

theorem RingMove.outCur_writer (h : RingMove s t) :
    t.ring.outCur = s.ring.outCur ∨ (∃ v, s.cBusy = some (.r2 v)) ∨ (s.cBusy = some .n2 ∧ t.ring.outCur = 0#16) := by
  cases h with
  | advanceOut n hc => exact .inr (.inl ⟨_, hc⟩)
  | initOut hc => exact .inr (.inr ⟨hc, rfl⟩)
  | _ => exact .inl rfl

theorem RingMove.ovf_writer (h : RingMove s t) :
    t.ring.ovf = s.ring.ovf
    ∨ ∃ b, s.pBusy = some (.p1 b) ∧ t.ring.ovf = (s.ring.ovf + 1) % 2 ^ s.par.ctrWidth := by
  cases h with
  | drop hp => exact .inr ⟨_, hp, rfl⟩
  | _ => exact .inl rfl

theorem RingMove.inited_writer (h : RingMove s t) :
    t.ring.inited = s.ring.inited ∨ (s.cBusy = some .n4 ∧ t.ring.inited = true) := by
  cases h with
  | initDone hc => exact .inr ⟨hc, rfl⟩
  | _ => exact .inl rfl

/-- The record of RingOverrun: set by a store on a full ring, cleared by RB_INIT (R140). -/
theorem RingMove.overrun_writer (h : RingMove s t) :
    t.ring.overrun = s.ring.overrun
    ∨ (s.par.ringSize ≤ s.ring.count.toNat ∧ (∃ b, t.pBusy = some (.i2 b)) ∧ t.ring.overrun = true)
    ∨ (s.cBusy = some .n4 ∧ t.ring.overrun = false) := by
  cases h with
  | store b =>
    cases hf : s.full with
    | false => exact .inl (Bool.or_false _)
    | true => exact .inr (.inl ⟨State.full_eq_true.mp hf, ⟨b, rfl⟩, Bool.or_true _⟩)
  | initDone hc => exact .inr (.inr ⟨hc, rfl⟩)
  | _ => exact .inl rfl

/-- The record for the run: set with it (R233). -/
theorem RingMove.runFaulted_writer (h : RingMove s t) :
    t.runFaulted = s.runFaulted
    ∨ (s.par.ringSize ≤ s.ring.count.toNat ∧ (∃ b, t.pBusy = some (.i2 b)) ∧ t.runFaulted = true) := by
  cases h with
  | store b =>
    cases hf : s.full with
    | false => exact .inl (Bool.or_false _)
    | true => exact .inr ⟨State.full_eq_true.mp hf, ⟨b, rfl⟩, Bool.or_true _⟩
  | _ => exact .inl rfl

theorem Effect.runFaulted_kept (h : Effect s t) (hf : s.runFaulted = true) : t.runFaulted = true := by
  obtain h | h := h.ring_cases
  · rw [h.runFaulted, hf]
  · obtain h | ⟨-, -, h⟩ := h.runFaulted_writer
    · rw [h, hf]
    · exact h

end Writers

/-- Settles O25: apart from a hardware reset a step leaves the ring's part as it is, or makes one of the ring's moves, and
each register has its writers among them. -/
theorem ringRegisterWriters : Obligations.RingRegisterWriters := by
  intro s t hs h
  obtain ⟨rest, hreset, -⟩ | ⟨-, pq, cq, sc, d, he⟩ := step_effect h
  · simp [hreset] at hs
  have hfault (hf : s.runFaulted = true) : t.runFaulted = true ∧ t.goodEnd = false :=
    ⟨he.runFaulted_kept hf, State.goodEnd_faulted (he.runFaulted_kept hf)⟩
  obtain hsame | hm := he.ring_cases
  · have hr : t.ring = s.ring := hsame.ring
    exact ⟨.inl (by rw [hr]), .inl (by rw [hr]), .inl (by rw [hr]), .inl (by rw [hr]), .inl (by rw [hr]),
      .inl (by rw [hr]), .inl (by rw [hr]), .inl hsame.runFaulted, hfault⟩
  · exact ⟨hm.mem_writer, hm.count_writer, hm.inCur_writer, hm.outCur_writer, hm.ovf_writer, hm.inited_writer,
      hm.overrun_writer, hm.runFaulted_writer, hfault⟩

/-! ## The encoder's registers and the counter -/

/-- A failed encode leaves one of the three errors and length 0 (R171). -/
theorem State.encFail_invariant {s : State} {e : Status} (he : e = .nullBuffer ∨ e = .overflow ∨ e = .invalidAddress) :
    (s.encFail e).EncoderInvariant :=
  ⟨.inr he, fun _ => rfl⟩

/-- Whatever it was before, after ENC the encoder's result is legal. -/
theorem execEnc_invariant {dst : Ptr} {dcap : Word16} {addr : Byte} {pay : Ptr} {plen : Word16} {s t : State}
    (h : execEnc dst dcap addr pay plen s = .next t) : t.EncoderInvariant := by
  obtain ⟨-, ⟨-, rfl⟩ | ⟨-, -, rfl⟩ | ⟨-, -, -, -, rfl⟩⟩ := execEnc_cases h
  · exact State.encFail_invariant (.inl rfl)
  · exact State.encFail_invariant (.inr (.inr rfl))
  · obtain ⟨-, h⟩ | ⟨-, h⟩ := s.encFrame_cases dst.toNat dcap.toNat addr pay.toNat plen.toNat <;> rw [h]
    · exact ⟨.inl rfl, fun h => absurd rfl h⟩
    · exact State.encFail_invariant (.inr (.inl rfl))

theorem Effect.encoderInvariant {s t : State} (h : Effect s t) (hI : s.EncoderInvariant) : t.EncoderInvariant := by
  obtain he | ⟨_, _, _, _, _, h⟩ := h.enc_cases
  · unfold State.EncoderInvariant
    rw [he]
    exact hI
  · exact execEnc_invariant h

theorem Effect.counterFits {s t : State} (h : Effect s t) (hI : s.CounterFits) : t.CounterFits := by
  unfold State.CounterFits
  rw [h.par]
  obtain h | h := h.ring_cases
  · rw [h.ring]
    exact hI
  · obtain h | ⟨-, -, h⟩ := h.ovf_writer <;> rw [h]
    · exact hI
    · exact Nat.mod_lt _ (Nat.two_pow_pos _)

/-- Settles O54: only ENC writes the encoder's registers, only p1 the counter, and it counts modulo 2^CTR_W. -/
theorem encoderAndCounterKept : Obligations.EncoderAndCounterKept := by
  intro s t hE hC h
  obtain ⟨rest, -, rfl⟩ | ⟨-, pq, cq, sc, d, he⟩ := step_effect h
  · exact ⟨⟨.inl rfl, fun _ => rfl⟩, Nat.two_pow_pos _⟩
  · exact ⟨he.encoderInvariant hE, he.counterFits hC⟩

/-- Settles O56: neither a hardware reset nor any effect writes the parameters. -/
theorem parametersAreConstant : Obligations.ParametersAreConstant := by
  intro s t h
  obtain ⟨rest, -, rfl⟩ | ⟨-, pq, cq, sc, d, he⟩ := step_effect h
  · rfl
  · exact he.par

/-! ## The ring's refusals -/

/-- Before the first RB_INIT (R28). -/
theorem acceptRing_uninited {port : Port} {s : State} (k : Result) (hb : s.busy port = false)
    (hn : port = .p → s.initRunning = false) (hi : s.ring.inited = false) :
    acceptRing port s k = .refused .ringNotInitialised := by
  have hn : ¬(port = .p ∧ s.initRunning = true) := fun h => by simp [hn h.1] at h
  rw [acceptRing, accept_idle _ hb, if_neg hn, if_neg (by simp [hi])]

/-- On port P during RB_INIT (R149). -/
theorem acceptRing_during_init {s : State} (k : Result) (hp : s.pBusy = none) (hr : s.initRunning = true) :
    acceptRing .p s k = .refused .initOverlap := by
  rw [acceptRing, accept_idle _ (by simp [hp]), if_pos ⟨rfl, hr⟩]

/-- The ring commands of port P are accepted as such. -/
theorem ringCommand_p_accepted {s : State} {b : Byte} {i : Instr}
    (h : i ∈ [Instr.rbCount .p, .rbFull .p, .rbEmpty .p, .rbInsert b, .rbPush b]) :
    ∃ k, exec i s = acceptRing .p s k := by
  simp only [List.mem_cons, List.not_mem_nil, or_false] at h
  obtain rfl | rfl | rfl | rfl | rfl := h <;> exact ⟨_, rfl⟩

/-- The ring commands of port C but RB_INIT are accepted as such. -/
theorem ringCommand_c_accepted {s : State} {i : Instr}
    (h : i ∈ [Instr.rbCount .c, .rbFull .c, .rbEmpty .c, .rbRemove]) : ∃ k, exec i s = acceptRing .c s k := by
  simp only [List.mem_cons, List.not_mem_nil, or_false] at h
  obtain rfl | rfl | rfl | rfl := h <;> exact ⟨_, rfl⟩

/-- RB_INIT during a P command (R149). -/
theorem execRbInit_overlap {s : State} (hc : s.cBusy = none) (hp : s.pBusy.isSome = true) :
    execRbInit s = .refused .initOverlap := by
  rw [execRbInit, accept_idle _ (by simp [hc]), if_pos hp]

/-- Settles O18: each ring command goes through the same acceptance, which refuses it. -/
theorem ringCommandsRefusedOutOfOrder : Obligations.RingCommandsRefusedOutOfOrder := by
  intro s b
  refine ⟨fun hi hn hp i h => ?_, fun hi hc i h => ?_, execRbInit_overlap, fun hp hr i h => ?_⟩
  · obtain ⟨k, hk⟩ := ringCommand_p_accepted h
    exact hk.trans (acceptRing_uninited k (by simp [hp]) (fun _ => hn) hi)
  · obtain ⟨k, hk⟩ := ringCommand_c_accepted h
    exact hk.trans (acceptRing_uninited k (by simp [hc]) nofun hi)
  · obtain ⟨k, hk⟩ := ringCommand_p_accepted h
    exact hk.trans (acceptRing_during_init k hp hr)

end Sys2Proof.Machine
end

section
/-! SUPPORT. The memories (20_memory.md R60, R61, R64, R65): what each effect of a step writes into BM and into the ring
storage, and that both stay canonical and within bounds; that the micro-steps of accepted commands answer (R74, R77); the
guard of ENC (R64). -/

namespace Sys2Proof.Machine

/-! ## A memory kept canonical below a bound -/

/-- The canonical form, with addresses below a bound only: what `State.MemoriesCanonical` asks of either memory. -/
abbrev Memory.Canonical (bound : Nat) (m : Memory) : Prop := Memory.wf m = true ∧ Memory.below bound m = true

section Canonical

variable {bound : Nat} {m : Memory} (hm : Memory.Canonical bound m)
include hm

theorem Memory.Canonical.set {a : Nat} (v : Byte) (ha : a < bound) : Memory.Canonical bound (Memory.set m a v) :=
  ⟨Memory.wf_set a v hm.1, Memory.below_set v hm.2 ha⟩

theorem Memory.Canonical.setFree {a n : Nat} (d : Nat) (h : a + n ≤ bound) :
    Memory.Canonical bound (Memory.setFree m a n d) :=
  ⟨Memory.wf_setFree a n d hm.1, Memory.below_setFree a n d hm.2 h⟩

theorem Memory.Canonical.emitAll {dst dcap k : Nat} {l : List Byte} (h : dst + dcap ≤ bound) :
    Memory.Canonical bound (Machine.emitAll m dst dcap k l).1 :=
  ⟨emitAll_wf hm.1, emitAll_below hm.2 h⟩

end Canonical

/-! ## BM -/

/-- DEC_BYTE, and with it every wire row, writes at most one byte of BM, at the index, inside the bound buffer (R65,
R197). -/
theorem execDecByte_bm {b : Byte} {s t : State} (h : execDecByte b s = .next t) :
    t.bm = s.bm ∨ s.dec.idx.toNat < s.dec.cap.toNat
      ∧ ∃ x, t.bm = Memory.set s.bm (s.dec.buf.toNat + s.dec.idx.toNat) x := by
  obtain ⟨-, h⟩ := execDecByte_cases h
  have append (x : Byte) : (s.decAppend x).bm = s.bm ∨ s.dec.idx.toNat < s.dec.cap.toNat
      ∧ ∃ y, (s.decAppend x).bm = Memory.set s.bm (s.dec.buf.toNat + s.dec.idx.toNat) y := by
    obtain ⟨-, h⟩ | ⟨hroom, h⟩ := s.decAppend_cases x <;> rw [h]
    · exact .inl rfl
    · exact .inr ⟨hroom, x, rfl⟩
  obtain ⟨-, -, rfl⟩ | ⟨-, -, rfl⟩ | ⟨-, -, rfl⟩ | ⟨-, -, rfl⟩ | ⟨-, -, -, rfl⟩ | ⟨-, -, -, rfl⟩ | ⟨-, -, -, -, -, rfl⟩
    | ⟨-, -, -, -, -, rfl⟩ | ⟨-, -, rfl⟩ | ⟨-, -, -, rfl⟩ | ⟨-, -, rfl⟩ | ⟨-, -, rfl⟩ | ⟨-, -, -, rfl⟩ | ⟨-, rfl⟩ := h
  exacts [.inl rfl, .inl rfl, .inl rfl, .inl rfl, .inl rfl, .inl rfl, .inl rfl, .inl rfl, .inl rfl, append b, append fend,
    append fesc, .inl rfl, .inl rfl]

theorem execDecInit_bm {buf : Ptr} {cap : Word16} {s t : State} (h : execDecInit buf cap s = .next t) :
    t.bm = s.bm := by
  obtain ⟨-, ⟨-, rfl⟩ | ⟨-, -, rfl⟩⟩ := execDecInit_cases h <;> rfl

theorem RingMove.bm {s t : State} (h : RingMove s t) : t.bm = s.bm := by cases h <;> rfl

section BufferMemory

variable {s t : State} (hm : Memory.Canonical (2 ^ s.par.addrWidth) s.bm)
include hm

theorem execDecByte_bm_canonical {b : Byte} (h : execDecByte b s = .next t) :
    Memory.Canonical (2 ^ s.par.addrWidth) t.bm := by
  obtain ⟨⟨-, -, hr⟩, -⟩ := execDecByte_cases h
  obtain ⟨-, -, hfits⟩ := regionLegal_iff.mp hr
  obtain h | ⟨hroom, x, h⟩ := execDecByte_bm h <;> rw [h]
  · exact hm
  · exact hm.set x (by omega)

/-- Step 3 of ENC writes the two bytes after the payload (R174). -/
theorem State.appendCrc_bm_canonical (addr : Byte) {pay plen : Nat} (hp : pay + (plen + 2) ≤ 2 ^ s.par.addrWidth) :
    Memory.Canonical (2 ^ s.par.addrWidth) (s.appendCrc addr pay plen).bm :=
  (hm.set _ (by omega)).set _ (by omega)

/-- Steps 3 to 5 of ENC write inside the destination and the payload region extended by two bytes (R171, R177). -/
theorem State.encFrame_bm_canonical (addr : Byte) {dst dcap pay plen : Nat} (hd : dst + dcap ≤ 2 ^ s.par.addrWidth)
    (hp : pay + (plen + 2) ≤ 2 ^ s.par.addrWidth) :
    Memory.Canonical (2 ^ s.par.addrWidth) (s.encFrame dst dcap addr pay plen).bm := by
  have hcrc := State.appendCrc_bm_canonical hm addr hp
  obtain ⟨-, h⟩ | ⟨-, h⟩ := s.encFrame_cases dst dcap addr pay plen <;> rw [h]
  · exact hcrc.emitAll hd
  · exact (hcrc.emitAll hd).setFree _ hd

theorem execEnc_bm_canonical {dst : Ptr} {dcap : Word16} {addr : Byte} {pay : Ptr} {plen : Word16}
    (h : execEnc dst dcap addr pay plen s = .next t) : Memory.Canonical (2 ^ s.par.addrWidth) t.bm := by
  obtain ⟨-, ⟨-, rfl⟩ | ⟨-, -, rfl⟩ | ⟨-, hd, hp, -, rfl⟩⟩ := execEnc_cases h
  · exact hm
  · exact hm
  · exact State.encFrame_bm_canonical hm addr (regionLegal_iff.mp hd).2.2 (regionLegal_iff.mp hp).2.2

theorem Effect.bm_canonical (h : Effect s t) : Memory.Canonical (2 ^ s.par.addrWidth) t.bm := by
  cases h with
  | idle => exact hm
  | answers => rw [State.answer_bm]; exact hm
  | ring h => rw [h.bm]; exact hm
  | decByte h => exact execDecByte_bm_canonical hm h
  | decInit h => rw [execDecInit_bm h]; exact hm
  | enc h => exact execEnc_bm_canonical hm h
  | hostWrite ha => exact hm.set _ ha

end BufferMemory

/-! ## The ring storage -/

/-- Only i1 writes the ring storage, and it stores at a cursor below N (R23, R131). -/
theorem RingMove.mem_canonical {s t : State} (h : RingMove s t) (hm : Memory.Canonical s.par.ringSize s.ring.mem) :
    Memory.Canonical s.par.ringSize t.ring.mem := by
  cases h with
  | store b _ hin => exact hm.set b hin
  | _ => exact hm

theorem Effect.memoriesCanonical {s t : State} (h : Effect s t) (hI : s.MemoriesCanonical) : t.MemoriesCanonical := by
  unfold State.MemoriesCanonical
  rw [h.par]
  refine ⟨h.bm_canonical hI.1, ?_⟩
  obtain hr | hr := h.ring_cases
  · rw [hr.ring]; exact hI.2
  · exact hr.mem_canonical hI.2

/-- Settles O55: a hardware reset keeps BM and empties the ring storage; every effect that writes a byte writes it at an
address inside a legal region, of BM, or of the ring. -/
theorem memoriesStayCanonical : Obligations.MemoriesStayCanonical := by
  intro s t hI h
  obtain ⟨rest, -, rfl⟩ | ⟨-, pq, cq, sc, d, he⟩ := step_effect h
  · exact ⟨hI.1, rfl, rfl⟩
  · exact he.memoriesCanonical hI

/-! ## Accepted commands complete -/

/-- The next micro-step of port P answers; i1 finds room (R145), so no RingOverrun is recorded that was not before. -/
theorem microP_answers {s : State} {g : PStage} (hI : s.RingInvariant) (hp : s.pBusy = some g) :
    ∃ t, microP g s = .next t ∧ t.ring.overrun = s.ring.overrun := by
  obtain ⟨-, ⟨hin, -⟩, -, -, -, hS, -⟩ := hI
  cases g with
  | i1 b =>
    refine ⟨_, if_neg (by omega), ?_⟩
    show (s.ring.overrun || s.full) = s.ring.overrun
    cases ho : s.ring.overrun with
    | true => rfl
    | false => exact State.full_eq_false.mpr ((hS ho).room (by simp [State.inserting, hp]))
  | i2 b => exact ⟨_, rfl, rfl⟩
  | i3 b =>
    cases ho : s.ring.overrun with
    | true => exact ⟨_, if_pos ho, ho⟩
    | false => exact ⟨_, if_neg (by simp [ho]), ho⟩
  | p1 b => exact ⟨_, rfl, rfl⟩

/-- The next micro-step of port C answers: r3 finds a byte counted, or a RingOverrun recorded (R140). -/
theorem microC_answers {s : State} {g : CStage} (hI : s.RingInvariant) (hc : s.cBusy = some g) :
    ∃ t, microC g s = .next t := by
  obtain ⟨-, -, -, -, -, hS, -⟩ := hI
  cases g with
  | r2 v =>
    cases ho : s.ring.overrun with
    | true => exact ⟨_, if_pos ho⟩
    | false => exact ⟨_, if_neg (by simp [ho])⟩
  | r3 v =>
    cases ho : s.ring.overrun with
    | true => exact ⟨_, if_pos ho⟩
    | false =>
      have hpos := (hS ho).byte (by simp [State.removing, hc])
      exact ⟨_, (if_neg (by simp [ho])).trans (if_neg (by simp [State.empty_eq_false.mpr hpos]))⟩
  | n2 | n3 | n4 => exact ⟨_, rfl⟩

/-- Settles O23, from the invariant's room for an insert and byte for a remove in progress. -/
theorem acceptedCommandsComplete : Obligations.AcceptedCommandsComplete :=
  fun _ hI => ⟨fun _ => microP_answers hI, fun _ => microC_answers hI⟩

/-! ## ENC's guard -/

/-- Past steps 1 and 2, ENC looks at its regions before it writes (R64, 93 U10). -/
theorem execEnc_guarded {s : State} {dst : Ptr} (dcap : Word16) {addr : Byte} {pay : Ptr} (plen : Word16)
    (hc : s.cBusy = none) (hd : dst ≠ 0#32) (hp : pay ≠ 0#32) (hv : validAddr addr = true) :
    execEnc dst dcap addr pay plen s =
      if regionLegal s.par.addrWidth dst.toNat dcap.toNat = false
          ∨ regionLegal s.par.addrWidth pay.toNat (plen.toNat + 2) = false then .refused .illegalRegion
      else if regionsMeet dst.toNat dcap.toNat pay.toNat (plen.toNat + 2) then .refused .overlappingRegions
      else if s.dec.live ∧ regionsMeet s.dec.buf.toNat s.dec.cap.toNat (pay.toNat + plen.toNat) 2 then
        .refused .tailInLiveBuffer
      else .next (s.encFrame dst.toNat dcap.toNat addr pay.toNat plen.toNat) := by
  rw [execEnc, accept_idle _ (by simp [hc]), if_neg (by simp [hd, hp]), if_neg (by simp [hv])]

/-- A region whose pointer is not null is illegal exactly where it leaves BM (R64). -/
theorem regionLegal_eq_false {aw : Nat} {p : Ptr} {n : Nat} (hp : p ≠ 0#32) :
    regionLegal aw p.toNat n = false ↔ 2 ^ aw ≤ p.toNat ∨ 2 ^ aw < p.toNat + n := by
  have hp : p.toNat ≠ 0 := fun h => hp (BitVec.eq_of_toNat_eq h)
  rw [← Bool.not_eq_true, regionLegal_iff]
  omega

/-- Settles O34: the three checks of the guard, in their order. -/
theorem encRefusesBadRegions : Obligations.EncRefusesBadRegions := by
  intro s dst dcap addr pay plen hc hd hp hv
  have hexec : exec (.enc dst dcap addr pay plen) s = _ := execEnc_guarded dcap plen hc hd hp hv
  simp only [regionLegal_eq_false hd, regionLegal_eq_false hp] at hexec
  refine ⟨fun hbad => hexec.trans (if_pos (by omega)), fun h1 h2 h3 => ?_⟩
  rw [if_neg (by omega)] at hexec
  refine ⟨fun hmeet => hexec.trans (if_pos (regionsMeet_iff.mpr hmeet)), fun hapart hlive ⟨a, hbuf, htail⟩ => ?_⟩
  have hmeet : ¬regionsMeet dst.toNat dcap.toNat pay.toNat (plen.toNat + 2) = true :=
    fun h => let ⟨a, ha⟩ := regionsMeet_iff.mp h; hapart a ha
  rw [if_neg hmeet] at hexec
  exact hexec.trans (if_pos ⟨hlive, regionsMeet_iff.mpr ⟨a, hbuf, by omega⟩⟩)

end Sys2Proof.Machine
end

section
/-! SUPPORT. The order of the moves (20_memory.md R73): which port moves, and what its move is. -/

namespace Sys2Proof.Machine

/-! ## The step that is due -/

section Due

variable {s : State} (hs : s.sched.head? ≠ some .reset)
include hs

theorem nextAction_of_mover {port : Port} (hm : s.mover = some port) : nextAction s = portAction port s.moved := by
  unfold nextAction
  split
  · next h => simp [h] at hs
  · rw [hm]

theorem step_of_runEnded (h : s.runEnded = true) : step s = .next s.moved := by
  have hnext : nextAction s = .settled (.next s.moved) := by
    unfold nextAction
    split
    · next h => simp [h] at hs
    · rw [s.mover_eq_none.mpr h]
  rw [step, hnext]

theorem step_microP {g : PStage} (hm : s.mover = some .p) (hp : s.pBusy = some g) : step s = microP g s.moved := by
  simp [step, nextAction_of_mover hs hm, portAction, hp]

theorem step_microC {g : CStage} (hm : s.mover = some .c) (hc : s.cBusy = some g) : step s = microC g s.moved := by
  simp [step, nextAction_of_mover hs hm, portAction, hc]

theorem step_hostWrite {a : Nat} {b : Byte} {rest : List HostAct} (hm : s.mover = some .c) (hc : s.cBusy = none)
    (hq : s.cQueue = .write a b :: rest) : step s = hostWrite a b { s.moved with cQueue := rest } := by
  simp [step, nextAction_of_mover hs hm, portAction, hc, hq]

end Due

/-! ## Host writes -/

/-- One address meets a region exactly where it lies in it. -/
theorem regionsMeet_one {p n a : Nat} : regionsMeet p n a 1 = true ↔ p ≤ a ∧ a < p + n := by
  rw [regionsMeet_iff]
  constructor
  · rintro ⟨x, hx, hxa⟩; omega
  · exact fun h => ⟨a, h, by omega⟩

section HostWrite

variable {s : State} {a : Nat} (b : Byte)

/-- A host write outside the region in use happens (R78). -/
theorem hostWrite_ready (ha : a < 2 ^ s.par.addrWidth)
    (hout : s.dec.live = false ∨ ¬(s.dec.buf.toNat ≤ a ∧ a < s.dec.buf.toNat + s.dec.cap.toNat)) :
    hostWrite a b s = .next (s.withBm (Memory.set s.bm a b)) := by
  rw [hostWrite, if_neg (by omega), if_neg]
  rintro ⟨hlive, hmeet⟩
  obtain h | h := hout
  · simp [hlive] at h
  · exact h (regionsMeet_one.mp hmeet)

/-- A host write inside the region in use is refused (R79, 93 U7). -/
theorem hostWrite_live (ha : a < 2 ^ s.par.addrWidth) (hlive : s.dec.live = true)
    (hin : s.dec.buf.toNat ≤ a ∧ a < s.dec.buf.toNat + s.dec.cap.toNat) :
    hostWrite a b s = .refused .hostWriteInBoundRegion := by
  rw [hostWrite, if_neg (by omega), if_pos ⟨hlive, regionsMeet_one.mpr hin⟩]

theorem hostWrite_outside (ha : 2 ^ s.par.addrWidth ≤ a) : hostWrite a b s = .fault .outsideMemory := if_pos ha

end HostWrite

/-! ## The end of a run -/

/-- A run has ended where nothing is in progress and nothing left to issue (R233). -/
theorem State.runEnded_iff {s : State} :
    s.runEnded = true ↔ s.pBusy = none ∧ s.cBusy = none ∧ s.pQueue = [] ∧ s.cQueue = [] := by
  rw [State.runEnded, Bool.and_eq_true, Bool.not_eq_true', Bool.not_eq_true', State.hasWork_p_eq_false,
    State.hasWork_c_eq_false, and_and_and_comm, and_assoc]

/-- Where a port has nothing to do no free choice is made: only the schedule's entry is used up. -/
theorem State.moved_of_runEnded {s : State} (h : s.runEnded = true) :
    s.moved = { s with sched := s.sched.tail } := by
  have hfree : s.choiceIsFree = false := by
    simp only [State.runEnded, Bool.and_eq_true, Bool.not_eq_true'] at h
    simp [State.choiceIsFree, h.1]
  simp [State.moved, hfree]

/-- Settles O59: what is due is the moving port's action, and each action is its named operation. -/
theorem stepRunsTheOtherMoves : Obligations.StepRunsTheOtherMoves := by
  intro s hs
  refine ⟨fun g => step_microP hs, fun g => step_microC hs, fun a b rest hm hc hq => ?_, fun hp hc hpq hcq => ?_,
    State.runEnded_iff, ?_⟩
  · rw [step_hostWrite hs hm hc hq]
    refine ⟨fun ha hout => ⟨_, hostWrite_ready b ha hout, rfl, fun x => ?_⟩,
      fun ha hlive hin => hostWrite_live b ha hlive hin, fun ha => hostWrite_outside b ha⟩
    refine (State.bmRead_set (s := s) rfl x).trans ?_
    simp only [eq_comm]
  · have hend : s.runEnded = true := State.runEnded_iff.mpr ⟨hp, hc, hpq, hcq⟩
    rw [step_of_runEnded hs hend, State.moved_of_runEnded hend]
  · simp [State.goodEnd]

/-! ## The mover -/

/-- A port that alone has work moves. -/
theorem State.mover_lone_p {s : State} (hp : s.hasWork .p = true) (hc : s.hasWork .c = false) : s.mover = some .p := by
  simp [State.mover, hp, hc]

theorem State.mover_lone_c {s : State} (hp : s.hasWork .p = false) (hc : s.hasWork .c = true) : s.mover = some .c := by
  simp [State.mover, hp, hc]

/-- A port that the schedule names, and that has work, moves. -/
theorem State.mover_named {s : State} {port : Port} {rest : List Turn} (hsched : s.sched = .port port :: rest)
    (hw : s.hasWork port = true) : s.mover = some port := by
  cases port with
  | p =>
    cases hc : s.hasWork .c with
    | false => exact State.mover_lone_p hw hc
    | true => simp [State.mover, hw, hc, hsched]
  | c =>
    cases hp : s.hasWork .p with
    | false => exact State.mover_lone_c hp hw
    | true => simp [State.mover, hw, hp, hsched]

/-- Settles O60, the free choice being a port whatever it is. -/
theorem scheduleNamesTheMover : Obligations.ScheduleNamesTheMover :=
  ⟨fun s _ _ hsched hw => ⟨State.mover_named hsched hw, by simp [hsched]⟩, fun _ => State.mover_lone_p,
    fun _ => State.mover_lone_c, fun s hp hc hsched =>
      ⟨if Config.freePick s.draws then .p else .c, by simp [State.mover, hp, hc, hsched]⟩⟩

end Sys2Proof.Machine
end

section
/-! SUPPORT. The command packets (30_encoding.md R100 to R109): which of them are commands, said once by opcode, port and
length; that every command's packet decodes to it, and that a packet which is a command is some command's packet. -/

namespace Sys2Proof.Machine

/-! ## Which packets are commands -/

/-- No opcode has two rows (R103). -/
theorem commandRow_eq_some {op : Byte} {r : CommandRow} : commandRow op = some r ↔ r ∈ commandTable ∧ r.opcode = op := by
  have own : ∀ r ∈ commandTable, commandRow r.opcode = some r := by decide
  constructor
  · intro h
    exact ⟨List.mem_of_find?_eq_some h, by simpa using List.find?_some h⟩
  · rintro ⟨hr, rfl⟩
    exact own r hr

/-- A packet is a command where its opcode has a row that accepts the port and has the packet's length (R107). -/
theorem illegalWhy_cons_eq_none {port : Port} {op : Byte} {args : List Byte} :
    illegalWhy port (op :: args) = none ↔
      ∃ r ∈ commandTable, r.opcode = op ∧ r.accepts port = true ∧ r.length = args.length + 1 := by
  have hrow : illegalWhy port (op :: args) = none ↔
      ∃ r, commandRow op = some r ∧ r.accepts port = true ∧ r.length = args.length + 1 := by
    cases hr : commandRow op with
    | none => simp [illegalWhy, hr]
    | some r => cases ha : r.accepts port <;> simp [illegalWhy, hr, ha]
  simp only [hrow, commandRow_eq_some, and_assoc]

/-- The opcodes and operand lengths of each port, and those that both accept (R102, R103). -/
theorem illegalWhy_cons_eq_none_iff_mem {port : Port} {op : Byte} {args : List Byte} :
    illegalWhy port (op :: args) = none ↔
      (port = .c ∧ (op, args.length) ∈ [(0x01#8, 0), (0x06#8, 0), (0x10#8, 3), (0x20#8, 13), (0x30#8, 6), (0x31#8, 1),
          (0x40#8, 1)])
      ∨ (port = .p ∧ (op, args.length) ∈ [(0x05#8, 1), (0x07#8, 1)])
      ∨ (op, args.length) ∈ [(0x02#8, 0), (0x03#8, 0), (0x04#8, 0)] := by
  rw [illegalWhy_cons_eq_none]
  -- Both sides list the rows that accept the port, in different orders.
  cases port <;>
    simp only [commandTable, CommandRow.accepts, List.mem_cons, List.not_mem_nil, or_false, exists_eq_or_imp,
      ↓existsAndEq, eq_comm (b := op), Nat.right_eq_add, Nat.reduceEqDiff, List.length_eq_zero_iff, Prod.mk.injEq,
      Bool.false_eq_true, reduceCtorEq, false_and, and_false, true_and, false_or, or_self] <;>
    grind

/-! ## Encoding and decoding -/

/-- A packet that is no command is the catch-all (R107). -/
theorem decode_of_illegal {port : Port} {pkt : Packet} (h : (illegalWhy port pkt).isSome = true) :
    decode port pkt = .unassigned port pkt := by
  obtain ⟨why, hwhy⟩ := Option.isSome_iff_exists.mp h
  simp [decode, hwhy]

/-- Settles O1: each opcode selects its own format, in which the operands are read back byte by byte. -/
theorem commandsDecodeFromTheirPackets : Obligations.CommandsDecodeFromTheirPackets := by
  intro i hwf hcommand
  cases i with
  | rbInit | rbRemove | rbInsert | rbPush | decByte | rd => rfl
  | rbCount port | rbFull port | rbEmpty port => cases port <;> rfl
  | crcAppend b crc => exact congrArg (Instr.crcAppend b) (be16_bytes crc)
  | enc dst dcap addr pay plen =>
    calc decode .c (encode (.enc dst dcap addr pay plen))
      _ = .enc (be32 (dst.extractLsb' 24 8) (dst.extractLsb' 16 8) (dst.extractLsb' 8 8) (dst.extractLsb' 0 8))
            (be16 (hiByte dcap) (loByte dcap)) addr
            (be32 (pay.extractLsb' 24 8) (pay.extractLsb' 16 8) (pay.extractLsb' 8 8) (pay.extractLsb' 0 8))
            (be16 (hiByte plen) (loByte plen)) := rfl
      _ = .enc dst dcap addr pay plen := by simp only [be32_bytes, be16_bytes]
  | decInit buf cap => exact congrArg₂ Instr.decInit (be32_bytes buf) (be16_bytes cap)
  | unassigned port pkt => exact decode_of_illegal hwf
  | _ => cases hcommand

/-- Every packet that is a command is the packet of some command of its port (R100, R102). -/
theorem exists_command_of_legal {port : Port} {pkt : Packet} (h : illegalWhy port pkt = none) :
    ∃ i : Instr, encode i = pkt ∧ i.port = port ∧ i.WellFormed = true ∧ i.isWire = false := by
  cases pkt with
  | nil => cases h
  | cons op args =>
    rw [illegalWhy_cons_eq_none_iff_mem] at h
    simp only [List.mem_cons, List.not_mem_nil, or_false, Prod.mk.injEq] at h
    obtain ⟨rfl, h⟩ | ⟨rfl, h⟩ | h := h
    · obtain ⟨rfl, hl⟩ | ⟨rfl, hl⟩ | ⟨rfl, hl⟩ | ⟨rfl, hl⟩ | ⟨rfl, hl⟩ | ⟨rfl, hl⟩ | ⟨rfl, hl⟩ := h
      · rw [List.length_eq_zero_iff.mp hl]
        exact ⟨.rbInit, rfl, rfl, rfl, rfl⟩
      · rw [List.length_eq_zero_iff.mp hl]
        exact ⟨.rbRemove, rfl, rfl, rfl, rfl⟩
      · match args, hl with
        | [b, c1, c0], _ => exact ⟨.crcAppend b (be16 c1 c0), by simp [encode], rfl, rfl, rfl⟩
      · match args, hl with
        | [d3, d2, d1, d0, n1, n0, a, p3, p2, p1, p0, l1, l0], _ =>
          exact ⟨.enc (be32 d3 d2 d1 d0) (be16 n1 n0) a (be32 p3 p2 p1 p0) (be16 l1 l0), by simp [encode], rfl, rfl, rfl⟩
      · match args, hl with
        | [u3, u2, u1, u0, k1, k0], _ =>
          exact ⟨.decInit (be32 u3 u2 u1 u0) (be16 k1 k0), by simp [encode], rfl, rfl, rfl⟩
      · obtain ⟨b, rfl⟩ := List.length_eq_one_iff.mp hl
        exact ⟨.decByte b, rfl, rfl, rfl, rfl⟩
      · obtain ⟨reg, rfl⟩ := List.length_eq_one_iff.mp hl
        exact ⟨.rd reg, rfl, rfl, rfl, rfl⟩
    · obtain ⟨rfl, hl⟩ | ⟨rfl, hl⟩ := h <;> obtain ⟨b, rfl⟩ := List.length_eq_one_iff.mp hl
      · exact ⟨.rbInsert b, rfl, rfl, rfl, rfl⟩
      · exact ⟨.rbPush b, rfl, rfl, rfl, rfl⟩
    · obtain ⟨rfl, hl⟩ | ⟨rfl, hl⟩ | ⟨rfl, hl⟩ := h <;> rw [List.length_eq_zero_iff.mp hl]
      · exact ⟨.rbCount port, rfl, rfl, rfl, rfl⟩
      · exact ⟨.rbFull port, rfl, rfl, rfl, rfl⟩
      · exact ⟨.rbEmpty port, rfl, rfl, rfl, rfl⟩

/-- Settles O2: a packet is some command's packet, which decodes to that command, or it is the catch-all. -/
theorem packetsEncodeBack : Obligations.PacketsEncodeBack := by
  intro port pkt
  cases hwhy : illegalWhy port pkt with
  | none =>
    obtain ⟨i, rfl, rfl, hwf, hcommand⟩ := exists_command_of_legal hwhy
    rw [commandsDecodeFromTheirPackets i hwf hcommand]
    exact ⟨rfl, rfl, hwf, hcommand⟩
  | some why =>
    have hillegal : (illegalWhy port pkt).isSome = true := by rw [hwhy]; rfl
    rw [decode_of_illegal hillegal]
    exact ⟨rfl, rfl, hillegal, rfl⟩

/-- The catch-all is read only from a packet that is no command: what is read is well-formed. -/
theorem decode_eq_unassigned_iff {port : Port} {pkt : Packet} :
    decode port pkt = .unassigned port pkt ↔ (illegalWhy port pkt).isSome = true := by
  refine ⟨fun h => ?_, decode_of_illegal⟩
  obtain ⟨-, -, hwf, -⟩ := packetsEncodeBack port pkt
  rwa [h] at hwf

/-- Settles O5: the packets that are no catch-all have an opcode, and it is in the table with their port and length. -/
theorem illegalPacketsAreTheCatchAll : Obligations.IllegalPacketsAreTheCatchAll := by
  intro port pkt
  rw [Ne, decode_eq_unassigned_iff, Option.not_isSome_iff_eq_none]
  cases pkt with
  | nil => simp [illegalWhy]
  | cons op args =>
    rw [illegalWhy_cons_eq_none_iff_mem]
    constructor
    · exact fun h => ⟨op, args, rfl, h⟩
    · rintro ⟨_, _, ⟨rfl, rfl⟩, h⟩
      exact h

/-- Settles O4: ten written words, each evaluated. -/
theorem specWordsDecode : Obligations.SpecWordsDecode :=
  ⟨rfl, rfl, rfl, rfl, rfl, rfl, rfl, rfl, rfl, rfl⟩

end Sys2Proof.Machine
end

section
/-! SUPPORT. The wire symbols (30_encoding.md R90 to R99): the rows that a byte selects, and the length of an escaped
body. -/

namespace Sys2Proof.Machine

/-! ## The wire table -/

/-- A byte that is no address selects the row of bad addresses (R201). -/
theorem decodeAddress_of_invalid {b : Byte} (h : validAddr b = false) : decodeAddress b = .wAeAddrBad b := by
  unfold decodeAddress
  split
  case h_13 => rfl
  all_goals simp_all [validAddr]

/-- The row that a byte selects in state AddressExpected (R200, R201). -/
theorem decodeAddress_row (b : Byte) :
    (decodeAddress b).WellFormed = true ∧ (decodeAddress b).wireState = some .addressExpected
      ∧ encode (decodeAddress b) = [b] ∧ (decodeAddress b).fendCase = none := by
  cases hv : validAddr b with
  | true =>
    have twelve : ∀ a ∈ [0x01#8, 0x02#8, 0x03#8, 0x04#8, 0x05#8, 0x06#8, 0x07#8, 0x08#8, 0x09#8, 0x0A#8, 0x0B#8, 0x38#8],
        (decodeAddress a).WellFormed = true ∧ (decodeAddress a).wireState = some .addressExpected
          ∧ encode (decodeAddress a) = [a] ∧ (decodeAddress a).fendCase = none := by decide
    exact twelve b (validAddr_iff.mp hv)
  | false =>
    rw [decodeAddress_of_invalid hv]
    exact ⟨by simp [Instr.WellFormed, hv], rfl, rfl, rfl⟩

/-- The row that a byte selects is a row of its state, for that byte and under that FEND condition (R99). -/
theorem decodeWire_row (st : DecState) (fc : FendCase) (b : Byte) :
    (decodeWire st fc b).WellFormed = true ∧ (decodeWire st fc b).wireState = some st
      ∧ encode (decodeWire st fc b) = [b]
      ∧ ((decodeWire st fc b).fendCase = none ∨ (decodeWire st fc b).fendCase = some fc) := by
  cases st with
  | idle =>
    by_cases hb : b = fend
    · subst hb; exact ⟨rfl, rfl, rfl, .inl rfl⟩
    · simp [decodeWire, hb, Instr.WellFormed, Instr.wireState, Instr.fendCase, encode]
  | addressExpected =>
    obtain ⟨hwf, hst, henc, hfc⟩ := decodeAddress_row b
    exact ⟨hwf, hst, henc, .inl hfc⟩
  | receiving =>
    by_cases hb : b = fend
    · subst hb; cases fc <;> exact ⟨rfl, rfl, rfl, .inr rfl⟩
    · by_cases hb' : b = fesc
      · subst hb'; exact ⟨rfl, rfl, rfl, .inl rfl⟩
      · simp [decodeWire, hb, hb', Instr.WellFormed, Instr.wireState, Instr.fendCase, encode]
  | escaping =>
    by_cases hb : b = tfend
    · subst hb; exact ⟨rfl, rfl, rfl, .inl rfl⟩
    · by_cases hb' : b = tfesc
      · subst hb'; exact ⟨rfl, rfl, rfl, .inl rfl⟩
      · simp [decodeWire, hb, hb', Instr.WellFormed, Instr.wireState, Instr.fendCase, encode]
  | terminated => exact ⟨rfl, rfl, rfl, .inl rfl⟩

/-- A well-formed row is what its byte selects in its state, under its FEND condition (R99, R212). -/
theorem wireRow_selected {i : Instr} {st : DecState} {fc : FendCase} (hwf : i.WellFormed = true)
    (hst : i.wireState = some st) (hfc : i.fendCase = none ∨ i.fendCase = some fc) :
    ∃ b, encode i = [b] ∧ decodeWire st fc b = i := by
  cases i <;> cases hst
  case wIdleOther b => exact ⟨b, rfl, by simpa [decodeWire, Instr.WellFormed] using hwf⟩
  case wAeAddrBad b => exact ⟨b, rfl, decodeAddress_of_invalid (by simpa [Instr.WellFormed] using hwf)⟩
  case wRcvFendResync | wRcvFendShort | wRcvFendGood | wRcvFendBadcrc =>
    obtain h | h := hfc <;> cases h
    exact ⟨fend, rfl, rfl⟩
  case wRcvData b => exact ⟨b, rfl, by simp_all [decodeWire, Instr.WellFormed]⟩
  case wEscBad b => exact ⟨b, rfl, by simp_all [decodeWire, Instr.WellFormed]⟩
  all_goals exact ⟨_, rfl, rfl⟩

/-- Settles O3: the two directions above. -/
theorem wireTableIsExact : Obligations.WireTableIsExact :=
  ⟨decodeWire_row, fun _ _ _ => wireRow_selected⟩

/-! ## The length of a frame -/

/-- A byte is escaped to one byte more where it is a FEND or a FESC (R93). -/
theorem esc_length (b : Byte) :
    (esc b).length = 1 + ((if b == 0xC0#8 then 1 else 0) + if b == 0xDB#8 then 1 else 0) := by
  obtain ⟨rfl, h⟩ | ⟨rfl, h⟩ | ⟨hend, hesc, h⟩ := esc_cases b
  · rw [h]; rfl
  · rw [h]; rfl
  · rw [h, if_neg (by simpa [fend] using hend), if_neg (by simpa [fesc] using hesc), List.length_singleton]

/-- An escaped body is longer by one byte for each FEND and each FESC in it (R93, R97). -/
theorem escAll_length (l : List Byte) : (escAll l).length = l.length + (l.count 0xC0#8 + l.count 0xDB#8) := by
  induction l with
  | nil => rfl
  | cons b l ih =>
    rw [escAll_cons, List.length_append, ih, esc_length, List.count_cons, List.count_cons, List.length_cons]
    omega

/-- Escaping at most doubles the length. -/
theorem escAll_length_le (l : List Byte) : (escAll l).length ≤ 2 * l.length := by
  induction l with
  | nil => rfl
  | cons b l ih =>
    have hesc : (esc b).length ≤ 2 := by obtain ⟨-, h⟩ | ⟨-, h⟩ | ⟨-, -, h⟩ := esc_cases b <;> simp [h]
    simp only [escAll_cons, List.length_append, List.length_cons]
    omega

@[simp] theorem bodyOf_length (q : Params) (addr : Byte) (P : List Byte) : (bodyOf q addr P).length = P.length + 2 := by
  simp [bodyOf, bytes16]

@[simp] theorem frameOf_length (addr : Byte) (body : List Byte) :
    (frameOf addr body).length = (escAll body).length + 3 := by
  simp [frameOf]

/-- Settles O36: a frame is its escaped body and three bytes, the body the payload and two. -/
theorem frameLengthCountsEscapes : Obligations.FrameLengthCountsEscapes := by
  intro q addr P body
  have hbody : body.length = P.length + 2 := bodyOf_length q addr P
  have hlen := escAll_length body
  have hle := escAll_length_le body
  rw [frameOf_length]
  omega

end Sys2Proof.Machine
end

section
/-! SUPPORT. Issuing a command (30_encoding.md R100, R107): a busy port refuses it, whatever it is; the catch-all only
answers; a step runs the packet that is next. -/

namespace Sys2Proof.Machine

/-! ## Every instruction is accepted on its port -/

theorem accept_busy {port : Port} {s : State} (k : Result) (h : s.busy port = true) :
    accept port s k = .refused .portBusy := if_pos h

/-- Whatever row DEC_BYTE selects, it is accepted on port C first. -/
theorem execDecByte_accepts (b : Byte) (s : State) : ∃ k, execDecByte b s = accept .c s k := by
  unfold execDecByte
  split
  · split <;> exact ⟨_, rfl⟩
  · rw [addressRow_eq]; split <;> exact ⟨_, rfl⟩
  · split
    · unfold fendRow; split <;> exact ⟨_, rfl⟩
    · split <;> exact ⟨_, rfl⟩
  · split
    · exact ⟨_, rfl⟩
    · split <;> exact ⟨_, rfl⟩
  · exact ⟨_, rfl⟩

/-- Every instruction begins with its acceptance on its port (R100). -/
theorem exec_accepts (i : Instr) (s : State) : ∃ k, exec i s = accept i.port s k := by
  cases i with
  | decByte b => exact execDecByte_accepts b s
  | _ => exact ⟨_, rfl⟩

/-- Settles O19: acceptance is where a busy port refuses. -/
theorem busyPortTakesNoCommand : Obligations.BusyPortTakesNoCommand := by
  intro i s hbusy
  obtain ⟨k, hk⟩ := exec_accepts i s
  exact hk.trans (accept_busy k hbusy)

/-! ## The catch-all -/

/-- Answering on an idle port adds the answer and nothing else. -/
theorem State.answer_p_of_idle {s : State} (st : Status) (v : Value) (h : s.pBusy = none) :
    s.answer .p st v = { s with pAnswers := ⟨st, v⟩ :: s.pAnswers } := by
  rw [State.answer, ← h]

theorem State.answer_c_of_idle {s : State} (st : Status) (v : Value) (h : s.cBusy = none) :
    s.answer .c st v = { s with cAnswers := ⟨st, v⟩ :: s.cAnswers } := by
  rw [State.answer, ← h]

theorem exec_unassigned {port : Port} {s : State} (pkt : Packet) (h : s.busy port = false) :
    exec (.unassigned port pkt) s = .next (s.answer port .illegalCmd 0#32) :=
  accept_idle _ h

/-- Settles O6: the catch-all does nothing but answer. -/
theorem unassignedChangesNothing : Obligations.UnassignedChangesNothing := by
  refine ⟨fun s pkt h => ?_, fun s pkt h => ?_⟩
  · rw [exec_unassigned pkt (by simp [h]), State.answer_p_of_idle _ _ h]
  · rw [exec_unassigned pkt (by simp [h]), State.answer_c_of_idle _ _ h]

/-! ## The packet that is next -/

section Due

variable {s : State} (hs : s.sched.head? ≠ some .reset) {pkt : Packet}
include hs

theorem step_packet_p {rest : List Packet} (hm : s.mover = some .p) (hp : s.pBusy = none) (hq : s.pQueue = pkt :: rest) :
    step s = exec (decode .p pkt) { s.moved with pQueue := rest } := by
  simp [step, nextAction_of_mover hs hm, portAction, hp, hq]

theorem step_packet_c {rest : List HostAct} (hm : s.mover = some .c) (hc : s.cBusy = none)
    (hq : s.cQueue = .command pkt :: rest) : step s = exec (decode .c pkt) { s.moved with cQueue := rest } := by
  simp [step, nextAction_of_mover hs hm, portAction, hc, hq]

end Due

/-- Settles O58: the moving port's action is to run what its next packet decodes to. -/
theorem stepRunsTheDecodedCommand : Obligations.StepRunsTheDecodedCommand := by
  intro s i pkt hs
  refine ⟨fun rest hm hp hq hi => ?_, fun rest hm hc hq hi => ?_⟩
  · rw [step_packet_p hs hm hp hq, hi]
  · rw [step_packet_c hs hm hc hq, hi]

end Sys2Proof.Machine
end

section
/-! SUPPORT. The ring as a queue (40_ring_buffer.md R147, R148; 10_state.md R29, R44): what each move of the ring does
to the logical content. -/

namespace Sys2Proof.Machine

/-! ## The logical content -/

@[simp] theorem State.content_length (s : State) : s.content.length = s.ring.count.toNat := by simp [State.content]

/-- The same count of bytes, each the same: the same content. -/
theorem State.content_eq_of_cells {s t : State} (hcount : t.ring.count = s.ring.count)
    (h : ∀ k < s.ring.count.toNat,
      t.ring.cell ((t.front + k) % t.par.ringSize) = s.ring.cell ((s.front + k) % s.par.ringSize)) :
    t.content = s.content := by
  rw [State.content, hcount]
  exact List.map_congr_left fun k hk => h k (List.mem_range.mp hk)

/-- The same storage, and the oldest byte in the same cell: the same content. -/
theorem State.content_eq_of_front {s t : State} (hcount : t.ring.count = s.ring.count) (hpar : t.par = s.par)
    (hmem : t.ring.mem = s.ring.mem) (hfront : t.front ≡ s.front [MOD s.par.ringSize]) : t.content = s.content :=
  State.content_eq_of_cells hcount fun k _ => by rw [Ring.cell_congr hmem, hpar, hfront.add_right k]

theorem State.outAhead_le_one (s : State) : s.outAhead ≤ 1 := by
  unfold State.outAhead
  split <;> simp

/-- The oldest byte lies at RB.out, or just before it between r2 and r3 (R44). -/
theorem State.front_add_outAhead {s : State} (hq : s.par.Legal) :
    s.front + s.outAhead ≡ s.ring.outCur.toNat [MOD s.par.ringSize] := by
  have hle := s.outAhead_le_one
  have hpos := hq.1.1
  calc s.front + s.outAhead
    _ ≡ s.ring.outCur.toNat + s.par.ringSize - s.outAhead + s.outAhead [MOD s.par.ringSize] :=
      (Nat.mod_modEq _ _).add_right _
    _ = s.ring.outCur.toNat + s.par.ringSize := by omega
    _ ≡ s.ring.outCur.toNat [MOD s.par.ringSize] := Nat.add_modEq_right

/-- RB.in is the first cell after the content, or one further between i2 and i3 (R29, R44). -/
theorem State.RingBalanced.front_add_count {s : State} (hb : s.RingBalanced) (hq : s.par.Legal) :
    s.front + s.ring.count.toNat + s.inAhead ≡ s.ring.inCur.toNat [MOD s.par.ringSize] := by
  apply Nat.ModEq.add_right_cancel' s.outAhead
  calc s.front + s.ring.count.toNat + s.inAhead + s.outAhead
    _ = s.front + s.outAhead + (s.ring.count.toNat + s.inAhead) := by omega
    _ ≡ s.ring.outCur.toNat + (s.ring.count.toNat + s.inAhead) [MOD s.par.ringSize] :=
      (State.front_add_outAhead hq).add_right _
    _ = s.ring.outCur.toNat + s.ring.count.toNat + s.inAhead := by omega
    _ ≡ s.ring.inCur.toNat + s.outAhead [MOD s.par.ringSize] := hb.symm

/-- While there is room, the cell at RB.in before i2 holds no byte of the content. -/
theorem State.RingBalanced.inCur_free {s : State} (hb : s.RingBalanced) (hq : s.par.Legal) (hahead : s.inAhead = 0)
    (hroom : s.ring.count.toNat < s.par.ringSize) {k : Nat} (hk : k < s.ring.count.toNat) :
    s.ring.inCur.toNat ≠ (s.front + k) % s.par.ringSize := by
  intro heq
  have hin := hb.front_add_count hq
  rw [hahead, heq] at hin
  have hmod : s.ring.count.toNat ≡ k [MOD s.par.ringSize] :=
    Nat.ModEq.add_left_cancel' s.front (hin.trans (Nat.mod_modEq _ _))
  have := hmod.eq_of_lt_of_lt hroom (hk.trans hroom)
  omega

/-- The cell before a cursor, as a residue. -/
theorem State.cellBefore_eq_of_modEq {s : State} {c : Word16} {i : Nat} (hq : s.par.Legal)
    (h : i + 1 ≡ c.toNat [MOD s.par.ringSize]) : s.cellBefore c = s.ring.cell (i % s.par.ringSize) := by
  have hpos := hq.1.1
  have hmod : c.toNat + s.par.ringSize - 1 ≡ i [MOD s.par.ringSize] := by
    apply Nat.ModEq.add_right_cancel' 1
    calc c.toNat + s.par.ringSize - 1 + 1
      _ = c.toNat + s.par.ringSize := by omega
      _ ≡ c.toNat [MOD s.par.ringSize] := Nat.add_modEq_right
      _ ≡ i + 1 [MOD s.par.ringSize] := h.symm
  rw [State.cellBefore, hmod]

/-- The content reads the ring's part of the state alone. -/
theorem SameRing.content {s t : State} (h : SameRing s t) : t.content = s.content := by
  refine State.content_eq_of_front (by rw [h.ring]) h.par (by rw [h.ring]) ?_
  simp only [State.front, State.outAhead, h.par, h.ring, h.cBusy]
  exact rfl

/-! ## The content over the ring's moves -/

section Content

variable {s t : State} (hI : s.RingInvariant)
include hI

/-- A move that leaves the count leaves the content: i1 writes outside it, and r2 moves RB.out past a byte that still
counts. -/
theorem RingMove.content_of_count_eq (h : RingMove s t) (hi : s.ring.inited = true) (hn : s.initRunning = false)
    (ho : t.ring.overrun = false) (hcount : t.ring.count = s.ring.count) : t.content = s.content := by
  have hready {b} := State.ReadyForP.of_insert hI (b := b)
  obtain ⟨hq, -, -, -, -, hS, -⟩ := hI
  have hs := State.front_add_outAhead hq
  have ht := State.front_add_outAhead (s := t) (h.par ▸ hq)
  cases h with
  | choose | advanceIn | countUp | drop => exact State.content_eq_of_front hcount rfl rfl rfl
  | store b hr =>
    obtain ⟨ho, hroom⟩ := overrun_or_full_eq_false.mp ho
    refine State.content_eq_of_cells hcount fun k hk => (Ring.cell_set rfl _).trans (if_neg ?_)
    exact ((hS ho).balanced hi hn).inCur_free hq (hready hr).2.2 hroom hk
  | load n hc | initIn hc =>
    refine State.content_eq_of_front hcount rfl rfl ?_
    simp [State.front, State.outAhead, hc, Nat.ModEq.refl]
  | advanceOut n hc hcur =>
    obtain rfl | ⟨ho', -⟩ := hcur
    · refine State.content_eq_of_front hcount rfl rfl (Nat.ModEq.add_right_cancel' 1 ?_)
      rw [State.outAhead, hc] at hs
      refine ht.trans ?_
      show (nextCursor s.par s.ring.outCur).toNat ≡ s.front + 1 [MOD s.par.ringSize]
      rw [nextCursor_toNat _ hq]
      exact (Nat.mod_modEq _ _).trans (hs.symm.add_right 1)
    · exact absurd ho' (by simpa using ho)
  | countDown n hc hdown =>
    obtain ⟨hbyte, rfl⟩ := hdown ho
    have hsame : (s.ring.count - 1#16).toNat = s.ring.count.toNat := congrArg BitVec.toNat hcount
    rw [count_sub_one hbyte] at hsame
    omega
  | initOut hc | initCount hc | initDone hc => simp [State.initRunning, hc] at hn

/-- i3 appends the byte it has latched. -/
theorem State.RingInvariant.content_countUp {b : Byte} (ho : s.ring.overrun = false) (hp : s.pBusy = some (.i3 b))
    (hpar : t.par = s.par) (hring : t.ring = { s.ring with count := s.ring.count + 1#16 }) (hc : t.cBusy = s.cBusy) :
    t.content = s.content ++ [b] := by
  obtain ⟨hq, -, hP, -, -, hS, -⟩ := hI
  obtain ⟨hi, hn⟩ := hP (by simp [hp])
  have hin := ((hS ho).balanced hi hn).front_add_count hq
  have hroom := (hS ho).room (by simp [State.inserting, hp])
  rw [State.inAhead, hp] at hin
  have hlast : s.ring.cell ((s.front + s.ring.count.toNat) % s.par.ringSize) = b :=
    (State.cellBefore_eq_of_modEq hq hin).symm.trans ((hS ho).latchP.2 b hp)
  have hfront : t.front = s.front := by simp only [State.front, State.outAhead, hpar, hring, hc]
  have hcount : t.ring.count.toNat = s.ring.count.toNat + 1 := by rw [hring]; exact count_add_one hq hroom
  have hcell (k : Nat) : t.ring.cell k = s.ring.cell k := Ring.cell_congr (by rw [hring]) k
  simp only [State.content, hcount, hfront, hpar, hcell, List.range_succ, List.map_append, List.map_singleton, hlast]

/-- r3 takes the oldest byte off, the one it has latched. -/
theorem State.RingInvariant.content_countDown {v : Byte} (ho : s.ring.overrun = false) (hc : s.cBusy = some (.r3 v))
    (hpar : t.par = s.par) (hring : t.ring = { s.ring with count := s.ring.count - 1#16 }) (hc' : t.cBusy = none) :
    s.content = v :: t.content := by
  obtain ⟨hq, -, -, -, -, hS, -⟩ := hI
  have hbyte := (hS ho).byte (by simp [State.removing, hc])
  have hfront : s.front + 1 ≡ t.front [MOD s.par.ringSize] := by
    have hs := State.front_add_outAhead hq
    have ht := State.front_add_outAhead (hpar ▸ hq : t.par.Legal)
    simp only [State.outAhead, hc, hc', hpar, hring] at hs ht
    exact hs.trans ht.symm
  have hfirst : s.ring.cell (s.front % s.par.ringSize) = v := by
    have hs := State.front_add_outAhead hq
    rw [State.outAhead, hc] at hs
    exact (State.cellBefore_eq_of_modEq hq hs).symm.trans ((hS ho).latchC.2 v hc)
  have hcount : s.ring.count.toNat = t.ring.count.toNat + 1 := by
    rw [hring, count_sub_one hbyte]
    omega
  have hcell (k : Nat) : t.ring.cell k = s.ring.cell k := Ring.cell_congr (by rw [hring]) k
  have hshift (k : Nat) : (s.front + (k + 1)) % s.par.ringSize = (t.front + k) % s.par.ringSize := by
    rw [Nat.add_comm k, ← Nat.add_assoc]
    exact hfront.add_right k
  simp only [State.content, hcount, hpar, hcell, List.range_succ_eq_map, List.map_cons, List.map_map,
    Function.comp_def, Nat.add_zero, hfirst, Nat.succ_eq_add_one, hshift]

end Content

/-! ## Which port a step moves -/

/-- No command of port P touches the command in progress on port C. -/
theorem exec_p_cBusy {i : Instr} {s t : State} (hi : i.port = .p) (h : exec i s = .next t) : t.cBusy = s.cBusy := by
  have query {w : Nat} {v : Value} (h : acceptRing .p s (.next (s.answerRing .p w v)) = .next t) :
      t.cBusy = s.cBusy := by
    obtain ⟨-, -, -, h⟩ := acceptRing_next h
    cases h
    exact s.answerRing_p_cBusy w v
  cases i with
  | rbCount port | rbFull port | rbEmpty port => cases hi; exact query h
  | rbInsert b =>
    obtain ⟨-, -, -, h⟩ := acceptRing_next h
    obtain ⟨-, rfl⟩ := insertStore_next h
    rfl
  | rbPush b => obtain ⟨-, ⟨-, rfl | rfl⟩ | ⟨-, ⟨-, rfl⟩ | ⟨-, rfl⟩⟩⟩ := execRbPush_next h <;> rfl
  | unassigned port pkt =>
    cases hi
    obtain ⟨-, h⟩ := accept_next h
    cases h
    rfl
  | _ => cases hi

/-- No micro-step of port P touches the command in progress on port C. -/
theorem microP_cBusy {g : PStage} {s t : State} (h : microP g s = .next t) : t.cBusy = s.cBusy := by
  obtain ⟨b, -, -, rfl⟩ | ⟨b, -, rfl⟩ | ⟨b, -, -, rfl⟩ | ⟨b, -, -, rfl⟩ | ⟨b, -, rfl⟩ := microP_cases h <;> rfl

/-- The command in progress on port C goes on only by its own micro-step. -/
theorem step_microC_of_cBusy_ne {s t : State} {g : CStage} (hs : s.sched.head? ≠ some .reset) (h : step s = .next t)
    (hc : s.cBusy = some g) (hne : t.cBusy ≠ s.cBusy) : microC g s.moved = .next t := by
  obtain ⟨rest, hreset, -⟩ | ⟨-, ⟨-, rfl⟩ | ⟨g', -, -, h⟩ | ⟨g', -, hc', h⟩ | ⟨a, b, rest, -, hc', -⟩
    | ⟨pkt, rest, -, -, -, h⟩ | ⟨pkt, rest, -, hc', -⟩⟩ := step_cases h
  · simp [hreset] at hs
  · exact absurd rfl hne
  · exact absurd (microP_cBusy h) hne
  · rwa [← Option.some.inj (hc'.symm.trans hc)]
  · simp [hc'] at hc
  · obtain ⟨-, hport, -⟩ := packetsEncodeBack .p pkt
    exact absurd (exec_p_cBusy hport h) hne
  · simp [hc'] at hc

/-! ## The refinement -/

section Refines

variable {s t : State} (hI : s.RingInvariant)
include hI

/-- With an insert past i2, the move that leaves port P idle is its i3. -/
theorem RingMove.insert_answered (h : RingMove s t) {b : Byte} (hp : s.pBusy = some (.i3 b)) (hp' : t.pBusy = none)
    (ho : t.ring.overrun = false) : t.content = s.content ++ [b] ∧ t.pAnswers = ⟨.ok, 0#32⟩ :: s.pAnswers := by
  cases h with
  | countUp n _ hc =>
    obtain rfl := hc ho
    exact ⟨hI.content_countUp ho hp rfl rfl rfl, rfl⟩
  | choose | store | advanceIn => cases hp'
  | drop hdrop => simp [hdrop] at hp
  | load | advanceOut | countDown | initIn | initOut | initCount | initDone => exact nomatch hp.symm.trans hp'

/-- r3 takes the oldest byte off and answers it. -/
theorem State.RingInvariant.remove_answered {v : Byte} (hc : s.cBusy = some (.r3 v)) (h : microC (.r3 v) s = .next t)
    (ho : t.ring.overrun = false) : s.content = v :: t.content ∧ t.cAnswers = ⟨.ok, v.setWidth 32⟩ :: s.cAnswers := by
  obtain ⟨ho', rfl⟩ | ⟨ho', -, rfl⟩ := removeCount_next h
  · simp [ho'] at ho
  · exact ⟨hI.content_countDown ho hc rfl rfl rfl, rfl⟩

end Refines

/-- Settles O21: only i3 and r3 change the content, and each of them answers its own port. -/
theorem stepsRefineAQueue : Obligations.StepsRefineAQueue := by
  intro s t hI hi hn hs h ho
  obtain ⟨rest, hreset, -⟩ | ⟨-, pq, cq, sc, d, he⟩ := step_effect h
  · simp [hreset] at hs
  have hI' : (s.rescheduled pq cq sc d).RingInvariant := hI
  refine ⟨fun b hp hp' => ?_, fun v hc hc' => ?_, fun hcount => ?_⟩
  · obtain hsame | hm := he.ring_cases
    · exact nomatch hp.symm.trans (hsame.pBusy.symm.trans hp')
    · exact hm.insert_answered hI' hp hp' ho
  · have hmicro := step_microC_of_cBusy_ne hs h hc (by simp [hc, hc'])
    exact State.RingInvariant.remove_answered (s := s.moved) hI hc hmicro ho
  · have hkept : t.content = (s.rescheduled pq cq sc d).content := by
      obtain hsame | hm := he.ring_cases
      · exact hsame.content
      · exact hm.content_of_count_eq hI' hi hn ho hcount
    exact hkept

end Sys2Proof.Machine
end

section
/-! SUPPORT. The ring commands run (40_ring_buffer.md R131 to R146): what each micro-step answers from a state that
meets its premises, with and without a RingOverrun recorded, and the commands driven to their answers. -/

namespace Sys2Proof.Machine

/-! ## Driving a command -/

theorem driveP_succ {s t : State} {g : PStage} (n : Nat) (hp : s.pBusy = some g) (h : microP g s = .next t) :
    driveP (n + 1) s = driveP n t := by
  simp [driveP, hp, h, thenDo]

theorem driveC_succ {s t : State} {g : CStage} (n : Nat) (hc : s.cBusy = some g) (h : microC g s = .next t) :
    driveC (n + 1) s = driveC n t := by
  simp [driveC, hc, h, thenDo]

/-! ## RB_INIT -/

theorem execRbInit_ready {s : State} (hc : s.cBusy = none) (hp : s.pBusy = none) : execRbInit s = initIn s := by
  rw [execRbInit, accept_idle _ (by simp [hc]), if_neg (by simp [hp])]

/-- Settles O11: four writes, the first on acceptance. -/
theorem initResetsTheRing : Obligations.InitResetsTheRing := by
  refine ⟨rfl, fun s hc hp => ⟨_, _, execRbInit_ready hc hp, ?_, rfl, rfl, fun hN => State.full_eq_false.mpr hN⟩⟩
  rw [driveC_succ 2 rfl rfl, driveC_succ 1 rfl rfl, driveC_succ 0 rfl rfl]
  exact congrArg _ (State.answer_c_of_idle (s := s.withRing
    { s.ring with inCur := 0#16, outCur := 0#16, count := 0#16, inited := true, overrun := false }) _ _ hc)

/-! ## The queries -/

section Queries

variable {s : State} (w : Nat) (v : Value) (hi : s.ring.inited = true)
include hi

theorem ringQuery_p (hp : s.pBusy = none) (hn : s.initRunning = false) (ho : s.ring.overrun = false) :
    acceptRing .p s (.next (s.answerRing .p w v)) = .next { s with pAnswers := ⟨.ok, v⟩ :: s.pAnswers } := by
  rw [acceptRing_ready _ (by simp [hp]) hi fun _ => hn, State.answerRing_sound _ _ _ ho, State.answer_p_of_idle _ _ hp]

theorem ringQuery_c (hc : s.cBusy = none) (ho : s.ring.overrun = false) :
    acceptRing .c s (.next (s.answerRing .c w v)) = .next { s with cAnswers := ⟨.ok, v⟩ :: s.cAnswers } := by
  rw [acceptRing_ready _ (by simp [hc]) hi (by simp), State.answerRing_sound _ _ _ ho, State.answer_c_of_idle _ _ hc]

/-- After a RingOverrun the answer is a draw (R140). -/
theorem ringQuery_p_overrun (hp : s.pBusy = none) (hn : s.initRunning = false) (ho : s.ring.overrun = true) :
    acceptRing .p s (.next (s.answerRing .p w v)) = .next { s with
      draws := s.draws + 1, pAnswers := ⟨.ok, freeValue s.draws w⟩ :: s.pAnswers } := by
  rw [acceptRing_ready _ (by simp [hp]) hi fun _ => hn, State.answerRing_overrun _ _ _ ho]
  exact congrArg _ (State.answer_p_of_idle (s := s.drew 1) _ _ hp)

theorem ringQuery_c_overrun (hc : s.cBusy = none) (ho : s.ring.overrun = true) :
    acceptRing .c s (.next (s.answerRing .c w v)) = .next { s with
      draws := s.draws + 1, cAnswers := ⟨.ok, freeValue s.draws w⟩ :: s.cAnswers } := by
  rw [acceptRing_ready _ (by simp [hc]) hi (by simp), State.answerRing_overrun _ _ _ ho]
  exact congrArg _ (State.answer_c_of_idle (s := s.drew 1) _ _ hc)

end Queries

theorem boolValue_full (s : State) :
    boolValue s.full = if s.par.ringSize ≤ s.ring.count.toNat then 1#32 else 0#32 := by
  simp [boolValue, State.full]

theorem boolValue_empty (s : State) : boolValue s.empty = if s.ring.count = 0#16 then 1#32 else 0#32 := by
  simp [boolValue, State.empty]

/-- Settles O12: the three queries are one, with three values. -/
theorem countQueriesAnswer : Obligations.CountQueriesAnswer := by
  refine ⟨fun port => by cases port <;> exact ⟨rfl, rfl, rfl⟩, fun s hi ho => ⟨fun hp hn => ?_, fun hc => ?_⟩⟩ <;>
    rw [← boolValue_full, ← boolValue_empty]
  · exact ⟨ringQuery_p 16 _ hi hp hn ho, ringQuery_p 1 _ hi hp hn ho, ringQuery_p 1 _ hi hp hn ho⟩
  · exact ⟨ringQuery_c 16 _ hi hc ho, ringQuery_c 1 _ hi hc ho, ringQuery_c 1 _ hi hc ho⟩

/-! ## The micro-steps, no RingOverrun recorded -/

section Sound

variable {s : State}

theorem insertStore_room (b : Byte) (hin : s.ring.inCur.toNat < s.par.ringSize)
    (hroom : s.ring.count.toNat < s.par.ringSize) : insertStore b s =
      .next ((s.withRing { s.ring with mem := Memory.set s.ring.mem s.ring.inCur.toNat b }).holdP (.i2 b)) := by
  rw [insertStore, if_neg (by omega), State.full_eq_false.mpr hroom, State.noteOverrun_false]

theorem insertCount_sound (ho : s.ring.overrun = false) :
    insertCount s = .next ((s.withRing { s.ring with count := s.ring.count + 1#16 }).answer .p .ok 0#32) :=
  if_neg (by simp [ho])

theorem removeLoad_sound (ho : s.ring.overrun = false) (hbyte : 0 < s.ring.count.toNat)
    (hout : s.ring.outCur.toNat < s.par.ringSize) :
    removeLoad s = .next (s.holdC (.r2 (s.ring.cell s.ring.outCur.toNat))) := by
  rw [removeLoad, if_neg (by simp [ho]), if_neg (by simp [State.empty_eq_false.mpr hbyte]), if_neg (by omega)]

theorem removeAdvance_sound (v : Byte) (ho : s.ring.overrun = false) :
    removeAdvance v s = .next ((s.withRing { s.ring with outCur := nextCursor s.par s.ring.outCur }).holdC (.r3 v)) :=
  if_neg (by simp [ho])

theorem removeCount_sound (v : Byte) (ho : s.ring.overrun = false) (hbyte : 0 < s.ring.count.toNat) :
    removeCount v s =
      .next ((s.withRing { s.ring with count := s.ring.count - 1#16 }).answer .c .ok (v.setWidth 32)) := by
  rw [removeCount, if_neg (by simp [ho]), if_neg (by simp [State.empty_eq_false.mpr hbyte])]

end Sound

/-! ## RB_INSERT -/

theorem execRbInsert_ready {s : State} (b : Byte) (hp : s.pBusy = none) (hn : s.initRunning = false)
    (hi : s.ring.inited = true) : execRbInsert b s = insertStore b s :=
  acceptRing_ready _ (by simp [hp]) hi fun _ => hn

/-- One more, in 16 bits (R132). -/
theorem ofNat_count_add_one (c : Word16) : BitVec.ofNat 16 (c.toNat + 1) = c + 1#16 := by
  apply BitVec.eq_of_toNat_eq
  simp

/-- One less, where there is one. -/
theorem ofNat_count_sub_one {c : Word16} (hc : 0 < c.toNat) : BitVec.ofNat 16 (c.toNat - 1) = c - 1#16 := by
  rw [← count_sub_one hc, BitVec.ofNat_toNat, BitVec.setWidth_eq]

theorem Memory.get_set_eq_ite (m : Memory) (a : Nat) (b : Byte) (k : Nat) :
    Memory.get (Memory.set m a b) k = if k = a then some b else Memory.get m k := by
  rw [Memory.get_set]
  simp only [eq_comm]

/-- i3 with its answer, from a state that held nothing on port P before (R131, R139). -/
theorem insertCount_answers {s : State} {r : Ring} {g : PStage} (hp : s.pBusy = none) (ho : r.overrun = false) :
    insertCount { s with ring := r, pBusy := some g } = .next { s with
      ring := { r with count := BitVec.ofNat 16 (r.count.toNat + 1) }, pAnswers := ⟨.ok, 0#32⟩ :: s.pAnswers } := by
  rw [insertCount_sound ho, ofNat_count_add_one, State.answer, ← hp]
  rfl

/-- Settles O13: i1 on acceptance, then i2 and i3. -/
theorem insertRunsItsMicroSteps : Obligations.InsertRunsItsMicroSteps := by
  intro s b hp hn hi ho hroom hin
  refine ⟨_, Memory.get_set_eq_ite s.ring.mem _ b, (execRbInsert_ready b hp hn hi).trans (insertStore_room b hin hroom),
    rfl, insertCount_answers hp ho⟩

/-! ## RB_REMOVE -/

theorem execRbRemove_ready {s : State} (hc : s.cBusy = none) (hi : s.ring.inited = true) :
    execRbRemove s = removeLoad s :=
  acceptRing_ready _ (by simp [hc]) hi (by simp)

/-- r3 with its answer, from a state that held nothing on port C before (R131, R142). -/
theorem removeCount_answers {s : State} {r : Ring} {g : CStage} (v : Byte) (hc : s.cBusy = none)
    (ho : r.overrun = false) (hbyte : 0 < r.count.toNat) :
    removeCount v { s with ring := r, cBusy := some g } = .next { s with
      ring := { r with count := BitVec.ofNat 16 (r.count.toNat - 1) }
      cAnswers := ⟨.ok, v.setWidth 32⟩ :: s.cAnswers } := by
  rw [removeCount_sound v ho hbyte, ofNat_count_sub_one hbyte, State.answer, ← hc]
  rfl

/-- Settles O14: r1 on acceptance, then r2 and r3. -/
theorem removeRunsItsMicroSteps : Obligations.RemoveRunsItsMicroSteps := by
  intro s hc hi ho hbyte hout v r2 r3
  exact ⟨(execRbRemove_ready hc hi).trans (removeLoad_sound ho hbyte hout), removeAdvance_sound v ho,
    removeCount_answers v hc ho hbyte⟩

/-! ## RB_PUSH -/

/-- p0 chooses by the count (R145). -/
theorem execRbPush_sound {s : State} (b : Byte) (hp : s.pBusy = none) (hn : s.initRunning = false)
    (hi : s.ring.inited = true) (ho : s.ring.overrun = false) :
    execRbPush b s = .next (s.holdP (if s.full then .p1 b else .i1 b)) :=
  (acceptRing_ready _ (by simp [hp]) hi fun _ => hn).trans (if_neg (by simp [ho]))

/-- i1 does not read what port P has latched. -/
theorem insertStore_holdP (b : Byte) (s : State) (g : PStage) : insertStore b (s.holdP g) = insertStore b s := rfl

/-- Settles O15: with room p0 leads to i1, which is RB_INSERT's own. -/
theorem pushWithRoomIsAnInsert : Obligations.PushWithRoomIsAnInsert := by
  intro s b hp hn hi ho hroom hin
  obtain ⟨m, -, h1, h2, h3⟩ := insertRunsItsMicroSteps s b hp hn hi ho hroom hin
  have hstore := (execRbInsert_ready b hp hn hi).symm.trans h1
  have hdrive := (driveP_succ 1 rfl h2).trans (driveP_succ 0 rfl h3)
  refine ⟨(execRbPush_sound b hp hn hi ho).trans (by rw [State.full_eq_false.mpr hroom]; rfl), _,
    (driveP_succ (g := .i1 b) 2 rfl ((insertStore_holdP b s (.i1 b)).trans hstore)).trans hdrive, ?_, hp, rfl⟩
  rw [h1]
  exact hdrive

/-- Settles O16: without room p0 leads to p1. -/
theorem pushWithoutRoomDrops : Obligations.PushWithoutRoomDrops := by
  intro s b hp hn hi ho hfull
  refine ⟨(execRbPush_sound b hp hn hi ho).trans (by rw [State.full_eq_true.mpr hfull]; rfl), ?_⟩
  rw [microP, pushDrop, State.answer, ← hp]
  rfl

/-! ## After a RingOverrun -/

section Overrun

variable {s : State}

/-- i1 on a full ring stores all the same, and records the fault (R140). -/
theorem insertStore_full (b : Byte) (hin : s.ring.inCur.toNat < s.par.ringSize)
    (hfull : s.par.ringSize ≤ s.ring.count.toNat) : insertStore b s = .next { s with
      ring := { s.ring with mem := Memory.set s.ring.mem s.ring.inCur.toNat b, overrun := true }
      pBusy := some (.i2 b), runFaulted := true } := by
  rw [insertStore, if_neg (by omega), State.full_eq_true.mpr hfull, State.noteOverrun, Bool.or_true, Bool.or_true]
  rfl

/-- i3 then leaves some count. -/
theorem insertCount_overrun {r : Ring} {g : PStage} (hp : s.pBusy = none) (ho : r.overrun = true) :
    insertCount { s with ring := r, pBusy := some g, runFaulted := true } = .next { s with
      ring := { r with count := freeWord16 s.draws }, runFaulted := true, draws := s.draws + 1
      pAnswers := ⟨.ok, 0#32⟩ :: s.pAnswers } := by
  rw [insertCount, if_pos ho, State.answer, ← hp]
  rfl

/-- p0 then takes some branch. -/
theorem execRbPush_overrun (b : Byte) (hp : s.pBusy = none) (hn : s.initRunning = false) (hi : s.ring.inited = true)
    (ho : s.ring.overrun = true) :
    execRbPush b s = .next ((s.drew 1).holdP (if freeBit s.draws then .p1 b else .i1 b)) :=
  (acceptRing_ready _ (by simp [hp]) hi fun _ => hn).trans (if_pos ho)

theorem removeLoad_overrun (ho : s.ring.overrun = true) :
    removeLoad s = .next ((s.drew 1).holdC (.r2 (freeByte s.draws))) := if_pos ho

theorem removeAdvance_overrun (v : Byte) (ho : s.ring.overrun = true) : removeAdvance v s =
    .next (((s.withRing { s.ring with outCur := freeCursor s.par s.draws }).drew 1).holdC (.r3 v)) := if_pos ho

theorem removeCount_overrun (v : Byte) (ho : s.ring.overrun = true) : removeCount v s =
    .next ((((s.withRing { s.ring with count := freeWord16 s.draws }).drew 1).drew 1).answer .c .ok
      (freeValue (s.draws + 1) 8)) :=
  (if_pos ho).trans (congrArg _ (State.answerRing_overrun .c 8 _ ho))

/-- A remove then runs to its answer, with some byte, some cursor and some count. -/
theorem execRbRemove_driven_overrun (hc : s.cBusy = none) (hi : s.ring.inited = true) (ho : s.ring.overrun = true) :
    thenDo (execRbRemove s) (driveC 2) = .next { s with
      ring := { s.ring with outCur := freeCursor s.par (s.draws + 1), count := freeWord16 (s.draws + 2) }
      draws := s.draws + 4, cAnswers := ⟨.ok, freeValue (s.draws + 3) 8⟩ :: s.cAnswers } := by
  rw [execRbRemove_ready hc hi, removeLoad_overrun ho, thenDo,
    driveC_succ (g := .r2 (freeByte s.draws)) 1 rfl (removeAdvance_overrun _ ?_),
    driveC_succ (g := .r3 (freeByte s.draws)) 0 rfl (removeCount_overrun _ ?_), driveC, State.answer, ← hc]
  · rfl
  all_goals exact ho

theorem execRbRemove_empty (hc : s.cBusy = none) (hi : s.ring.inited = true) (ho : s.ring.overrun = false)
    (hempty : s.ring.count = 0#16) : execRbRemove s = .fault .ringUnderrun := by
  rw [execRbRemove_ready hc hi, removeLoad, if_neg (by simp [ho]), if_pos (State.empty_eq_true.mpr hempty)]

end Overrun

/-- Settles O17: what a result then is, is the draw that the model takes for it. -/
theorem violatedPreconditionsFault : Obligations.ViolatedPreconditionsFault := by
  intro s b hi
  refine ⟨fun hp hn hfull hin => ?_, fun ho hp hn => ⟨?_, ?_⟩, fun ho hc => ⟨?_, ?_⟩,
    fun ho hc => execRbRemove_empty hc hi ho⟩
  · exact ⟨_, _, Memory.get_set_eq_ite s.ring.mem _ b,
      (execRbInsert_ready b hp hn hi).trans (insertStore_full b hin hfull), rfl, insertCount_overrun hp rfl⟩
  · have query (w : Nat) (v : Value) := ringQuery_p_overrun w v hi hp hn ho
    simp only [List.forall_mem_cons]
    exact ⟨⟨_, freeValue_lt .., query 16 _⟩, ⟨_, freeValue_lt .., query 1 _⟩, ⟨_, freeValue_lt .., query 1 _⟩, nofun⟩
  · have hpush := execRbPush_overrun b hp hn hi ho
    cases hbit : freeBit s.draws <;> rw [hbit] at hpush
    · exact .inr hpush
    · exact .inl hpush
  · have query (w : Nat) (v : Value) := ringQuery_c_overrun w v hi hc ho
    simp only [List.forall_mem_cons]
    exact ⟨⟨_, freeValue_lt .., query 16 _⟩, ⟨_, freeValue_lt .., query 1 _⟩, ⟨_, freeValue_lt .., query 1 _⟩, nofun⟩
  · exact ⟨_, _, _, _, execRbRemove_driven_overrun hc hi ho, freeValue_lt .., rfl⟩

end Sys2Proof.Machine
end

section
/-! SUPPORT. Whole inserts and removes (40_ring_buffer.md R147), and an insert and a remove in progress at once (R139,
R142, 20_memory.md R74). -/

namespace Sys2Proof.Machine

/-! ## First in, first out -/

/-- An initialised ring between commands, no RingOverrun recorded. -/
structure State.RingAtRest (s : State) : Prop where
  invariant : s.RingInvariant
  inited : s.ring.inited = true
  sound : s.ring.overrun = false
  pIdle : s.pBusy = none
  cIdle : s.cBusy = none

/-- An insert that finds room appends its byte. -/
theorem State.RingAtRest.insert_driven {s : State} (h : s.RingAtRest) (b : Byte)
    (hroom : s.content.length < s.par.ringSize) :
    ∃ t, thenDo (exec (.rbInsert b) s) (driveP 2) = .next t ∧ t.RingAtRest ∧ t.par = s.par
      ∧ t.content = s.content ++ [b] ∧ t.cAnswers = s.cAnswers := by
  obtain ⟨hI, hi, ho, hp, hc⟩ := h
  have hn := State.initRunning_idle hc
  rw [State.content_length] at hroom
  obtain ⟨m, -, h1, h2, h3⟩ := insertRunsItsMicroSteps s b hp hn hi ho hroom hI.2.1.1
  have mstore := execRbInsert_move h1
  have madvance := microP_move rfl h2
  have mcount := microP_move rfl h3
  have hI1 := mstore.ringInvariant hI
  have hI2 := madvance.ringInvariant hI1
  have c1 := mstore.content_of_count_eq hI hi hn ho rfl
  have c2 := madvance.content_of_count_eq hI1 hi hn ho rfl
  have c3 := (mcount.insert_answered hI2 rfl hp ho).1
  refine ⟨_, ?_, ⟨mcount.ringInvariant hI2, hi, ho, hp, hc⟩, rfl, by rw [c3, c2, c1], rfl⟩
  rw [h1]
  exact (driveP_succ 1 rfl h2).trans (driveP_succ 0 rfl h3)

/-- A remove that finds a byte takes the oldest and answers it. -/
theorem State.RingAtRest.remove_driven {s : State} (h : s.RingAtRest) {v : Byte} {l : List Byte}
    (hcontent : s.content = v :: l) :
    ∃ t, thenDo (exec .rbRemove s) (driveC 2) = .next t ∧ t.RingAtRest ∧ t.content = l
      ∧ t.cAnswers = ⟨.ok, v.setWidth 32⟩ :: s.cAnswers := by
  obtain ⟨hI, hi, ho, hp, hc⟩ := h
  have hn := State.initRunning_idle hc
  have hbyte : 0 < s.ring.count.toNat := by simp [← State.content_length, hcontent]
  obtain ⟨h1, h2, h3⟩ := removeRunsItsMicroSteps s hc hi ho hbyte hI.2.1.2
  have mload := execRbRemove_move h1
  have madvance := microC_move rfl h2
  have mcount := microC_move rfl h3
  have hI1 := mload.ringInvariant hI
  have hI2 := madvance.ringInvariant hI1
  have c1 := mload.content_of_count_eq hI hi hn ho rfl
  have c2 := madvance.content_of_count_eq hI1 hi rfl ho rfl
  have c3 := (hI2.remove_answered rfl h3 ho).1
  rw [c2, c1, hcontent] at c3
  obtain ⟨hv, hl⟩ := List.cons.inj c3
  refine ⟨_, ?_, ⟨mcount.ringInvariant hI2, hi, ho, hp, hc⟩, hl.symm, by rw [hv]⟩
  rw [h1]
  exact (driveC_succ 1 rfl h2).trans (driveC_succ 0 rfl h3)

/-- Inserts that find room append their bytes in order. -/
theorem State.RingAtRest.insertAll {s : State} (h : s.RingAtRest) (bs : List Byte)
    (hroom : s.content.length + bs.length ≤ s.par.ringSize) :
    ∃ t, Machine.insertAll bs s = .next t ∧ t.RingAtRest ∧ t.content = s.content ++ bs ∧ t.cAnswers = s.cAnswers := by
  induction bs generalizing s with
  | nil => exact ⟨s, rfl, h, by simp, rfl⟩
  | cons b bs ih =>
    rw [List.length_cons] at hroom
    obtain ⟨s1, hrun, h1, hpar, hcontent, hans⟩ := h.insert_driven b (by omega)
    have hroom1 : s1.content.length + bs.length ≤ s1.par.ringSize := by
      rw [hpar, hcontent, List.length_append, List.length_singleton]
      omega
    obtain ⟨t, hall, ht, hcontent', hans'⟩ := ih h1 hroom1
    refine ⟨t, ?_, ht, by rw [hcontent', hcontent, List.append_assoc]; rfl, hans'.trans hans⟩
    rw [Machine.insertAll, hrun]
    exact hall

/-- As many removes as there are bytes answer them in order. -/
theorem State.RingAtRest.removeAll {s : State} (h : s.RingAtRest) {l : List Byte} (hcontent : s.content = l) :
    ∃ u, Machine.removeAll l.length s = .next u ∧ u.content = []
      ∧ u.cAnswers = (l.map (fun b => (⟨.ok, b.setWidth 32⟩ : Response))).reverse ++ s.cAnswers := by
  induction l generalizing s with
  | nil => exact ⟨s, rfl, hcontent, by simp⟩
  | cons v l ih =>
    obtain ⟨s1, hrun, h1, hcontent1, hans⟩ := h.remove_driven hcontent
    obtain ⟨u, hall, hempty, hans'⟩ := ih h1 hcontent1
    refine ⟨u, ?_, hempty, by rw [hans', hans]; simp⟩
    rw [List.length_cons, Machine.removeAll, hrun]
    exact hall

/-- Settles O22: the inserts make the bytes the content, and the removes answer the content. -/
theorem insertsThenRemovesReturnInOrder : Obligations.InsertsThenRemovesReturnInOrder := by
  intro s bs hI hi ho hp hc hcount hlen
  have hempty : s.content = [] := List.eq_nil_of_length_eq_zero (by simp [hcount])
  obtain ⟨t, hins, ht, hcontent, hans⟩ :=
    State.RingAtRest.insertAll ⟨hI, hi, ho, hp, hc⟩ bs (by simpa [hcount] using hlen)
  rw [hempty, List.nil_append] at hcontent
  obtain ⟨u, hrem, hu, hans'⟩ := ht.removeAll hcontent
  refine ⟨t, u, hins, hrem, by rw [hans', hans], BitVec.eq_of_toNat_eq ?_⟩
  rw [← State.content_length, hu]
  rfl

/-! ## A concurrent insert and remove -/

/-- The next micro-step of an insert in progress, where no RingOverrun is recorded. -/
def State.insertStep (s : State) : PStage → State
  | .i1 b => (s.withRing { s.ring with mem := Memory.set s.ring.mem s.ring.inCur.toNat b }).holdP (.i2 b)
  | .i2 b => (s.withRing { s.ring with inCur := nextCursor s.par s.ring.inCur }).holdP (.i3 b)
  | .i3 _ => (s.withRing { s.ring with count := s.ring.count + 1#16 }).answer .p .ok 0#32
  | .p1 _ => s

/-- The next micro-step of a remove in progress, where no RingOverrun is recorded. -/
def State.removeStep (s : State) : CStage → State
  | .r2 v => (s.withRing { s.ring with outCur := nextCursor s.par s.ring.outCur }).holdC (.r3 v)
  | .r3 v => (s.withRing { s.ring with count := s.ring.count - 1#16 }).answer .c .ok (v.setWidth 32)
  | .n2 | .n3 | .n4 => s

@[simp] theorem State.insertStep_cBusy (s : State) (g : PStage) : (s.insertStep g).cBusy = s.cBusy := by
  cases g <;> rfl

@[simp] theorem State.insertStep_overrun (s : State) (g : PStage) :
    (s.insertStep g).ring.overrun = s.ring.overrun := by
  cases g <;> rfl

@[simp] theorem State.removeStep_pBusy (s : State) (h : CStage) : (s.removeStep h).pBusy = s.pBusy := by
  cases h <;> rfl

@[simp] theorem State.removeStep_overrun (s : State) (h : CStage) :
    (s.removeStep h).ring.overrun = s.ring.overrun := by
  cases h <;> rfl

section Steps

variable {s : State} (hI : s.RingInvariant) (ho : s.ring.overrun = false)
include hI ho

theorem microP_eq_insertStep {g : PStage} (hp : s.pBusy = some g) (hins : s.inserting = true) :
    microP g s = .next (s.insertStep g) := by
  obtain ⟨-, ⟨hin, -⟩, -, -, -, hS, -⟩ := hI
  cases g with
  | i1 b => exact insertStore_room b hin ((hS ho).room hins)
  | i2 b => rfl
  | i3 b => exact insertCount_sound ho
  | p1 b => simp [State.inserting, hp] at hins

theorem microC_eq_removeStep {g : CStage} (hc : s.cBusy = some g) (hrem : s.removing = true) :
    microC g s = .next (s.removeStep g) := by
  obtain ⟨-, -, -, -, -, hS, -⟩ := hI
  cases g with
  | r2 v => exact removeAdvance_sound v ho
  | r3 v => exact removeCount_sound v ho ((hS ho).byte hrem)
  | n2 | n3 | n4 => simp [State.removing, hc] at hrem

end Steps

/-- The two steps write different registers, and the count by adding and subtracting one. -/
theorem State.insertStep_removeStep_comm (s : State) (g : PStage) (h : CStage) :
    (s.insertStep g).removeStep h = (s.removeStep h).insertStep g := by
  cases g <;> cases h
  case i3.r3 b v =>
    have hcount : s.ring.count + 1#16 - 1#16 = s.ring.count - 1#16 + 1#16 := by bv_omega
    simp only [State.insertStep, State.removeStep, State.answer, State.withRing, hcount]
  all_goals rfl

/-- Settles O24: the invariant holds between the two micro-steps, so each is its step in either order. -/
theorem insertAndRemoveCommute : Obligations.InsertAndRemoveCommute := by
  intro s g h hI ho hp hc hins hrem
  have hP := microP_eq_insertStep hI ho hp hins
  have hC := microC_eq_removeStep hI ho hc hrem
  have hIP := (microP_move hp hP).ringInvariant hI
  have hIC := (microC_move hc hC).ringInvariant hI
  refine ⟨(s.insertStep g).removeStep h, ?_, ?_⟩
  · rw [hP]
    exact microC_eq_removeStep hIP (by simp [ho]) (by simp [hc]) (by simpa [State.removing] using hrem)
  · rw [hC, State.insertStep_removeStep_comm]
    exact microP_eq_insertStep hIC (by simp [ho]) (by simp [hp]) (by simpa [State.inserting] using hins)

end Sys2Proof.Machine
end

section
/-! SUPPORT. The CRC engine (41_crc.md): the fold, one CRC_APPEND, and CRC_APPEND chained over a list. -/

namespace Sys2Proof.Machine

/-! ## The fold -/

@[simp] theorem crcFoldFrom_nil (q : Params) (c : Word16) : crcFoldFrom q c [] = c := rfl

@[simp] theorem crcFoldFrom_cons (q : Params) (c : Word16) (b : Byte) (l : List Byte) :
    crcFoldFrom q c (b :: l) = crcFoldFrom q (crcStep q b c) l := rfl

/-- The fold of two lists joined goes on from the fold of the first. -/
theorem crcFold_append (q : Params) (l l' : List Byte) : crcFold q (l ++ l') = crcFoldFrom q (crcFold q l) l' :=
  crcFoldFrom_append q 0#16 l l'

/-- Settles O29: one more byte at the end is a joined list of one byte. -/
theorem crcFoldIsIncremental : Obligations.CrcFoldIsIncremental := by
  intro q l1 l2 b c
  have hsnoc : crcFold q (l1 ++ [b]) = crcStep q b (crcFold q l1) := by
    rw [crcFold_append, crcFoldFrom_cons, crcFoldFrom_nil]
  exact ⟨rfl, hsnoc, rfl, rfl, rfl, crcFold_append q l1 l2, rfl⟩

/-! ## One CRC_APPEND -/

/-- CRC_APPEND answers one step of the fold and writes nothing else (R163). -/
theorem exec_crcAppend {s : State} (b : Byte) (c : Word16) (h : s.cBusy = none) :
    exec (.crcAppend b c) s
      = .next { s with cAnswers := ⟨.ok, (crcStep s.par b c).setWidth 32⟩ :: s.cAnswers } := by
  rw [← State.answer_c_of_idle _ _ h]
  exact accept_idle _ (by simp [h])

/-- Settles O28: the answer's value is CRC_STEP, whichever the parameter is. -/
theorem crcAppendAnswersOneStep : Obligations.CrcAppendAnswersOneStep :=
  ⟨fun _ _ _ => rfl, by decide, fun _ b c h => exec_crcAppend b c h⟩

/-! ## CRC_APPEND chained -/

/-- The low half of a zero-extended answer is the accumulator, so the chain goes on from the step's result. -/
theorem appendEach_cons {s : State} (b : Byte) (bs : List Byte) (c : Word16) (h : s.cBusy = none) :
    appendEach (b :: bs) c s
      = appendEach bs (crcStep s.par b c)
          { s with cAnswers := ⟨.ok, (crcStep s.par b c).setWidth 32⟩ :: s.cAnswers } := by
  have hlow : ((crcStep s.par b c).setWidth 32).setWidth 16 = crcStep s.par b c := by
    rw [BitVec.setWidth_setWidth_of_le _ (by decide), BitVec.setWidth_eq]
  rw [appendEach, exec_crcAppend b c h]
  exact congrArg (appendEach bs · _) hlow

/-- From any accumulator, the chain's last answer is the fold from there. -/
theorem appendEach_answers_crcFoldFrom {s : State} (b : Byte) (bs : List Byte) (c : Word16) (h : s.cBusy = none) :
    ∃ rest, appendEach (b :: bs) c s
      = .next { s with cAnswers := ⟨.ok, (crcFoldFrom s.par c (b :: bs)).setWidth 32⟩ :: rest } := by
  induction bs generalizing s b c with
  | nil => exact ⟨s.cAnswers, appendEach_cons b [] c h⟩
  | cons b' bs ih =>
    rw [appendEach_cons b (b' :: bs) c h]
    exact ih b' _ h

/-- Settles O30: the chain from accumulator 0. -/
theorem chainedAppendsGiveTheFold : Obligations.ChainedAppendsGiveTheFold := by
  intro s bs hc hbs
  obtain ⟨b, l, rfl⟩ := List.exists_cons_of_ne_nil hbs
  obtain ⟨rest, hrun⟩ := appendEach_answers_crcFoldFrom b l 0#16 hc
  exact ⟨_, rest, hrun, rfl, rfl⟩

end Sys2Proof.Machine
end

section
/-! SUPPORT. The encoder (42_encode.md): ENC's answers before it touches memory (R172, R173), the frame it writes (R174
to R176) or the overflow it ends in (R177), and what delimits a frame (R180). -/

namespace Sys2Proof.Machine

/-! ## Failed encodes -/

/-- With port C idle a failed encode writes the encoder's two registers and the answer (R171). -/
theorem State.encFail_of_idle {s : State} (e : Status) (h : s.cBusy = none) :
    s.encFail e = { s with enc := ⟨e, 0#16⟩, cAnswers := ⟨e, 0#32⟩ :: s.cAnswers } :=
  State.answer_c_of_idle (s := s.withEnc ⟨e, 0#16⟩) e 0#32 h

/-- The addresses that R95 does not list. -/
theorem validAddr_eq_false {addr : Byte} :
    validAddr addr = false ↔ ¬((1 ≤ addr.toNat ∧ addr.toNat ≤ 11) ∨ addr.toNat = 56) := by
  rw [← Bool.not_eq_true]
  simp [validAddr]

/-- Settles O31: ENC's first test is for a null pointer, its second for the address. -/
theorem encRejectsNullThenBadAddress : Obligations.EncRejectsNullThenBadAddress := by
  intro s dst dcap addr pay plen hc
  have hexec : exec (.enc dst dcap addr pay plen) s = _ := accept_idle _ (by simp [hc])
  rw [← State.encFail_of_idle _ hc, ← State.encFail_of_idle _ hc]
  refine ⟨fun hnull => hexec.trans (if_pos hnull), fun hgiven hbad => hexec.trans ?_⟩
  rw [if_neg (not_or.mpr hgiven), if_pos (validAddr_eq_false.mpr hbad)]

/-! ## The frame written, or OVERFLOW -/

/-- The frame that ENC sends: of the address, the payload in BM and its CRC (R175, R176). -/
def State.encodedFrame (s : State) (addr : Byte) (pay plen : Nat) : List Byte :=
  frameOf addr (bodyOf s.par addr (s.bmReads pay plen))

/-- It is the frame of the bytes that the emitter reads back after step 3. -/
theorem State.frameOf_appendCrc (s : State) (addr : Byte) (pay plen : Nat) :
    frameOf addr ((s.appendCrc addr pay plen).bmReads pay (plen + 2)) = s.encodedFrame addr pay plen := by
  rw [State.bmReads_appendCrc]
  rfl

/-- ENC past its guard encodes (R171). -/
theorem execEnc_encodes {s : State} {dst : Ptr} {dcap : Word16} {addr : Byte} {pay : Ptr} {plen : Word16}
    (hc : s.cBusy = none) (hv : validAddr addr = true)
    (hd : regionLegal s.par.addrWidth dst.toNat dcap.toNat = true)
    (hp : regionLegal s.par.addrWidth pay.toNat (plen.toNat + 2) = true)
    (hm : regionsMeet dst.toNat dcap.toNat pay.toNat (plen.toNat + 2) = false)
    (hl : ¬(s.dec.live = true ∧ regionsMeet s.dec.buf.toNat s.dec.cap.toNat (pay.toNat + plen.toNat) 2 = true)) :
    exec (.enc dst dcap addr pay plen) s = .next (s.encFrame dst.toNat dcap.toNat addr pay.toNat plen.toNat) := by
  have given {p : Ptr} {n : Nat} (h : regionLegal s.par.addrWidth p.toNat n = true) : p ≠ 0#32 := by
    rintro rfl
    exact (regionLegal_iff.mp h).1 rfl
  refine (execEnc_guarded dcap plen hc (given hd) (given hp) hv).trans ?_
  rw [if_neg (by simp [hd, hp]), if_neg (by simp [hm]), if_neg hl]

section Encode

variable {s : State} {dst dcap pay plen : Nat} {addr : Byte}

/-- An encode whose frame fits, as one next state (R176). -/
theorem State.encFrame_of_fits (hc : s.cBusy = none) (hfits : (s.encodedFrame addr pay plen).length ≤ dcap) :
    s.encFrame dst dcap addr pay plen = { s with
      bm := (emitAll (s.appendCrc addr pay plen).bm dst dcap 0 (s.encodedFrame addr pay plen)).1
      enc := ⟨.ok, BitVec.ofNat 16 (s.encodedFrame addr pay plen).length⟩
      cAnswers := ⟨.ok, BitVec.ofNat 32 (s.encodedFrame addr pay plen).length⟩ :: s.cAnswers } := by
  have hcases := s.encFrame_cases dst dcap addr pay plen
  simp only [State.frameOf_appendCrc] at hcases
  obtain ⟨-, h⟩ | ⟨hlong, -⟩ := hcases
  · rw [h]
    exact State.answer_c_of_idle _ _ hc
  · omega

/-- An encode whose frame is too long, as one next state (R177, 93 U13). -/
theorem State.encFrame_of_exceeds (hc : s.cBusy = none) (hlong : dcap < (s.encodedFrame addr pay plen).length) :
    s.encFrame dst dcap addr pay plen = { s with
      bm := Memory.setFree (emitAll (s.appendCrc addr pay plen).bm dst dcap 0 (s.encodedFrame addr pay plen)).1 dst dcap
        s.draws
      draws := s.draws + dcap
      enc := ⟨.overflow, 0#16⟩
      cAnswers := ⟨.overflow, 0#32⟩ :: s.cAnswers } := by
  have hcases := s.encFrame_cases dst dcap addr pay plen
  simp only [State.frameOf_appendCrc] at hcases
  obtain ⟨hfits, -⟩ | ⟨-, h⟩ := hcases
  · omega
  · rw [h]
    exact State.encFail_of_idle _ hc

/-- The frame of an encode that fits stands at the destination (R176). -/
theorem State.bmReads_encFrame (hfits : (s.encodedFrame addr pay plen).length ≤ dcap) {t : State}
    (ht : t.bm = (emitAll (s.appendCrc addr pay plen).bm dst dcap 0 (s.encodedFrame addr pay plen)).1) :
    t.bmReads dst (s.encodedFrame addr pay plen).length = s.encodedFrame addr pay plen := by
  refine State.bmReads_eq_of_get fun i hi => ?_
  have hget := emitAll_get (m := (s.appendCrc addr pay plen).bm) (dst := dst) (dcap := dcap) (k := 0) (by omega) i hi
  rw [State.bmRead, ht]
  exact congrArg (Option.getD · _) hget

/-- What BM holds where it is as step 3 left it but for `n` bytes of a destination that keeps clear of the payload
storage (R174). -/
theorem State.bmRead_of_appendCrc_outside {t : State} {n : Nat} (hn : n ≤ dcap)
    (hm : regionsMeet dst dcap pay (plen + 2) = false)
    (hout : ∀ a, ¬(dst ≤ a ∧ a < dst + n) → t.bmRead a = (s.appendCrc addr pay plen).bmRead a) :
    t.bmRead (pay + plen) = hiByte (crcFold s.par (addr :: s.bmReads pay plen))
      ∧ t.bmRead (pay + plen + 1) = loByte (crcFold s.par (addr :: s.bmReads pay plen))
      ∧ ∀ a, ¬(dst ≤ a ∧ a < dst + n) → a ≠ pay + plen → a ≠ pay + plen + 1 → t.bmRead a = s.bmRead a := by
  have hapart (a : Nat) (hpay : pay ≤ a ∧ a < pay + (plen + 2)) : ¬(dst ≤ a ∧ a < dst + n) := by
    intro ⟨hle, hlt⟩
    have hmeet : regionsMeet dst dcap pay (plen + 2) = true := regionsMeet_iff.mpr ⟨a, ⟨hle, by omega⟩, hpay⟩
    simp [hm] at hmeet
  refine ⟨?_, ?_, fun a hdst hhi hlo => ?_⟩
  · rw [hout _ (hapart _ (by omega)), State.bmRead_appendCrc, if_neg (by omega), if_pos rfl]
  · rw [hout _ (hapart _ (by omega)), State.bmRead_appendCrc, if_pos rfl]
  · rw [hout a hdst, State.bmRead_appendCrc, if_neg (Ne.symm hlo), if_neg (Ne.symm hhi)]

end Encode

/-- Settles O32: the emissions of a frame that fits leave it at the destination and touch nothing past its end. -/
theorem encWritesTheFrame : Obligations.EncWritesTheFrame := by
  intro s dst dcap addr pay plen hc hv hd hp hm hl P c F hfits
  have hlen := (frameLengthCountsEscapes s.par addr P).1
  rw [State.length_bmReads] at hlen
  refine ⟨_, execEnc_encodes hc hv hd hp hm hl, by omega, hlen, ?_⟩
  rw [State.encFrame_of_fits hc hfits]
  refine ⟨rfl, State.bmReads_encFrame hfits rfl, State.bmRead_of_appendCrc_outside hfits hm fun a ha => ?_⟩
  exact State.bmRead_congr (emitAll_get_past ha)

/-- Settles O33: neither the emissions nor the free bytes leave the destination region. -/
theorem encOverflowsPastTheCapacity : Obligations.EncOverflowsPastTheCapacity := by
  intro s dst dcap addr pay plen hc hv hd hp hm hl P c F hlong
  refine ⟨_, execEnc_encodes hc hv hd hp hm hl, ?_⟩
  rw [State.encFrame_of_exceeds hc hlong]
  refine ⟨rfl, State.bmRead_of_appendCrc_outside (Nat.le_refl _) hm fun a ha => ?_⟩
  exact State.bmRead_congr ((Memory.get_setFree_outside _ _ _ _ _ ha).trans (emitAll_get_outside ha))

/-! ## What delimits a frame -/

/-- Is every FESC in the list followed by TFEND or TFESC (R93, R180)? -/
def EscapesComplete (l : List Byte) : Prop :=
  ∀ i, l[i]? = some fesc → l[i + 1]? = some tfend ∨ l[i + 1]? = some tfesc

theorem EscapesComplete.nil : EscapesComplete [] := fun i h => by simp at h

theorem EscapesComplete.cons {b : Byte} {l : List Byte} (hb : b ≠ fesc) (hl : EscapesComplete l) :
    EscapesComplete (b :: l) := by
  intro i h
  cases i with
  | zero => exact absurd (by simpa using h) hb
  | succ i => exact hl i h

theorem EscapesComplete.pair {x : Byte} {l : List Byte} (hx : x = tfend ∨ x = tfesc) (hl : EscapesComplete l) :
    EscapesComplete (fesc :: x :: l) := by
  have hxl : EscapesComplete (x :: l) := .cons (by rcases hx with rfl | rfl <;> decide) hl
  intro i h
  cases i with
  | zero => simpa using hx
  | succ i => exact hxl i h

/-- Escaping puts FESC only before TFEND and TFESC. -/
theorem EscapesComplete.escAll_append (body : List Byte) {l : List Byte} (hl : EscapesComplete l) :
    EscapesComplete (escAll body ++ l) := by
  induction body with
  | nil => exact hl
  | cons b body ih =>
    rw [escAll_cons, List.append_assoc]
    obtain ⟨-, h⟩ | ⟨-, h⟩ | ⟨-, hb, h⟩ := esc_cases b <;> rw [h]
    · exact .pair (.inl rfl) ih
    · exact .pair (.inr rfl) ih
    · exact .cons hb ih

/-- A valid address needs no escape (R95). -/
theorem validAddr_not_escaped {addr : Byte} (h : validAddr addr = true) : addr ≠ fend ∧ addr ≠ fesc :=
  ⟨fun he => absurd (he ▸ h) (by decide), fun he => absurd (he ▸ h) (by decide)⟩

/-- Settles O35: a valid address is neither FEND nor FESC, and escaping leaves no FEND and no lone FESC. -/
theorem framesAreDelimited : Obligations.FramesAreDelimited := by
  intro addr body hv
  obtain ⟨hend, hesc⟩ := validAddr_not_escaped hv
  have hcount : (escAll body).count fend = 0 := List.count_eq_zero.mpr (fend_not_mem_escAll body)
  have hescapes : EscapesComplete (frameOf addr body) :=
    .cons (by decide) (.cons hesc (.escAll_append body (.cons (by decide) .nil)))
  refine ⟨?_, rfl, List.getLast?_concat, hescapes⟩
  show (frameOf addr body).count fend = 2
  simp [frameOf, hcount, hend]

end Sys2Proof.Machine
end

section
/-! SUPPORT. The decoder's rows run (43_decode.md R192 to R211): what each answers from a state that selects it, and
DEC_BYTE as the row it selects. -/

namespace Sys2Proof.Machine

/-! ## How a row runs -/

/-- With port C idle an accepted byte writes the decoder and the answer (R195). -/
theorem State.decOk_of_idle {s : State} (d : Decoder) (h : s.cBusy = none) :
    s.decOk d = { s with
      dec := { d with status := .ok, statusSet := true }
      cAnswers := ⟨.ok, 0#32⟩ :: s.cAnswers } :=
  State.answer_c_of_idle (s := s.withDec { d with status := .ok, statusSet := true }) .ok 0#32 h

/-- With port C idle `raise` writes the decoder and the answer (R196). -/
theorem State.decRaise_of_idle {s : State} (e : Status) (h : s.cBusy = none) :
    s.decRaise e = { s with
      dec := { s.dec with state := .idle, idx := 0#16, status := e, statusSet := true }
      cAnswers := ⟨e, 0#32⟩ :: s.cAnswers } :=
  State.answer_c_of_idle
    (s := s.withDec { s.dec with state := .idle, idx := 0#16, status := e, statusSet := true }) e 0#32 h

section Rows

variable {s : State} {st : DecState} {sel : Bool} (k : Result)

/-- To a ready decoder a row of its state and byte runs (R195). -/
theorem State.DecReady.selected (h : s.DecReady) (hs : s.dec.state = st) (hsel : sel = true) : onRow st sel s k = k :=
  onRow_ready k h.1 h.2.1 h.2.2 hs hsel

/-- To a ready decoder any other row is refused (log 16). -/
theorem State.DecReady.unselected (h : s.DecReady) (hsel : ¬(s.dec.state = st ∧ sel = true)) :
    onRow st sel s k = .refused .wireRowNotSelected := by
  obtain ⟨hc, hb, hr⟩ := h
  simp [onRow, accept, hc, hb, hr, hsel]

/-- No row runs on an unbound decoder (R195). -/
theorem onRow_unbound (hc : s.cBusy = none) (hb : s.dec.bound = false) :
    onRow st sel s k = .refused .decoderUnbound := by
  simp [onRow, accept, hc, hb]

end Rows

/-- A selected row that accepts its byte, as one next state (R195). -/
theorem State.DecReady.accepted {s : State} {st : DecState} {sel : Bool} {d : Decoder} (h : s.DecReady)
    (hs : s.dec.state = st) (hsel : sel = true) :
    onRow st sel s (.next (s.decOk d)) = .next { s with
      dec := { d with status := .ok, statusSet := true }
      cAnswers := ⟨.ok, 0#32⟩ :: s.cAnswers } :=
  (h.selected _ hs hsel).trans (congrArg _ (State.decOk_of_idle d h.1))

/-- A selected row that raises an error, as one next state (R196). -/
theorem State.DecReady.raised {s : State} {st : DecState} {sel : Bool} {e : Status} (h : s.DecReady)
    (hs : s.dec.state = st) (hsel : sel = true) :
    onRow st sel s (.next (s.decRaise e)) = .next { s with
      dec := { s.dec with state := .idle, idx := 0#16, status := e, statusSet := true }
      cAnswers := ⟨e, 0#32⟩ :: s.cAnswers } :=
  (h.selected _ hs hsel).trans (congrArg _ (State.decRaise_of_idle e h.1))

/-- Within the capacity a row that reads the body runs (R65). -/
theorem readingBody_of_le {s : State} (k : Result) (h : s.dec.idx.toNat ≤ s.dec.cap.toNat) : readingBody s k = k :=
  if_neg (by omega)

/-- An append below the capacity, as one next state (R197). -/
theorem State.decAppend_of_room {s : State} (x : Byte) (hc : s.cBusy = none)
    (hroom : s.dec.idx.toNat < s.dec.cap.toNat) :
    s.decAppend x = { s with
      bm := Memory.set s.bm (s.dec.buf.toNat + s.dec.idx.toNat) x
      dec := { s.dec with idx := s.dec.idx + 1#16, state := .receiving, status := .ok, statusSet := true }
      cAnswers := ⟨.ok, 0#32⟩ :: s.cAnswers } := by
  rw [State.decAppend, if_neg (by omega)]
  exact State.decOk_of_idle _ hc

/-- An append at the capacity (R197). -/
theorem State.decAppend_of_full {s : State} (x : Byte) (hfull : s.dec.cap.toNat ≤ s.dec.idx.toNat) :
    s.decAppend x = s.decRaise .overflow := if_pos hfull

/-! ## DEC_BYTE and the wire table -/

/-- An address byte runs the row that it selects (R99). -/
theorem exec_decodeAddress (b : Byte) (s : State) : exec (decodeAddress b) s = addressRow b s := by
  rw [addressRow_eq]
  split
  · next hv =>
    have hb := validAddr_iff.mp hv
    simp only [List.mem_cons, List.not_mem_nil, or_false] at hb
    obtain rfl | rfl | rfl | rfl | rfl | rfl | rfl | rfl | rfl | rfl | rfl | rfl := hb <;> rfl
  · next hv => rw [decodeAddress_of_invalid (by simpa using hv)]; rfl

/-- A FEND in Receiving runs the row of its condition (R202 to R205). -/
theorem exec_decodeWire_fend (s : State) : exec (decodeWire .receiving s.fendCase fend) s = fendRow s := by
  unfold fendRow
  generalize s.fendCase = fc
  cases fc <;> rfl

/-- DEC_BYTE runs the row that the state and the byte select (R195, R212). -/
theorem exec_decByte (b : Byte) (s : State) :
    exec (.decByte b) s = exec (decodeWire s.dec.state s.fendCase b) s := by
  show execDecByte b s = _
  unfold execDecByte
  generalize hst : s.dec.state = st
  cases st with
  | idle => exact (apply_ite (exec · s) (b = fend) .wIdleFend (.wIdleOther b)).symm
  | addressExpected => exact (exec_decodeAddress b s).symm
  | receiving =>
    by_cases hend : b = fend
    · subst hend
      exact (exec_decodeWire_fend s).symm
    · have hrow : decodeWire .receiving s.fendCase b = if b = fesc then .wRcvFesc else .wRcvData b := if_neg hend
      rw [hrow, apply_ite (exec · s)]
      exact if_neg hend
  | escaping =>
    by_cases hend : b = tfend
    · subst hend
      rfl
    · have hrow : decodeWire .escaping s.fendCase b = if b = tfesc then .wEscTfesc else .wEscBad b := if_neg hend
      rw [hrow, apply_ite (exec · s)]
      exact if_neg hend
  | terminated => rfl

/-- A wire row tests for its own state, a row of a FEND also for its condition, and past the test it answers where the
index is within the capacity (R99, R212). -/
theorem exec_wireRow {i : Instr} {st : DecState} (hst : i.wireState = some st) (hwf : i.WellFormed = true) (s : State) :
    ∃ sel k, exec i s = onRow st sel s k
      ∧ (sel = true ↔ i.fendCase = none ∨ i.fendCase = some s.fendCase)
      ∧ (s.dec.idx.toNat ≤ s.dec.cap.toNat → ∃ t, k = .next t) := by
  have fendTest (fc : FendCase) : (s.fendCase == fc) = true ↔ some fc = none ∨ some fc = some s.fendCase := by
    rw [beq_iff_eq, eq_comm]
    simp
  cases i <;> cases hst
  case wIdleOther | wAeAddrBad | wRcvData | wEscBad => exact ⟨_, _, rfl, iff_of_true hwf (.inl rfl), fun _ => ⟨_, rfl⟩⟩
  case wRcvFendResync | wRcvFendShort => exact ⟨_, _, rfl, fendTest _, fun _ => ⟨_, rfl⟩⟩
  case wRcvFendGood | wRcvFendBadcrc => exact ⟨_, _, rfl, fendTest _, fun hle => ⟨_, readingBody_of_le _ hle⟩⟩
  all_goals exact ⟨_, _, rfl, iff_of_true rfl (.inl rfl), fun _ => ⟨_, rfl⟩⟩

/-- Settles O45: a row that passes the test it begins with is one that some byte selects. -/
theorem decByteRunsItsRow : Obligations.DecByteRunsItsRow := by
  refine ⟨fun s b => exec_decByte b s, fun s i hready hw hwf hnone => ?_⟩
  obtain ⟨st, hst⟩ := Option.isSome_iff_exists.mp hw
  obtain ⟨sel, k, hrow, hfend, -⟩ := exec_wireRow hst hwf s
  refine hrow.trans (hready.unselected k fun ⟨hs, hsel⟩ => ?_)
  obtain ⟨b, -, hb⟩ := wireRow_selected hwf hst (hfend.mp hsel)
  exact hnone b (hs ▸ hb)

/-! ## DEC_INIT -/

/-- DEC_INIT on an idle port, its guards still to be decided (R192). -/
theorem exec_decInit {s : State} (buf : Ptr) (cap : Word16) (hc : s.cBusy = none) :
    exec (.decInit buf cap) s =
      if buf = 0#32 then .next s.decUnbind
      else if regionLegal s.par.addrWidth buf.toNat cap.toNat = false then .refused .illegalRegion
      else .next (s.decBind buf cap) :=
  accept_idle _ (by simp [hc])

/-- A pointer that is not null points elsewhere than to address 0. -/
theorem ptr_toNat_ne_zero {buf : Ptr} (h : buf ≠ 0#32) : buf.toNat ≠ 0 :=
  fun h0 => h (BitVec.eq_of_toNat_eq h0)

/-- Settles O37: past both guards DEC_INIT binds. -/
theorem decInitBinds : Obligations.DecInitBinds := by
  intro s buf cap hc hnull hlow hend
  have hlegal : regionLegal s.par.addrWidth buf.toNat cap.toNat = true :=
    regionLegal_iff.mpr ⟨ptr_toNat_ne_zero hnull, hlow, hend⟩
  rw [exec_decInit buf cap hc, if_neg hnull, if_neg (by simp [hlegal])]
  exact congrArg _ (State.decOk_of_idle _ hc)

/-- Whatever row DEC_BYTE selects, an unbound decoder refuses it (R195). -/
theorem exec_decByte_unbound {s : State} (b : Byte) (hc : s.cBusy = none) (hb : s.dec.bound = false) :
    exec (.decByte b) s = .refused .decoderUnbound := by
  obtain ⟨hwf, hst, -, -⟩ := decodeWire_row s.dec.state s.fendCase b
  obtain ⟨sel, k, hrow, -, -⟩ := exec_wireRow hst hwf s
  rw [exec_decByte, hrow, onRow_unbound k hc hb]

/-- Settles O38: each guard of DEC_INIT in turn, and the binding that every row asks for. -/
theorem decoderNeedsALegalBuffer : Obligations.DecoderNeedsALegalBuffer := by
  intro s hc
  refine ⟨fun cap => ?_, fun buf cap hnull hout => ?_, fun b hb => exec_decByte_unbound b hc hb⟩
  · rw [exec_decInit _ cap hc, if_pos rfl]
    exact congrArg _ (State.answer_c_of_idle (s := s.withDec _) _ _ hc)
  · have hillegal : regionLegal s.par.addrWidth buf.toNat cap.toNat = false := by
      rw [← Bool.not_eq_true, regionLegal_iff]
      omega
    rw [exec_decInit buf cap hc, if_neg hnull, if_pos hillegal]

/-! ## The rows, one by one -/

/-- Settles O39: the four rows, each selected as the wire table says. -/
theorem rowsThatMoveTheState : Obligations.RowsThatMoveTheState := by
  intro s b h
  refine ⟨fun hs => ⟨?_, h.accepted hs rfl⟩, fun hs hb => ⟨?_, h.accepted hs (bne_iff_ne.mpr hb)⟩,
    fun hs hz => ⟨?_, h.accepted hs (beq_iff_eq.mpr (State.fendCase_noBody.mpr hz))⟩,
    fun hs => ⟨?_, h.accepted hs rfl⟩⟩ <;> rw [exec_decByte, hs]
  · rfl
  · rw [decodeWire, if_neg (show b ≠ fend from hb)]
  · rw [State.fendCase_noBody.mpr hz]; rfl
  · rfl

/-- Settles O40: the twelve rows store the address that selects them. -/
theorem validAddressesAreStored : Obligations.ValidAddressesAreStored := by
  intro s h hs q hq
  have hstore : storeAddress q.2 s = .next { s with
      dec := { s.dec with addr := q.2, state := .receiving, status := .ok, statusSet := true, addrSet := true }
      cAnswers := ⟨.ok, 0#32⟩ :: s.cAnswers } :=
    h.accepted hs rfl
  have hrow : exec q.1 s = storeAddress q.2 s ∧ decodeAddress q.2 = q.1 := by
    simp only [List.mem_cons, List.not_mem_nil, or_false] at hq
    obtain rfl | rfl | rfl | rfl | rfl | rfl | rfl | rfl | rfl | rfl | rfl | rfl := hq <;> exact ⟨rfl, rfl⟩
  refine ⟨?_, hrow.1.trans hstore⟩
  rw [exec_decByte, hs, ← hrow.2]
  rfl

/-- Settles O41: each of the three rows raises its error. -/
theorem errorRowsReturnToIdle : Obligations.ErrorRowsReturnToIdle := by
  intro s b h
  refine ⟨fun hs hbad => h.raised hs ?_, fun hs hone => h.raised hs ?_, fun hs hfend hfesc => h.raised hs ?_⟩
  · simpa using validAddr_eq_false.mpr hbad
  · exact beq_iff_eq.mpr (State.fendCase_oneByte.mpr hone)
  · simpa using ⟨hfend, hfesc⟩

/-- Settles O44: the row of Terminated answers the status it finds. -/
theorem terminatedIgnoresBytes : Obligations.TerminatedIgnoresBytes := by
  intro s b h hs
  rw [← State.answer_c_of_idle _ _ h.1]
  exact h.selected _ hs rfl

/-- Settles O42: the computed and the received CRC tell the two rows apart, and each reads within the capacity. -/
theorem closingFendChecksTheCrc : Obligations.ClosingFendChecksTheCrc := by
  intro s h hs htwo hcap n rx c
  refine ⟨fun hcrc => ?_, fun hcrc => ?_⟩
  · rw [← State.decOk_of_idle { s.dec with crc := c, idx := BitVec.ofNat 16 n, state := .terminated } h.1]
    exact (h.selected _ hs (beq_iff_eq.mpr (State.fendCase_crcGood.mpr ⟨htwo, hcrc⟩))).trans (readingBody_of_le _ hcap)
  · refine (h.selected _ hs (beq_iff_eq.mpr (State.fendCase_crcBad.mpr ⟨htwo, hcrc⟩))).trans
      ((readingBody_of_le _ hcap).trans (congrArg _ ?_))
    exact State.decRaise_of_idle (s := s.withDec { s.dec with crc := c }) _ h.1

/-- Each of the appending rows, selected, appends its byte or the literal it stands for (R207, R209, R210). -/
theorem exec_appendingRow {s : State} {i : Instr} {x : Byte} (h : s.DecReady)
    (hi : (s.dec.state = .receiving ∧ i = .wRcvData x ∧ x ≠ fend ∧ x ≠ fesc)
      ∨ (s.dec.state = .escaping ∧ i = .wEscTfend ∧ x = fend)
      ∨ (s.dec.state = .escaping ∧ i = .wEscTfesc ∧ x = fesc)) : exec i s = .next (s.decAppend x) := by
  obtain ⟨hs, rfl, hend, hesc⟩ | ⟨hs, rfl, rfl⟩ | ⟨hs, rfl, rfl⟩ := hi
  · exact h.selected _ hs (by simp [hend, hesc])
  · exact h.selected _ hs rfl
  · exact h.selected _ hs rfl

/-- Settles O43: one lemma for the three rows, then the two ways an append goes. -/
theorem appendingRowsStoreOneByte : Obligations.AppendingRowsStoreOneByte := by
  intro s i x h hi
  rw [exec_appendingRow h hi]
  refine ⟨fun hroom => ⟨_, rfl, ?_⟩, fun hfull => ?_⟩
  · have hidx : BitVec.ofNat 16 (s.dec.idx.toNat + 1) = s.dec.idx + 1#16 := ofNat_count_add_one s.dec.idx
    rw [State.decAppend_of_room x h.1 hroom, hidx]
    refine ⟨rfl, ?_, fun a ha => ?_⟩
    · rw [State.bmRead_set rfl, if_pos rfl]
    · rw [State.bmRead_set rfl, if_neg (Ne.symm ha)]
  · rw [State.decAppend_of_full x hfull, State.decRaise_of_idle _ h.1]

end Sys2Proof.Machine
end

section
/-! SUPPORT. What a byte does to the decoder (43_decode.md R195, R196, R208, R212, R216): that it is answered, what it
leaves unchanged, the errors, and the state Terminated. -/

namespace Sys2Proof.Machine

/-! ## Every byte is answered -/

/-- A ready decoder whose index is within the capacity answers every byte (R212). -/
theorem State.DecReady.answers {s : State} (h : s.DecReady) (hle : s.dec.idx.toNat ≤ s.dec.cap.toNat) (b : Byte) :
    ∃ t, exec (.decByte b) s = .next t := by
  obtain ⟨hwf, hst, -, hfend⟩ := decodeWire_row s.dec.state s.fendCase b
  obtain ⟨sel, k, hrow, hsel, hk⟩ := exec_wireRow hst hwf s
  obtain ⟨t, rfl⟩ := hk hle
  exact ⟨t, by rw [exec_decByte, hrow, h.selected _ rfl (hsel.mpr hfend)]⟩

/-- From `s` to `t` the answers `rs` are given on port C, newest first, and the decoder and BM change, the binding of the
decoder kept. -/
structure DecoderFrame (rs : List Response) (s t : State) : Prop where
  eq : t = { s with dec := t.dec, bm := t.bm, cAnswers := rs ++ s.cAnswers }
  bound : t.dec.bound = s.dec.bound
  buf : t.dec.buf = s.dec.buf
  cap : t.dec.cap = s.dec.cap

/-- A byte is answered with the status that it leaves (R195, R208). -/
theorem execDecByte_decoderFrame {b : Byte} {s t : State} (h : execDecByte b s = .next t) :
    DecoderFrame [⟨t.dec.status, 0#32⟩] s t := by
  obtain ⟨⟨hc, -, -⟩, h⟩ := execDecByte_cases h
  have ok {d : Decoder} (hbound : d.bound = s.dec.bound) (hbuf : d.buf = s.dec.buf) (hcap : d.cap = s.dec.cap) :
      DecoderFrame [⟨.ok, 0#32⟩] s (s.decOk d) := ⟨State.decOk_of_idle d hc, hbound, hbuf, hcap⟩
  have raise (e : Status) : DecoderFrame [⟨e, 0#32⟩] s (s.decRaise e) := ⟨State.decRaise_of_idle e hc, rfl, rfl, rfl⟩
  have append (x : Byte) : DecoderFrame [⟨(s.decAppend x).dec.status, 0#32⟩] s (s.decAppend x) := by
    obtain ⟨-, h⟩ | ⟨-, h⟩ := s.decAppend_cases x <;> rw [h]
    · exact raise .overflow
    · exact ⟨State.decOk_of_idle (s := s.withBm _) _ hc, rfl, rfl, rfl⟩
  obtain ⟨-, -, rfl⟩ | ⟨-, -, rfl⟩ | ⟨-, -, rfl⟩ | ⟨-, -, rfl⟩ | ⟨-, -, -, rfl⟩ | ⟨-, -, -, rfl⟩ | ⟨-, -, -, -, -, rfl⟩
    | ⟨-, -, -, -, -, rfl⟩ | ⟨-, -, rfl⟩ | ⟨-, -, -, rfl⟩ | ⟨-, -, rfl⟩ | ⟨-, -, rfl⟩ | ⟨-, -, -, rfl⟩ | ⟨-, rfl⟩ := h
  exacts [ok rfl rfl rfl, ok rfl rfl rfl, ok rfl rfl rfl, raise _, ok rfl rfl rfl, raise _, ok rfl rfl rfl,
    ⟨State.decRaise_of_idle (s := s.withDec _) _ hc, rfl, rfl, rfl⟩, ok rfl rfl rfl, append _, append _, append _,
    raise _, ⟨State.answer_c_of_idle _ _ hc, rfl, rfl, rfl⟩]

/-- Settles O46: the row that the byte selects runs, and writes BM at the index at most. -/
theorem decByteAlwaysAnswers : Obligations.DecByteAlwaysAnswers := by
  intro s b hready hI
  obtain ⟨-, -, hbound⟩ := hI
  obtain ⟨⟨-, hle⟩, -⟩ := hbound hready.2.1
  obtain ⟨t, ht⟩ := hready.answers hle b
  have hframe := execDecByte_decoderFrame ht
  refine ⟨t, ht, by rw [← exec_decByte, ht], hframe.eq, hframe.bound.trans hready.2.1, hframe.buf, hframe.cap, ?_⟩
  intro a ha
  obtain hbm | ⟨-, x, hbm⟩ := execDecByte_bm ht
  · exact State.bmRead_congr (by rw [hbm])
  · rw [State.bmRead_set hbm, if_neg (Ne.symm ha)]

/-! ## Errors -/

/-- In Terminated a byte only answers (R208). -/
theorem execDecByte_terminated {b : Byte} {s t : State} (hs : s.dec.state = .terminated)
    (h : execDecByte b s = .next t) : t.dec = s.dec := by
  rw [execDecByte, hs] at h
  obtain ⟨-, -, -, -, -, h⟩ := onRow_next h
  cases h
  rfl

/-- Outside Terminated a byte that leaves an error has raised it; a closing FEND has written DEC.crc before (R196,
R205). -/
theorem execDecByte_error {b : Byte} {s t : State} (h : execDecByte b s = .next t) (herr : t.dec.status ≠ .ok)
    (hs : s.dec.state ≠ .terminated) : ∃ c e, t = (s.withDec { s.dec with crc := c }).decRaise e := by
  have ok {P : Prop} {u : State} (hok : u.dec.status = .ok) (hu : t = u) : P := absurd (hu ▸ hok) herr
  have raise {e : Status} (h : t = s.decRaise e) : ∃ c e, t = (s.withDec { s.dec with crc := c }).decRaise e :=
    ⟨s.dec.crc, e, h⟩
  have append {x : Byte} (h : t = s.decAppend x) : ∃ c e, t = (s.withDec { s.dec with crc := c }).decRaise e := by
    obtain ⟨-, hx⟩ | ⟨-, hx⟩ := s.decAppend_cases x <;> rw [hx] at h
    · exact raise h
    · exact ok rfl h
  obtain ⟨-, -, h⟩ | ⟨-, -, h⟩ | ⟨-, -, h⟩ | ⟨-, -, h⟩ | ⟨-, -, -, h⟩ | ⟨-, -, -, h⟩ | ⟨-, -, -, -, -, h⟩
    | ⟨-, -, -, -, -, h⟩ | ⟨-, -, h⟩ | ⟨-, -, -, h⟩ | ⟨-, -, h⟩ | ⟨-, -, h⟩ | ⟨-, -, -, h⟩ | ⟨hterm, -⟩ :=
    (execDecByte_cases h).2
  exacts [ok rfl h, ok rfl h, ok rfl h, raise h, ok rfl h, raise h, ok rfl h, ⟨_, _, h⟩, ok rfl h, append h, append h,
    append h, raise h, absurd hterm hs]

/-- Settles O47: in Terminated the status is OK and stays, so the error was raised. -/
theorem everyDecodeErrorResets : Obligations.EveryDecodeErrorResets := by
  intro s t b hI h herr
  obtain ⟨⟨-, hb, -⟩, -⟩ := execDecByte_cases h
  obtain ⟨-, -, -, -, hterm⟩ := hI.2.2 hb
  have hs : s.dec.state ≠ .terminated := fun hs =>
    herr (by rw [execDecByte_terminated hs h]; exact (hterm hs).1)
  obtain ⟨c, e, rfl⟩ := execDecByte_error h herr hs
  exact ⟨rfl, rfl, rfl, rfl, rfl, rfl, rfl⟩

/-! ## Terminated -/

/-- The instructions that write the decoder are DEC_BYTE, the wire rows, which are DEC_BYTE with their byte, and
DEC_INIT. -/
theorem exec_dec_cases {i : Instr} {s t : State} (h : exec i s = .next t) :
    t.dec = s.dec ∨ (∃ b, execDecByte b s = .next t) ∨ ∃ buf cap, i = .decInit buf cap := by
  have query {port : Port} {w : Nat} {v : Value} (h : acceptRing port s (.next (s.answerRing port w v)) = .next t) :
      t.dec = s.dec := by
    obtain ⟨-, -, -, h⟩ := acceptRing_next h
    cases h
    exact s.answerRing_dec port w v
  have answer {port : Port} {st : Status} {v : Value} (h : accept port s (.next (s.answer port st v)) = .next t) :
      t.dec = s.dec := by
    obtain ⟨-, h⟩ := accept_next h
    cases h
    exact s.answer_dec port st v
  by_cases hw : i.isWire = true
  · exact .inr (.inl (wireRow_is_decByte hw h))
  cases i with
  | rbInit => exact .inl (execRbInit_move h).dec
  | rbInsert b => exact .inl (execRbInsert_move h).dec
  | rbRemove => exact .inl (execRbRemove_move h).dec
  | rbPush b => exact .inl (execRbPush_move h).dec
  | rbCount port | rbFull port | rbEmpty port => exact .inl (query h)
  | crcAppend b crc => exact .inl (answer h)
  | unassigned port pkt => exact .inl (answer h)
  | enc dst dcap addr pay plen => exact .inl (execEnc_frame h).2
  | decInit buf cap => exact .inr (.inr ⟨buf, cap, rfl⟩)
  | decByte b => exact .inr (.inl ⟨b, h⟩)
  | rd reg =>
    obtain ⟨-, h⟩ := accept_next h
    split at h
    · cases h; exact .inl rfl
    · split at h <;> cases h <;> exact .inl rfl
  | _ => exact absurd rfl hw

/-- Settles O48: DEC_BYTE and the wire rows only answer there. -/
theorem onlyDecInitLeavesTerminated : Obligations.OnlyDecInitLeavesTerminated := by
  intro s t i hs hi h
  obtain hdec | ⟨b, hbyte⟩ | ⟨buf, cap, hinit⟩ := exec_dec_cases h
  · exact hdec
  · exact execDecByte_terminated hs hbyte
  · exact absurd hinit (hi buf cap)

end Sys2Proof.Machine
end

section
/-! SUPPORT. Frames fed to the decoder (43_decode.md R213, R215): the bytes of a frame one after the other, the body they
leave in the buffer, and how the frame ends. -/

namespace Sys2Proof.Machine

/-! ## Feeding bytes -/

theorem feedBytes_append {l l' : List Byte} {s u : State} (h : feedBytes l s = .next u) :
    feedBytes (l ++ l') s = feedBytes l' u := by
  induction l generalizing s with
  | nil => cases h; rfl
  | cons b l ih =>
    rw [feedBytes] at h
    rw [List.cons_append, feedBytes]
    cases hb : exec (.decByte b) s with
    | next v => rw [hb] at h; exact ih h
    | fault | refused => rw [hb] at h; cases h

theorem DecoderFrame.trans {rs rs' : List Response} {s u t : State} (h : DecoderFrame rs s u)
    (h' : DecoderFrame rs' u t) : DecoderFrame (rs' ++ rs) s t := by
  refine ⟨?_, h'.bound.trans h.bound, h'.buf.trans h.buf, h'.cap.trans h.cap⟩
  rw [h'.eq, h.eq, List.append_assoc]

theorem DecoderFrame.par {rs : List Response} {s t : State} (h : DecoderFrame rs s t) : t.par = s.par := by
  rw [h.eq]

theorem DecoderFrame.cAnswers {rs : List Response} {s t : State} (h : DecoderFrame rs s t) :
    t.cAnswers = rs ++ s.cAnswers := by
  rw [h.eq]

theorem DecoderFrame.decReady {rs : List Response} {s t : State} (h : DecoderFrame rs s t) (hs : s.DecReady) :
    t.DecReady := by
  obtain ⟨hc, hb, hr⟩ := hs
  refine ⟨by rw [h.eq]; exact hc, h.bound.trans hb, ?_⟩
  rw [h.par, h.buf, h.cap]
  exact hr

/-- The bytes `l` lead a decoder from `s` to `t`, each of them answered OK. -/
structure FedOk (l : List Byte) (s t : State) : Prop where
  run : feedBytes l s = .next t
  frame : DecoderFrame (List.replicate l.length ⟨.ok, 0#32⟩) s t

theorem FedOk.nil (s : State) : FedOk [] s s := ⟨rfl, rfl, rfl, rfl, rfl⟩

theorem FedOk.append {l l' : List Byte} {s u t : State} (h : FedOk l s u) (h' : FedOk l' u t) : FedOk (l ++ l') s t := by
  refine ⟨(feedBytes_append h.run).trans h'.run, ?_⟩
  rw [List.length_append, Nat.add_comm, ← List.replicate_append_replicate]
  exact h.frame.trans h'.frame

theorem feedBytes_singleton {b : Byte} {s t : State} (h : exec (.decByte b) s = .next t) :
    feedBytes [b] s = .next t := by
  rw [feedBytes, h]
  rfl

theorem FedOk.byte {b : Byte} {s t : State} (h : exec (.decByte b) s = .next t) (hok : t.dec.status = .ok) :
    FedOk [b] s t := by
  refine ⟨feedBytes_singleton h, ?_⟩
  have hframe := execDecByte_decoderFrame h
  rw [hok] at hframe
  exact hframe

/-! ## The body in the buffer -/

theorem State.bmReads_of_bm_eq {s t : State} (h : t.bm = s.bm) (a n : Nat) : t.bmReads a n = s.bmReads a n :=
  State.bmReads_congr a n fun _ _ _ => State.bmRead_congr (by rw [h])

/-- A ready decoder in the middle of a frame: the address stored, the bytes of the body so far in the buffer. -/
structure State.Holds (s : State) (addr : Byte) (body : List Byte) : Prop where
  ready : s.DecReady
  addr : s.dec.addr = addr
  idx : s.dec.idx.toNat = body.length
  bytes : s.bmReads s.dec.buf.toNat body.length = body

/-- DEC_BYTE in a given state runs the row of the wire table (R212). -/
theorem exec_decByte_in {s : State} {st : DecState} (b : Byte) (hs : s.dec.state = st) :
    exec (.decByte b) s = exec (decodeWire st s.fendCase b) s := hs ▸ exec_decByte b s

/-- DEC_BYTE in AddressExpected stores a valid address and refuses any other byte (R200, R201). -/
theorem exec_decByte_address {s : State} (b : Byte) (hs : s.dec.state = .addressExpected) :
    exec (.decByte b) s = if validAddr b then storeAddress b s else execWAeAddrBad b s :=
  (exec_decByte_in b hs).trans ((exec_decodeAddress b s).trans (addressRow_eq b s))

/-- FEND and a valid address begin a frame (R198, R200). -/
theorem State.DecReady.fed_header {s : State} {a : Byte} (h : s.DecReady) (hs : s.dec.state = .idle)
    (hidx : s.dec.idx = 0#16) (ha : validAddr a = true) :
    ∃ t, FedOk [fend, a] s t ∧ t.Holds a [] ∧ t.dec.state = .receiving := by
  have hfend := FedOk.byte ((exec_decByte_in fend hs).trans (h.selected _ hs rfl)) rfl
  have h' := hfend.frame.decReady h
  have haddr := FedOk.byte ((exec_decByte_address a rfl).trans ((if_pos ha).trans (h'.selected _ rfl rfl))) rfl
  exact ⟨_, hfend.append haddr, ⟨haddr.frame.decReady h', rfl, congrArg BitVec.toNat hidx, rfl⟩, rfl⟩

/-- FESC moves the decoder to Escaping, the body as before (R206). -/
theorem State.Holds.fed_fesc {s : State} {a : Byte} {body : List Byte} (h : s.Holds a body)
    (hs : s.dec.state = .receiving) : ∃ u, FedOk [fesc] s u ∧ u.Holds a body ∧ u.dec.state = .escaping := by
  obtain ⟨hready, haddr, hidx, hbytes⟩ := h
  have hfesc := FedOk.byte ((exec_decByte_in fesc hs).trans (hready.selected _ hs rfl)) rfl
  refine ⟨_, hfesc, ⟨hfesc.frame.decReady hready, haddr, hidx, ?_⟩, rfl⟩
  exact Eq.trans (State.bmReads_of_bm_eq (by rfl) _ _) hbytes

/-- The bytes that stand for one body byte: all but the last leave the body, and the last appends it (R207, R209,
R210). -/
theorem State.Holds.unescape {s : State} {a : Byte} {body : List Byte} (h : s.Holds a body)
    (hs : s.dec.state = .receiving) (b : Byte) :
    ∃ pre x u, esc b = pre ++ [x] ∧ FedOk pre s u ∧ u.Holds a body ∧ exec (.decByte x) u = .next (u.decAppend b) := by
  obtain ⟨u, hfesc, hu, hesc⟩ := h.fed_fesc hs
  obtain ⟨rfl, he⟩ | ⟨rfl, he⟩ | ⟨hend, hne, he⟩ := esc_cases b
  · exact ⟨[fesc], tfend, u, he, hfesc, hu,
      (exec_decByte_in tfend hesc).trans (exec_appendingRow hu.ready (.inr (.inl ⟨hesc, rfl, rfl⟩)))⟩
  · exact ⟨[fesc], tfesc, u, he, hfesc, hu,
      (exec_decByte_in tfesc hesc).trans (exec_appendingRow hu.ready (.inr (.inr ⟨hesc, rfl, rfl⟩)))⟩
  · have hrow : decodeWire .receiving s.fendCase b = .wRcvData b := by simp only [decodeWire, if_neg hend, if_neg hne]
    refine ⟨[], b, s, he, .nil s, h, ?_⟩
    rw [exec_decByte_in b hs, hrow]
    exact exec_appendingRow h.ready (.inl ⟨hs, rfl, hend, hne⟩)

/-- One more byte of the body where there is room (R197). -/
theorem State.Holds.decAppend {s : State} {a : Byte} {body : List Byte} (h : s.Holds a body) (b : Byte)
    (hroom : body.length < s.dec.cap.toNat) :
    (s.decAppend b).Holds a (body ++ [b]) ∧ (s.decAppend b).dec.state = .receiving
      ∧ (s.decAppend b).dec.status = .ok := by
  obtain ⟨⟨hc, hb, hr⟩, haddr, hidx, hbytes⟩ := h
  have hcap := s.dec.cap.isLt
  rw [State.decAppend_of_room b hc (by omega)]
  refine ⟨⟨⟨hc, hb, hr⟩, haddr, ?_, ?_⟩, rfl, rfl⟩
  · simp only [BitVec.toNat_add, BitVec.toNat_ofNat, List.length_append, List.length_singleton]
    omega
  · rw [List.length_append, List.length_singleton, State.bmReads_add]
    refine congrArg₂ _ ((State.bmReads_congr _ _ fun x _ hx => ?_).trans hbytes) (congrArg (· :: []) ?_)
    · rw [State.bmRead_set rfl, if_neg (by simp only at hx; omega)]
    · rw [State.bmRead_set rfl, if_pos (by rw [hidx])]

/-- An escaped body that the buffer has room for is decoded into it (R213). -/
theorem State.Holds.fed_escAll {s : State} {a : Byte} {body : List Byte} (h : s.Holds a body)
    (hs : s.dec.state = .receiving) (l : List Byte) (hroom : body.length + l.length ≤ s.dec.cap.toNat) :
    ∃ t, FedOk (escAll l) s t ∧ t.Holds a (body ++ l) ∧ t.dec.state = .receiving := by
  induction l generalizing s body with
  | nil => exact ⟨s, .nil s, by rwa [List.append_nil], hs⟩
  | cons b l ih =>
    rw [List.length_cons] at hroom
    obtain ⟨pre, x, u, he, hpre, hu, hx⟩ := h.unescape hs b
    obtain ⟨hv, hvs, hok⟩ := hu.decAppend b (by rw [hpre.frame.cap]; omega)
    have hesc : FedOk (esc b) s (u.decAppend b) := he ▸ hpre.append (.byte hx hok)
    obtain ⟨t, hl, ht, hts⟩ := ih hv hvs (by
      rw [hesc.frame.cap, List.length_append, List.length_singleton]
      omega)
    exact ⟨t, hesc.append hl, by rwa [List.append_assoc] at ht, hts⟩

/-! ## The end of a frame -/

/-- The payload and the two CRCs, read off a buffered body (R204). -/
theorem State.Holds.crcs {s : State} {a h l : Byte} {P : List Byte} (hold : s.Holds a (P ++ [h, l])) :
    s.payloadLen = P.length ∧ s.bmReads s.dec.buf.toNat P.length = P ∧ s.bodyCrc = crcFold s.par (a :: P)
      ∧ s.rxCrc = be16 h l := by
  obtain ⟨-, haddr, hidx, hbytes⟩ := hold
  have hlen : s.payloadLen = P.length := by rw [State.payloadLen, hidx, List.length_append]; rfl
  rw [List.length_append, State.bmReads_add] at hbytes
  obtain ⟨hP, htail⟩ := List.append_inj hbytes (State.length_bmReads s _ _)
  obtain ⟨hh, htail⟩ := List.cons.inj htail
  obtain ⟨hl, -⟩ := List.cons.inj htail
  refine ⟨hlen, hP, ?_, ?_⟩
  · rw [State.bodyCrc, hlen, hP, haddr]
  · rw [State.rxCrc, hlen, hh, hl]

/-- A FEND after a body of two bytes or more runs the row that the CRCs select (R204, R205). -/
theorem exec_closingFend {s : State} (hs : s.dec.state = .receiving) (htwo : 2 ≤ s.dec.idx.toNat) :
    exec (.decByte fend) s = if s.bodyCrc = s.rxCrc then exec .wRcvFendGood s else exec .wRcvFendBadcrc s := by
  rw [exec_decByte_in fend hs]
  split
  · next hcrc => rw [State.fendCase_crcGood.mpr ⟨htwo, hcrc⟩]; rfl
  · next hcrc => rw [State.fendCase_crcBad.mpr ⟨htwo, hcrc⟩]; rfl

/-- Settles O49: the header, the escaped body and the closing FEND, which finds the CRC that the encoder sent. -/
theorem framesDecodeToTheirPayload : Obligations.FramesDecodeToTheirPayload := by
  intro s a P h hs hidx ha hroom F
  obtain ⟨u, hhead, hu, hus⟩ := h.fed_header hs hidx ha
  have hroom' : (bodyOf s.par a P).length ≤ u.dec.cap.toNat := by
    rw [bodyOf_length, hhead.frame.cap]
    exact hroom
  obtain ⟨v, hbody, hv, hvs⟩ := hu.fed_escAll hus (bodyOf s.par a P) (by simpa using hroom')
  have hfed := hhead.append hbody
  obtain ⟨hlen, hP, hcrc, hrx⟩ := State.Holds.crcs hv
  have hidx : v.dec.idx.toNat = P.length + 2 := hv.idx.trans (bodyOf_length ..)
  have hgood : v.bodyCrc = v.rxCrc := by rw [hcrc, hrx, be16_bytes, hfed.frame.par]
  have hfend := exec_closingFend hvs (by omega)
  rw [if_pos hgood, (closingFendChecksTheCrc v hv.ready hvs (by omega)
    (by rw [hidx, hfed.frame.cap]; exact hroom)).1 hgood] at hfend
  have hall := hfed.append (.byte hfend rfl)
  refine ⟨_, hall.run, rfl, rfl, hv.addr, ?_, (State.bmReads_of_bm_eq (by rfl) _ _).trans hP, hall.frame.buf,
    hall.frame.cAnswers⟩
  have hcap := s.dec.cap.isLt
  simp only [hidx, BitVec.toNat_ofNat]
  omega

/-- Settles O50: the body byte that finds the buffer full ends the frame. -/
theorem smallBuffersOverflow : Obligations.SmallBuffersOverflow := by
  intro s a P h hs hidx ha hfull
  obtain ⟨u, hhead, hu, hus⟩ := h.fed_header hs hidx ha
  obtain ⟨l1, b, l2, hbody, hl1⟩ : ∃ l1 b l2, bodyOf s.par a P = l1 ++ b :: l2 ∧ l1.length = s.dec.cap.toNat := by
    have hlt : s.dec.cap.toNat < (bodyOf s.par a P).length := by rwa [bodyOf_length]
    refine ⟨_, _, _, (List.take_append_drop s.dec.cap.toNat _).symm.trans
      (congrArg _ (List.drop_eq_getElem_cons hlt)), ?_⟩
    rw [List.length_take]
    omega
  obtain ⟨v, hfit, hv, hvs⟩ := hu.fed_escAll hus l1 (by rw [hhead.frame.cap, ← hl1]; exact (Nat.zero_add _).le)
  obtain ⟨pre, x, w, he, hpre, hw, hx⟩ := hv.unescape hvs b
  have hfed := (hhead.append hfit).append hpre
  have hover : w.decAppend b = w.decRaise .overflow :=
    State.decAppend_of_full b (by rw [hfed.frame.cap, hw.idx, ← hl1]; rfl)
  refine ⟨[fend, a] ++ escAll l1 ++ pre, x, escAll l2 ++ [fend], w.decRaise .overflow, ?_, ?_, rfl, rfl, rfl⟩
  · simp [frameOf, hbody, escAll_append, he]
  · exact (feedBytes_append hfed.run).trans (feedBytes_singleton (hx.trans (congrArg _ hover)))

/-! ## One flipped bit -/

theorem OneBitApart.length_eq {m m' : List Byte} (h : OneBitApart m m') : m'.length = m.length := by
  obtain ⟨pre, x, post, k, -, rfl, rfl⟩ := h
  simp

theorem OneBitApart.ne {m m' : List Byte} (h : OneBitApart m m') : m' ≠ m := by
  obtain ⟨pre, x, post, k, hk, rfl, rfl⟩ := h
  have hbit : ∀ (y : Byte) (j : Fin 8), y ^^^ (1#8 <<< j.val) ≠ y := by decide
  simpa using hbit x ⟨k, hk⟩

/-- The flipped bit of a joined list is in one of its parts. -/
theorem OneBitApart.of_append {l r m : List Byte} (h : OneBitApart (l ++ r) m) :
    ∃ l' r', m = l' ++ r' ∧ (OneBitApart l l' ∧ r' = r ∨ l' = l ∧ OneBitApart r r') := by
  obtain ⟨pre, x, post, k, hk, hm, rfl⟩ := h
  obtain ⟨as, rfl, rfl⟩ | ⟨as, rfl, has⟩ := List.append_eq_append_iff.mp hm
  · exact ⟨l, as ++ (x ^^^ (1#8 <<< k)) :: post, by simp, .inr ⟨rfl, as, x, post, k, hk, rfl, rfl⟩⟩
  · obtain ⟨rfl, rfl⟩ | ⟨as', rfl, rfl⟩ := List.cons_eq_append_iff.mp has
    · exact ⟨pre, (x ^^^ (1#8 <<< k)) :: post, rfl, .inr ⟨by simp, [], x, post, k, hk, rfl, rfl⟩⟩
    · exact ⟨pre ++ (x ^^^ (1#8 <<< k)) :: as', r, by simp, .inl ⟨⟨pre, x, as', k, hk, rfl, rfl⟩, rfl⟩⟩

/-- Settles O51: a bit flipped in the payload changes the computed CRC, by the assumption, and one flipped in the CRC
bytes changes the received one. -/
theorem oneFlippedBitIsDetected : Obligations.OneFlippedBitIsDetected := by
  intro s P body h hsingle hs hcap hidx hflip hbytes
  obtain ⟨Q, r, rfl, hcases⟩ := OneBitApart.of_append hflip
  obtain ⟨hi, lo, rfl, hcrc⟩ : ∃ hi lo, r = [hi, lo] ∧ crcFold s.par (s.dec.addr :: Q) ≠ be16 hi lo := by
    obtain ⟨hpayload, rfl⟩ | ⟨rfl, hr⟩ := hcases
    · refine ⟨_, _, rfl, ?_⟩
      obtain ⟨pre, x, post, k, hk, rfl, rfl⟩ := hpayload
      rw [be16_bytes]
      exact (hsingle _ _ ⟨s.dec.addr :: pre, x, post, k, hk, rfl, rfl⟩).symm
    · obtain ⟨hi, lo, rfl⟩ := List.length_eq_two.mp hr.length_eq
      refine ⟨hi, lo, rfl, fun he => hr.ne ?_⟩
      rw [he, bytes16_be16]
  have hlen : s.dec.idx.toNat = (Q ++ [hi, lo]).length := by rw [← hbytes, State.length_bmReads]
  obtain ⟨-, -, hbody, hrx⟩ := State.Holds.crcs ⟨h, rfl, hlen, hlen ▸ hbytes⟩
  have hbad : s.bodyCrc ≠ s.rxCrc := by rwa [hbody, hrx]
  have hfend := exec_closingFend hs (by omega)
  rw [if_neg hbad, (closingFendChecksTheCrc s h hs (by omega) hcap).2 hbad] at hfend
  exact ⟨_, hfend, rfl, rfl, rfl⟩

/-! ## Out of step -/

/-- In Idle every byte but a FEND is ignored (R199). -/
theorem State.DecReady.fed_ignored {s : State} (h : s.DecReady) (hs : s.dec.state = .idle) {l : List Byte}
    (hl : fend ∉ l) : ∃ t, FedOk l s t ∧ t.dec.state = .idle ∧ t.bm = s.bm := by
  induction l generalizing s with
  | nil => exact ⟨s, .nil s, hs, rfl⟩
  | cons b l ih =>
    rw [List.mem_cons, not_or] at hl
    have hrow : decodeWire .idle s.fendCase b = .wIdleOther b := if_neg (Ne.symm hl.1)
    have hrun : exec (.decByte b) s = .next (s.decOk s.dec) := by
      rw [exec_decByte_in b hs, hrow]
      exact h.selected _ hs (bne_iff_ne.mpr (Ne.symm hl.1))
    have hbyte : FedOk [b] s (s.decOk s.dec) := .byte hrun rfl
    obtain ⟨t, hrest, ht, hbm⟩ := ih (hbyte.frame.decReady h) hs hl.2
    exact ⟨t, hbyte.append hrest, ht, hbm⟩

/-- Settles O52: the opening FEND is a bad address, the address and the body are ignored in Idle, the closing FEND is
taken for an opening one. -/
theorem outOfStepDecoderLosesTheFrame : Obligations.OutOfStepDecoderLosesTheFrame := by
  intro s a body h hs ha F
  have hfend : exec (.decByte fend) s = .next (s.decRaise .invalidAddress) :=
    (exec_decByte_address fend hs).trans (h.selected _ hs rfl)
  have hlost := execDecByte_decoderFrame hfend
  have hu := hlost.decReady h
  have hignored : fend ∉ a :: escAll body := by
    rw [List.mem_cons, not_or]
    exact ⟨(validAddr_not_escaped ha).1.symm, fend_not_mem_escAll body⟩
  obtain ⟨v, hrest, hvs, hvm⟩ := hu.fed_ignored rfl hignored
  have hv := hrest.frame.decReady hu
  have hclose := hrest.append (.byte ((exec_decByte_in fend hvs).trans (hv.selected _ hvs rfl)) rfl)
  have hframe := hlost.trans hclose.frame
  refine ⟨_, (feedBytes_append (feedBytes_singleton hfend)).trans hclose.run, rfl, hframe.eq.trans ?_, ?_⟩
  · rw [hframe.cAnswers, State.decOk_bm, hvm, State.decRaise_bm]
  · rw [hframe.cAnswers, List.append_assoc]
    rfl

end Sys2Proof.Machine
end

section
/-! SUPPORT. RD (44_system.md R230): the register numbers as a table, and what RD answers of a register that has a
specified value, of one that has none, and of a number that names none. -/

namespace Sys2Proof.Machine

/-! ## The register numbers -/

/-- The assigned register numbers and the registers they name (R108). -/
def regNumbers : List (Byte × Reg) :=
  [(0x00#8, .rbCount), (0x01#8, .rbIn), (0x02#8, .rbOut), (0x03#8, .rbOvf), (0x04#8, .rbInited), (0x10#8, .decState),
    (0x11#8, .decStatus), (0x12#8, .decAddr), (0x13#8, .decIdx), (0x14#8, .decCrc), (0x15#8, .decBuf), (0x16#8, .decCap),
    (0x17#8, .decBound), (0x20#8, .encStatus), (0x21#8, .encLen)]

theorem regOf_of_mem_regNumbers : ∀ q ∈ regNumbers, regOf q.1 = some q.2 := by decide

theorem regOf_eq_none_of_unassigned : ∀ n : Byte, n ∉ regNumbers.map Prod.fst → regOf n = none := by decide

/-! ## What RD answers -/

section Rd

variable {s : State} {n : Byte} {r : Reg} (hc : s.cBusy = none)
include hc

theorem exec_rd_written (hr : regOf n = some r) (hw : regWritten s r = true) :
    exec (.rd n) s = .next { s with cAnswers := ⟨.ok, regValue s r⟩ :: s.cAnswers } := by
  rw [← State.answer_c_of_idle _ _ hc]
  simp [exec, execRd, hc, hr, hw]

/-- A register without a specified value takes one draw (93 U3, U12). -/
theorem exec_rd_unwritten (hr : regOf n = some r) (hw : regWritten s r = false) :
    exec (.rd n) s = .next { s with
      draws := s.draws + 1, cAnswers := ⟨.ok, freeValue s.draws (regWidth s.par r)⟩ :: s.cAnswers } := by
  have hanswer := State.answer_c_of_idle (s := s.drew 1) .ok (freeValue s.draws (regWidth s.par r)) hc
  simpa [exec, execRd, hc, hr, hw] using hanswer

theorem exec_rd_unassigned (hr : regOf n = none) :
    exec (.rd n) s = .next { s with cAnswers := ⟨.illegalCmd, 0#32⟩ :: s.cAnswers } := by
  rw [← State.answer_c_of_idle _ _ hc]
  simp [exec, execRd, hc, hr]

end Rd

/-- Settles O10: the value is the draw, cut to the register's width. -/
theorem rdUnwrittenIsADraw : Obligations.RdUnwrittenIsADraw :=
  fun _ _ _ hc hr hw => ⟨_, freeValue_lt .., exec_rd_unwritten hc hr hw⟩

/-- Settles O9: the fifteen entries are the table of numbers, each with its register's condition and value. -/
theorem rdAnswersByNumber : Obligations.RdAnswersByNumber := by
  refine ⟨fun s hc q hq hw => ?_, fun s n hc hn => exec_rd_unassigned hc (regOf_eq_none_of_unassigned n hn)⟩
  have hentry : q ∈ regNumbers.map fun e => (e.1, regWritten s e.2, regValue s e.2) := hq
  obtain ⟨e, he, rfl⟩ := List.mem_map.mp hentry
  exact exec_rd_written hc (regOf_of_mem_regNumbers e he) hw

end Sys2Proof.Machine
end

section
/-! SUPPORT. What each port may touch (60_exceptions.md R255, 20_memory.md R65): the frame of port P's commands and
micro-steps, and that of port C's. -/

namespace Sys2Proof.Machine

section PortFrames

variable {s t : State}

/-! ## Commands that only answer -/

/-- A query of the ring is an answer and at most a draw. -/
theorem ringQuery_answers {port : Port} {w : Nat} {v : Value}
    (h : acceptRing port s (.next (s.answerRing port w v)) = .next t) :
    ∃ n x, t = (s.drew n).answer port .ok x := by
  obtain ⟨-, -, -, h⟩ := acceptRing_next h
  cases h
  cases ho : s.ring.overrun with
  | false => exact ⟨0, v, State.answerRing_sound port w v ho⟩
  | true => exact ⟨1, _, State.answerRing_overrun port w v ho⟩

/-- RD is an answer and at most a draw. -/
theorem execRd_answers {reg : Byte} (h : execRd reg s = .next t) : ∃ n st x, t = (s.drew n).answer .c st x := by
  obtain ⟨-, h⟩ := accept_next h
  split at h
  · cases h; exact ⟨0, _, _, rfl⟩
  · split at h <;> cases h
    · exact ⟨0, _, _, rfl⟩
    · exact ⟨1, _, _, rfl⟩

/-! ## Port P -/

/-- From `s` to `t` only what is port P's to write changes: the ring but for RB.out and RB.inited, the P command in
progress, the P answers, the draws and the run's record of a fault. -/
structure ProducerFrame (s t : State) : Prop where
  eq : t = { s with
    ring := t.ring, pBusy := t.pBusy, pAnswers := t.pAnswers, draws := t.draws, runFaulted := t.runFaulted }
  outCur : t.ring.outCur = s.ring.outCur
  inited : t.ring.inited = s.ring.inited

theorem ProducerFrame.answer (n : Nat) (st : Status) (v : Value) : ProducerFrame s ((s.drew n).answer .p st v) :=
  ⟨rfl, rfl, rfl⟩

theorem microP_producerFrame {g : PStage} (h : microP g s = .next t) : ProducerFrame s t := by
  obtain ⟨b, -, -, rfl⟩ | ⟨b, -, rfl⟩ | ⟨b, -, -, rfl⟩ | ⟨b, -, -, rfl⟩ | ⟨b, -, rfl⟩ := microP_cases h <;>
    exact ⟨rfl, rfl, rfl⟩

theorem exec_producerFrame {i : Instr} (hi : i.port = .p) (h : exec i s = .next t) : ProducerFrame s t := by
  cases i with
  | rbCount port | rbFull port | rbEmpty port =>
    cases hi
    obtain ⟨n, x, rfl⟩ := ringQuery_answers h
    exact .answer n .ok x
  | rbInsert b =>
    obtain ⟨-, -, -, h⟩ := acceptRing_next h
    exact microP_producerFrame (g := .i1 b) h
  | rbPush b =>
    obtain ⟨-, ⟨-, rfl | rfl⟩ | ⟨-, ⟨-, rfl⟩ | ⟨-, rfl⟩⟩⟩ := execRbPush_next h <;> exact ⟨rfl, rfl, rfl⟩
  | unassigned port pkt =>
    cases hi
    obtain ⟨-, h⟩ := accept_next h
    cases h
    exact .answer 0 .illegalCmd 0#32
  | _ => cases hi

/-! ## Port C -/

/-- From `s` to `t` only what is port C's to write changes: the ring but for RB.mem and RB.ovf, the decoder, the encoder,
BM, the C command in progress, the C answers and the draws. RB.in may become 0 (RB_INIT), and the count is not raised
while no RingOverrun leaves it open (R140). -/
structure ConsumerFrame (s t : State) : Prop where
  eq : t = { s with
    ring := t.ring, dec := t.dec, enc := t.enc, bm := t.bm, cBusy := t.cBusy, cAnswers := t.cAnswers, draws := t.draws }
  mem : t.ring.mem = s.ring.mem
  ovf : t.ring.ovf = s.ring.ovf
  inCur : t.ring.inCur = s.ring.inCur ∨ t.ring.inCur = 0#16
  count : s.ring.overrun = false → t.ring.count.toNat ≤ s.ring.count.toNat

/-- Where the ring is not touched at all. -/
theorem ConsumerFrame.of_ring_kept
    (h : t = { s with
      dec := t.dec, enc := t.enc, bm := t.bm, cBusy := t.cBusy, cAnswers := t.cAnswers, draws := t.draws }) :
    ConsumerFrame s t := by
  rw [h]
  exact ⟨rfl, rfl, rfl, .inl rfl, fun _ => le_rfl⟩

theorem ConsumerFrame.answer (n : Nat) (st : Status) (v : Value) : ConsumerFrame s ((s.drew n).answer .c st v) :=
  .of_ring_kept rfl

theorem microC_consumerFrame {g : CStage} (h : microC g s = .next t) : ConsumerFrame s t := by
  obtain ⟨v, -, -, rfl⟩ | ⟨v, -, -, rfl⟩ | ⟨v, -, ho, rfl⟩ | ⟨v, -, -, hpos, rfl⟩ | ⟨-, rfl⟩ | ⟨-, rfl⟩ | ⟨-, rfl⟩ :=
    microC_cases h
  · exact ⟨rfl, rfl, rfl, .inl rfl, fun _ => le_rfl⟩
  · exact ⟨rfl, rfl, rfl, .inl rfl, fun _ => le_rfl⟩
  · rw [State.answerRing_overrun _ _ _ (by simpa using ho)]
    exact ⟨rfl, rfl, rfl, .inl rfl, fun hsound => by simp [ho] at hsound⟩
  · exact ⟨rfl, rfl, rfl, .inl rfl, fun _ => (count_sub_one hpos).trans_le (Nat.sub_le ..)⟩
  · exact ⟨rfl, rfl, rfl, .inl rfl, fun _ => le_rfl⟩
  · exact ⟨rfl, rfl, rfl, .inl rfl, fun _ => Nat.zero_le _⟩
  · exact ⟨rfl, rfl, rfl, .inl rfl, fun _ => le_rfl⟩

theorem execRbInit_consumerFrame (h : execRbInit s = .next t) : ConsumerFrame s t := by
  obtain ⟨-, -, rfl⟩ := execRbInit_next h
  exact ⟨rfl, rfl, rfl, .inr rfl, fun _ => le_rfl⟩

/-- RB_REMOVE's r1 only latches a byte. -/
theorem execRbRemove_consumerFrame (h : execRbRemove s = .next t) : ConsumerFrame s t := by
  obtain ⟨-, -, -, h⟩ := acceptRing_next h
  obtain ⟨-, rfl⟩ | ⟨-, -, -, rfl⟩ := removeLoad_next h <;> exact .of_ring_kept rfl

theorem execDecByte_consumerFrame {b : Byte} (h : execDecByte b s = .next t) : ConsumerFrame s t := by
  rw [(execDecByte_decoderFrame h).eq]
  exact .of_ring_kept rfl

theorem execDecInit_consumerFrame {buf : Ptr} {cap : Word16} (h : execDecInit buf cap s = .next t) :
    ConsumerFrame s t := by
  obtain ⟨-, ⟨-, rfl⟩ | ⟨-, -, rfl⟩⟩ := execDecInit_cases h <;> exact .of_ring_kept rfl

theorem execEnc_consumerFrame {dst : Ptr} {dcap : Word16} {addr : Byte} {pay : Ptr} {plen : Word16}
    (h : execEnc dst dcap addr pay plen s = .next t) : ConsumerFrame s t := by
  obtain ⟨-, ⟨-, rfl⟩ | ⟨-, -, rfl⟩ | ⟨-, -, -, -, rfl⟩⟩ := execEnc_cases h
  · exact .of_ring_kept rfl
  · exact .of_ring_kept rfl
  · obtain ⟨-, h⟩ | ⟨-, h⟩ := s.encFrame_cases dst.toNat dcap.toNat addr pay.toNat plen.toNat <;>
      rw [h] <;> exact .of_ring_kept rfl

theorem exec_consumerFrame {i : Instr} (hi : i.port = .c) (h : exec i s = .next t) : ConsumerFrame s t := by
  by_cases hw : i.isWire = true
  · obtain ⟨b, hb⟩ := wireRow_is_decByte hw h
    exact execDecByte_consumerFrame hb
  cases i with
  | rbInit => exact execRbInit_consumerFrame h
  | rbCount port | rbFull port | rbEmpty port =>
    cases hi
    obtain ⟨n, x, rfl⟩ := ringQuery_answers h
    exact .answer n .ok x
  | rbInsert b | rbPush b => cases hi
  | rbRemove => exact execRbRemove_consumerFrame h
  | crcAppend b crc =>
    obtain ⟨-, h⟩ := accept_next h
    cases h
    exact .answer 0 .ok _
  | enc dst dcap addr pay plen => exact execEnc_consumerFrame h
  | decInit buf cap => exact execDecInit_consumerFrame h
  | decByte b => exact execDecByte_consumerFrame h
  | rd reg =>
    obtain ⟨n, st, x, rfl⟩ := execRd_answers h
    exact .answer n st x
  | unassigned port pkt =>
    cases hi
    obtain ⟨-, h⟩ := accept_next h
    cases h
    exact .answer 0 .illegalCmd 0#32
  | _ => exact absurd rfl hw

end PortFrames

/-- Settles O26: every command and every micro-step of port P keeps to the producer's frame. -/
theorem producerTouchesOnlyItsOwn : Obligations.ProducerTouchesOnlyItsOwn := by
  intro s t h
  have hframe : ProducerFrame s t := by
    obtain ⟨i, hi, h⟩ | ⟨g, h⟩ := h
    · exact exec_producerFrame hi h
    · exact microP_producerFrame h
  exact ⟨by rw [hframe.eq], by rw [hframe.eq], fun a => by rw [hframe.eq]; rfl, hframe.outCur, hframe.inited,
    by rw [hframe.eq], by rw [hframe.eq]⟩

/-- Settles O27: every command and every micro-step of port C keeps to the consumer's frame. -/
theorem consumerTouchesOnlyItsOwn : Obligations.ConsumerTouchesOnlyItsOwn := by
  intro s t h
  have hframe : ConsumerFrame s t := by
    obtain ⟨i, hi, h⟩ | ⟨g, h⟩ := h
    · exact exec_consumerFrame hi h
    · exact microC_consumerFrame h
  exact ⟨hframe.mem, hframe.ovf, by rw [hframe.eq], by rw [hframe.eq], hframe.inCur, hframe.count⟩

end Sys2Proof.Machine
end

section
/-! SUPPORT. Hardware reset (70_reset_and_hazards.md R280, R281): the step that makes one, and the invariants in the state
that any one leaves. -/

namespace Sys2Proof.Machine

/-! ## The step -/

theorem step_of_reset {s : State} {rest : List Turn} (hs : s.sched = .reset :: rest) :
    step s = .next (State.hardReset { s with sched := rest }) := by
  have hnext : nextAction s = .settled (.next (State.hardReset { s with sched := rest })) := by
    unfold nextAction
    rw [hs]
  rw [step, hnext]

/-! ## The invariants after a hardware reset -/

/-- Nothing is bound, and no register of the decoder is in use. -/
theorem State.hardReset_decoderInvariant (s : State) : s.hardReset.DecoderInvariant := ⟨nofun, nofun, nofun⟩

theorem State.hardReset_encoderInvariant (s : State) : s.hardReset.EncoderInvariant := ⟨.inl rfl, fun _ => rfl⟩

theorem State.hardReset_counterFits (s : State) : s.hardReset.CounterFits := Nat.two_pow_pos _

/-- BM is not touched, and the ring storage is empty. -/
theorem State.hardReset_memoriesCanonical {s : State} (hm : Memory.Canonical (2 ^ s.par.addrWidth) s.bm) :
    s.hardReset.MemoriesCanonical := ⟨hm, rfl, rfl⟩

/-! ## The state after reset -/

/-- The state after reset is as a hardware reset leaves it. -/
theorem State.hardReset_reset : State.reset.hardReset = State.reset := rfl

/-- N is open between the bounds of R8; AW and CTR_W have its defaults. -/
theorem State.reset_par_legal : State.reset.par.Legal := by
  have hN : Config.ringSizeLessOne.val + 1 ≤ 65535 := Config.ringSizeLessOne.isLt
  exact ⟨⟨Nat.le_add_left 1 _, hN⟩, by decide, by decide⟩

/-- Settles O7: the registers with a specified reset value hold it by the definition of each unit's reset. -/
theorem resetValues : Obligations.ResetValues := ⟨rfl, rfl, rfl, rfl, rfl, rfl, rfl⟩

/-- Settles O8: a schedule with a reset next makes the step a hardware reset, which writes the units, the commands in
progress and the record of a fault. -/
theorem hardwareResetAnytime : Obligations.HardwareResetAnytime := by
  intro s rest hs
  exact ⟨_, step_of_reset hs, rfl, rfl, rfl, rfl, rfl, rfl, rfl, rfl, rfl, fun _ => State.bmRead_congr rfl, rfl, rfl, rfl,
    rfl, rfl⟩

/-- Settles O57: the state after reset is as a hardware reset leaves it, its parameters are legal and its BM empty. -/
theorem invariantsHoldAtReset : Obligations.InvariantsHoldAtReset := by
  unfold Obligations.InvariantsHoldAtReset
  rw [← State.hardReset_reset]
  exact ⟨State.hardReset_ringInvariant State.reset_par_legal, State.hardReset_decoderInvariant _,
    State.hardReset_encoderInvariant _, State.hardReset_counterFits _, State.hardReset_memoriesCanonical ⟨rfl, rfl⟩⟩

end Sys2Proof.Machine
end
